-- ==== Sys2Proof/Word.lean ====
section
/-! DEFINITION. The word types: byte, 64-bit register and address (R8 XLEN, AW), watch index (R31), and memory
as plain data (R36). -/

namespace Sys2Proof

/-- One byte of guest memory or of a register's storage (R12, R22). -/
abbrev Byte := BitVec 8

/-- A register, a guest address or a watched 8-byte word (R8: XLEN = AW = 64). -/
abbrev Word := BitVec 64

/-- A watch index or watch counter: an unsigned number. How many bits it has is the parameter IDXW (R8); the counters stay
below 2^IDXW because WMAX does (R32; log 28). -/
abbrev Index := Nat

/-- The 8-bit command word CMD (R80). -/
abbrev CommandWord := BitVec 8

/-- Guest memory: the bytes that have a value, address and byte, in rising order of address (R36). A byte that is not
listed has no value (R251; log 5). -/
abbrev Memory := List Host.Cell

end Sys2Proof
end

