-- ==== Sys2Proof/Syntax.lean ====
section
/-! DEFINITION. The commands of the block as syntax: one constructor of `Instr` per row of spec/opcode_table.json, their
operands (R88 to R91), and the command port's word and operand bundle (R80). -/

namespace Sys2Proof

/-- The four operation kinds (R83). -/
inductive AluOp where
  | not | neg | inc | dec
  deriving DecidableEq, Repr

/-- The four operand widths: 8, 16, 32 and 64 bits (R84). -/
inductive Width where
  | w8 | w16 | w32 | w64
  deriving DecidableEq, Repr

/-- A resolved operand reference, the OREF of R88: a register slot at byte offset 0 or 1 (`boff`), or a guest address.
The register number is a Nat, so that a number outside 0..NREG-1 can be presented (R221, vector M2; log 16). -/
inductive Oref where
  | reg (i : Nat) (boff : Bool)
  | mem (addr : Word)
  deriving DecidableEq, Repr

/-- A watch entry (R33), also the operand bundle ENTRY of WADD (R89). -/
structure WatchEntry where
  addr : Word
  prior : Word
  init : Bool
  dis : Bool
  deriving DecidableEq, Repr

/-- The 21 commands of spec/opcode_table.json. `lock` is the L bit (R85). -/
inductive Instr where
  | notB (lock : Bool) (o : Oref)
  | notW (lock : Bool) (o : Oref)
  | notD (lock : Bool) (o : Oref)
  | notQ (lock : Bool) (o : Oref)
  | negB (lock : Bool) (o : Oref)
  | negW (lock : Bool) (o : Oref)
  | negD (lock : Bool) (o : Oref)
  | negQ (lock : Bool) (o : Oref)
  | incB (lock : Bool) (o : Oref)
  | incW (lock : Bool) (o : Oref)
  | incD (lock : Bool) (o : Oref)
  | incQ (lock : Bool) (o : Oref)
  | decB (lock : Bool) (o : Oref)
  | decW (lock : Bool) (o : Oref)
  | decD (lock : Bool) (o : Oref)
  | decQ (lock : Bool) (o : Oref)
  | wadd (e : WatchEntry)
  | wrem
  | wchk
  | wdis (idx : Index)
  | wrd (idx : Index)
  deriving DecidableEq, Repr

/-- The operand bundle on the command port: every field of R88, R89 and R90 at its stated width, but for `idx`, whose width
is the parameter IDXW (log 28). A format reads its own fields and no others. -/
structure Bundle where
  kind : BitVec 1
  reg : BitVec 4
  boff : BitVec 1
  addr : Word
  prior : Word
  init : BitVec 1
  dis : BitVec 1
  idx : Index
  deriving DecidableEq, Repr

/-- What an agent presents on the command port: the command word and its operand bundle (R80). -/
structure PortWord where
  cmd : CommandWord
  ops : Bundle
  deriving DecidableEq, Repr

/-- Why a command word decodes to no command (R94). -/
inductive DecodeError where
  /-- CLASS 10 or 11. -/
  | reservedClass
  /-- CLASS 01 with RSV not 000. -/
  | reservedField
  /-- CLASS 01, RSV 000, WOP 101, 110 or 111. -/
  | reservedOperation
  deriving DecidableEq, Repr

end Sys2Proof
end

