-- ==== Sys2Proof/Config.lean ====
section
/-! DEFINITION. What an implementation fixes (R8, R9): the parameters a model may set, as plain data with the spec's
default values; the external collaborators, as constants with no body (a claim holds for every collaborator); and the free
values of 93_implementation_defined.md U1 and U10, as constants with no body. -/

namespace Sys2Proof

/-- How NEG, INC and DEC write the flags (R8 FLAGSEM, D4, U10). -/
inductive FlagSem where
  /-- The formulas of R117 to R119. -/
  | x86
  /-- Every flag is a free function of operation, width, value and old CF (log 15). -/
  | draw
  deriving DecidableEq, Repr

/-- The six arithmetic flags (R27). -/
structure FlagBits where
  cf : Bool
  pf : Bool
  af : Bool
  zf : Bool
  sf : Bool
  of : Bool
  deriving DecidableEq, Repr, Inhabited

/-- What the external decoder answers (R96): success, has a memory operand, encoded length, and the decoded term that is
only handed on to EffectiveAddress. -/
structure DecodeResult where
  ok : Bool
  hasMem : Bool
  len : Nat
  d : Nat
  deriving DecidableEq, Repr, Inhabited

/-- The OPEN parameters of R8 that a model may set, as plain data. No step changes them (log 7). -/
structure Params where
  /-- HOST_ATOMIC64. -/
  hostAtomic64 : Bool
  /-- Where HOST_ALIGNED(a, n) differs from its default `a mod n = 0`: the first entry for (a, n) is the answer. -/
  alignOverride : List ((Word × Nat) × Bool)
  /-- NREG. -/
  nreg : Nat
  /-- IDXW, the width of a watch index. -/
  idxw : Nat
  /-- WMAX; its bound 2^IDXW - 1 is taken where it is read (`Machine.watchBound`). -/
  wmax : Nat
  /-- PAGE_SIZE. -/
  pageSize : Nat
  /-- FLAGSEM. -/
  flagSem : FlagSem
  deriving DecidableEq, Repr

namespace Config

/-- NTHREAD of the reset state, a DESIGN CHOICE (log 6): the thread count of the source's own stress test (vector E3). -/
abbrev nthread : Nat := 8

/-- The default values of R8's table. -/
def defaults : Params :=
  { hostAtomic64 := true, alignOverride := [], nreg := 16, idxw := 32, wmax := 2 ^ 32 - 1, pageSize := 4096
    flagSem := .x86 }

/-- DecodeAt (R96): a function of the thread's registers, FLAGS and pc and of current memory (R69). -/
opaque decodeAt : List Word → Word → Word → Memory → DecodeResult

/-- EffectiveAddress (R97): a function of the registers, the pc value and the decoded term. -/
opaque effectiveAddress : List Word → Word → Nat → Word

/-- The value of byte `k` of a page-crossing content read, beyond the page's end (U1; log 14). -/
opaque freeByte : (draw k : Nat) → Byte

/-- Whether a page-crossing content read whose following page is unmapped faults (U1; log 14). -/
opaque freeFault : (draw : Nat) → Bool

/-- The flags of NEG, INC and DEC under FLAGSEM = DRAW, from operation, width, value and old CF (U10; log 15). -/
opaque freeFlags : AluOp → Width → Word → Bool → FlagBits

end Config

end Sys2Proof
end

