-- ==== Sys2Proof/WellFormed.lean ====
section
/-! DEFINITION. When a command is well formed as syntax (R88): the register number fits the port's 4-bit
field, and byte offset 1 stands only with width 8. Whether the register is one of the NREG registers, and a memory operand's
bytes are resolved, depends on the state and is checked there (Machine/Operands.lean). -/

namespace Sys2Proof

/-- The static half of R88's well-formedness of an OREF at a width. -/
def Oref.wf (w : Width) : Oref → Bool
  | .reg i boff => decide (i < 16) && (!boff || w == .w8)
  | .mem _ => true

/-- A well-formed command: its OREF is, at its own width. Every bundle of a watch command is well formed (R91). -/
def Instr.wf : Instr → Bool
  | .notB _ o => o.wf .w8
  | .notW _ o => o.wf .w16
  | .notD _ o => o.wf .w32
  | .notQ _ o => o.wf .w64
  | .negB _ o => o.wf .w8
  | .negW _ o => o.wf .w16
  | .negD _ o => o.wf .w32
  | .negQ _ o => o.wf .w64
  | .incB _ o => o.wf .w8
  | .incW _ o => o.wf .w16
  | .incD _ o => o.wf .w32
  | .incQ _ o => o.wf .w64
  | .decB _ o => o.wf .w8
  | .decW _ o => o.wf .w16
  | .decD _ o => o.wf .w32
  | .decQ _ o => o.wf .w64
  | .wadd _ => true
  | .wrem => true
  | .wchk => true
  | .wdis _ => true
  | .wrd _ => true

end Sys2Proof
end

