-- ==== Sys2Proof/Decode.lean ====
section
/-! DEFINITION. The decoder of the command port, total, rejecting the reserved command words by name (R81 to R94), and the
encoder written from the same rules (R93's canonical encodings). -/

namespace Sys2Proof

/-- The operation kind named by CMD[1:0] (R83). -/
def opOfCommand (c : CommandWord) : AluOp :=
  match c.getLsbD 1, c.getLsbD 0 with
  | false, false => .not
  | false, true => .neg
  | true, false => .inc
  | true, true => .dec

/-- The operand width, from the B, W and S markers in that order (R84). -/
def widthOfCommand (c : CommandWord) : Width :=
  if c.getLsbD 2 then .w8
  else if c.getLsbD 3 then .w64
  else if c.getLsbD 4 then .w16
  else .w32

/-- The OREF the bundle's fields carry (R88): kind 0 is REG, kind 1 is MEM. -/
def orefOfBundle (p : Bundle) : Oref :=
  if p.kind = 1#1 then .mem p.addr else .reg p.reg.toNat (p.boff == 1#1)

/-- The ENTRY the bundle's fields carry (R89). -/
def entryOfBundle (p : Bundle) : WatchEntry :=
  { addr := p.addr, prior := p.prior, init := p.init == 1#1, dis := p.dis == 1#1 }

/-- The command of an operation kind and width (the sixteen ALU rows of R93). -/
def aluInstr (op : AluOp) (w : Width) (lock : Bool) (o : Oref) : Instr :=
  match op, w with
  | .not, .w8 => .notB lock o
  | .not, .w16 => .notW lock o
  | .not, .w32 => .notD lock o
  | .not, .w64 => .notQ lock o
  | .neg, .w8 => .negB lock o
  | .neg, .w16 => .negW lock o
  | .neg, .w32 => .negD lock o
  | .neg, .w64 => .negQ lock o
  | .inc, .w8 => .incB lock o
  | .inc, .w16 => .incW lock o
  | .inc, .w32 => .incD lock o
  | .inc, .w64 => .incQ lock o
  | .dec, .w8 => .decB lock o
  | .dec, .w16 => .decW lock o
  | .dec, .w32 => .decD lock o
  | .dec, .w64 => .decQ lock o

/-- Operation kind, width, L bit and operand of an ALU command; none for a watch command. -/
def aluParts : Instr → Option (AluOp × Width × Bool × Oref)
  | .notB lock o => some (.not, .w8, lock, o)
  | .notW lock o => some (.not, .w16, lock, o)
  | .notD lock o => some (.not, .w32, lock, o)
  | .notQ lock o => some (.not, .w64, lock, o)
  | .negB lock o => some (.neg, .w8, lock, o)
  | .negW lock o => some (.neg, .w16, lock, o)
  | .negD lock o => some (.neg, .w32, lock, o)
  | .negQ lock o => some (.neg, .w64, lock, o)
  | .incB lock o => some (.inc, .w8, lock, o)
  | .incW lock o => some (.inc, .w16, lock, o)
  | .incD lock o => some (.inc, .w32, lock, o)
  | .incQ lock o => some (.inc, .w64, lock, o)
  | .decB lock o => some (.dec, .w8, lock, o)
  | .decW lock o => some (.dec, .w16, lock, o)
  | .decD lock o => some (.dec, .w32, lock, o)
  | .decQ lock o => some (.dec, .w64, lock, o)
  | .wadd _ => none
  | .wrem => none
  | .wchk => none
  | .wdis _ => none
  | .wrd _ => none

/-- A watch command word, its WOP and its bundle (R86, R87); CLASS is already known to be 01. -/
def decodeWatch (c : CommandWord) (p : Bundle) : Except DecodeError Instr :=
  if c.extractLsb' 3 3 = 0#3 then
    match c.getLsbD 2, c.getLsbD 1, c.getLsbD 0 with
    | false, false, false => .ok (.wadd (entryOfBundle p))
    | false, false, true => .ok .wrem
    | false, true, false => .ok .wchk
    | false, true, true => .ok (.wdis p.idx)
    | true, false, false => .ok (.wrd p.idx)
    | true, false, true => .error .reservedOperation
    | true, true, false => .error .reservedOperation
    | true, true, true => .error .reservedOperation
  else .error .reservedField

/-- The decoder of the command port (R81, R93, R94): total on every command word and bundle. -/
def decode (p : PortWord) : Except DecodeError Instr :=
  match p.cmd.getLsbD 7, p.cmd.getLsbD 6 with
  | false, false => .ok (aluInstr (opOfCommand p.cmd) (widthOfCommand p.cmd) (p.cmd.getLsbD 5) (orefOfBundle p.ops))
  | false, true => decodeWatch p.cmd p.ops
  | true, false => .error .reservedClass
  | true, true => .error .reservedClass

/-- The bundle with every field zero. -/
def zeroBundle : Bundle :=
  { kind := 0, reg := 0, boff := 0, addr := 0, prior := 0, init := 0, dis := 0, idx := 0 }

/-- One bit of a port field. -/
def bit1 (v : Bool) : BitVec 1 := if v then 1#1 else 0#1

/-- The bundle that carries an OREF (R88). -/
def bundleOfOref : Oref → Bundle
  | .reg i boff => { zeroBundle with reg := BitVec.ofNat 4 i, boff := bit1 boff }
  | .mem a => { zeroBundle with kind := 1#1, addr := a }

/-- CMD[1:0] of an operation kind (R83). -/
def opCode : AluOp → CommandWord
  | .not => 0b00
  | .neg => 0b01
  | .inc => 0b10
  | .dec => 0b11

/-- CMD[4:2], the canonical markers S, W, B of a width (R84, R93). -/
def widthCode : Width → CommandWord
  | .w8 => 0b00100
  | .w16 => 0b10000
  | .w32 => 0b00000
  | .w64 => 0b01000

/-- CMD[5], the L bit (R82). -/
def lockCode (lock : Bool) : CommandWord := if lock then 0x20 else 0x00

/-- The canonical encoding of an ALU command (R82, R93). -/
def encodeAlu (op : AluOp) (w : Width) (lock : Bool) (o : Oref) : PortWord :=
  { cmd := lockCode lock ||| widthCode w ||| opCode op, ops := bundleOfOref o }

/-- The command word and bundle of a command (R82, R86, R87, R93). -/
def encode : Instr → PortWord
  | .notB lock o => encodeAlu .not .w8 lock o
  | .notW lock o => encodeAlu .not .w16 lock o
  | .notD lock o => encodeAlu .not .w32 lock o
  | .notQ lock o => encodeAlu .not .w64 lock o
  | .negB lock o => encodeAlu .neg .w8 lock o
  | .negW lock o => encodeAlu .neg .w16 lock o
  | .negD lock o => encodeAlu .neg .w32 lock o
  | .negQ lock o => encodeAlu .neg .w64 lock o
  | .incB lock o => encodeAlu .inc .w8 lock o
  | .incW lock o => encodeAlu .inc .w16 lock o
  | .incD lock o => encodeAlu .inc .w32 lock o
  | .incQ lock o => encodeAlu .inc .w64 lock o
  | .decB lock o => encodeAlu .dec .w8 lock o
  | .decW lock o => encodeAlu .dec .w16 lock o
  | .decD lock o => encodeAlu .dec .w32 lock o
  | .decQ lock o => encodeAlu .dec .w64 lock o
  | .wadd e =>
    { cmd := 0x40, ops := { zeroBundle with addr := e.addr, prior := e.prior, init := bit1 e.init, dis := bit1 e.dis } }
  | .wrem => { cmd := 0x41, ops := zeroBundle }
  | .wchk => { cmd := 0x42, ops := zeroBundle }
  | .wdis idx => { cmd := 0x43, ops := { zeroBundle with idx := idx } }
  | .wrd idx => { cmd := 0x44, ops := { zeroBundle with idx := idx } }

/-- The port word of an opcode-table word: its low 8 bits are CMD, and the operand bundle, to which the table gives no
bits, is zero (log 19). -/
def portOfTableWord (w : Nat) : PortWord := { cmd := BitVec.ofNat 8 w, ops := zeroBundle }

/-- What the decoder reads from an opcode-table word. Every command word has exactly 8 bits (R80), whatever count the
caller gives. -/
def decodeTableWord (_nbits w : Nat) : Option Instr :=
  match decode (portOfTableWord w) with
  | .ok i => some i
  | .error _ => none

end Sys2Proof
end

