-- ==== Sys2Proof/Machine/State.lean ====
section
/-! DEFINITION. The machine's state as plain data: the threads (R20 to R28), the machine-wide state (R30, R36), the
watchpoint engine's state (R31 to R34), the commands in flight (R61 to R64, R250), the result port (R225), the parameters
(R8), and the model's own fields that say what the outside does next (log 1). Also the reasons a step can stop. -/

namespace Sys2Proof.Machine

/-- Who issues a command (R19): an emulated thread, or the one debug agent. -/
inductive Agent where
  | thread (t : Nat)
  | debug
  deriving DecidableEq, Repr

/-- The shared lock LK (R30). -/
inductive Lock where
  | free
  | held (t : Nat)
  deriving DecidableEq, Repr

/-- The status a command ends with (R225). -/
inductive Status where
  | ok | undef | watchFull | watchIndex
  deriving DecidableEq, Repr

/-- What a status carries (R221, R222). -/
inductive Info where
  | noInfo
  | reservedCmd (cmd : CommandWord)
  | malformedOperand (cmd : CommandWord)
  | index (idx : Index)
  deriving DecidableEq, Repr

/-- What WRD returns (R90). -/
structure ReadResult where
  wlen : Index
  wcap : Index
  valid : Bool
  addr : Word
  prior : Word
  init : Bool
  dis : Bool
  deriving DecidableEq, Repr

/-- The result value of a command (R80, R89, R90). -/
inductive Result where
  | noResult
  | index (idx : Index)
  | read (r : ReadResult)
  deriving DecidableEq, Repr

/-- The answer on the result port when a command ends (R80, R220, R225). -/
structure Response where
  status : Status
  info : Info
  result : Result
  deriving DecidableEq, Repr

/-- The three data paths (R112). -/
inductive Path where
  | plain | locked | cas
  deriving DecidableEq, Repr

/-- Where an ALU command stands between two of its indivisible steps (R62 to R64). `todo` are the byte numbers of the
operand not yet accessed. -/
inductive Phase where
  /-- Before Acquire(LK): step (0) of R63. -/
  | acquire
  /-- Reading the operand; `acc` holds the bytes read so far. -/
  | load (todo : List Nat) (acc : Word)
  /-- The flags are written and `r` is being stored. -/
  | store (todo : List Nat) (r : Word)
  /-- Before Release(LK): step (4) of R63. -/
  | release
  /-- Before LoadAcq: step (1) of R64. -/
  | casLoad
  /-- `e` was loaded and the flags of this attempt are written; the conditional write is next: step (3) of R64. -/
  | casTry (e : Word)
  deriving DecidableEq, Repr

/-- An ALU command in flight (R250). -/
structure Flight where
  op : AluOp
  width : Width
  oref : Oref
  path : Path
  phase : Phase
  deriving DecidableEq, Repr

/-- One emulated thread (R20, R25, R27), its command stream (log 1), its command in flight and its last answer. -/
structure Thread where
  regs : List Word
  flags : Word
  pc : Word
  queue : List PortWord
  flight : Option Flight
  resp : Option Response
  deriving DecidableEq, Repr

/-- A WCHK in flight (R58, R170; log 18): `thread` is the thread being checked, t_dbg when the WCHK began (log 25); the entries
below `left` are still to be visited; `ea` is the effective address if the address check is on; `todo` and `acc` stand for
the content read of entry `left - 1`. -/
structure CheckFlight where
  thread : Nat
  left : Nat
  ea : Option Word
  todo : List Nat
  acc : Word
  deriving DecidableEq, Repr

/-- The debug agent (R19): the thread it debugs, its command stream, its command in flight and its last answer. -/
structure DebugAgent where
  tdbg : Nat
  queue : List PortWord
  flight : Option CheckFlight
  resp : Option Response
  deriving DecidableEq, Repr

/-- A run of addresses, from `base`, `size` of them. -/
structure Range where
  base : Nat
  size : Nat
  deriving DecidableEq, Repr

/-- What the outside says of the external collaborators: the unmapped addresses (R98), the addresses the resolver does not
resolve (R88, R95), and answers pinned for the decoder at a pc and for EffectiveAddress at a pc value and decoded term
(log 8, log 9, log 10). -/
structure Collab where
  unmapped : List Range
  unresolved : List Range
  decodePins : List (Word × DecodeResult)
  addrPins : List ((Word × Nat) × Word)
  deriving DecidableEq, Repr

/-- What the outside may do between two steps (log 25). -/
inductive EnvEvent where
  | setReg (t i : Nat) (v : Word)
  | setFlags (t : Nat) (v : Word)
  | setPc (t : Nat) (v : Word)
  | storeByte (a : Word) (b : Byte)
  | setUnmapped (r : List Range)
  | setUnresolved (r : List Range)
  | pinDecode (pc : Word) (r : DecodeResult)
  | pinAddr (pc : Word) (d : Nat) (ea : Word)
  | attach (t : Nat)
  | submit (a : Agent) (p : PortWord)
  deriving DecidableEq, Repr

/-- One item of the schedule: an agent's next command as one step, one indivisible step of an agent (`pick` names the byte
it accesses where several may come next), or an event of the outside (log 1, log 12, log 13). -/
inductive Event where
  | whole (a : Agent)
  | micro (a : Agent) (pick : Nat)
  | env (e : EnvEvent)
  deriving DecidableEq, Repr

/-- The issue latch: the agent and the command word of the command being executed (R80, R221). -/
structure Latch where
  agent : Agent
  cmd : CommandWord
  deriving DecidableEq, Repr

/-- The machine's state. `params` to `debugger` are the spec's; `collab` is what the outside says; `port`, `schedule` and
`draws` are the model's own (log 1, log 14). -/
structure State where
  params : Params
  threads : List Thread
  mem : Memory
  lk : Lock
  wlen : Index
  wcap : Index
  we : List WatchEntry
  debugger : DebugAgent
  collab : Collab
  port : Latch
  schedule : List Event
  draws : Nat
  deriving DecidableEq, Repr

/-- Why a step can stop with a fault. Both are the spec's own (R251, U1). -/
inductive Fault where
  /-- An ALU load or a WCHK content read reached a memory byte that has no value (R251, U6). Raised by `loadByte`; safe. -/
  | memoryNoValue (addr : Word)
  /-- A content read that crosses a page end whose following page is unmapped, where the free choice says it faults
  (R58, U1). Raised by `contentByte`; safe. -/
  | contentReadCrossing (addr : Word)
  deriving DecidableEq, Repr

/-- Why a step can be refused: inputs to which the spec gives no meaning (log 17). -/
inductive Refusal where
  /-- No meaning yet, by the row's mnemonic. Raised by `exec` only; safe. -/
  | notModelled (mnemonic : String)
  /-- An ALU command from the debug agent (R231, U17). Raised by every ALU meaning; safe. -/
  | aluFromDebugAgent
  /-- A watch command from a thread (R231, U17). Raised by every watch meaning; safe. -/
  | watchFromThread
  /-- A thread number outside 0..NTHREAD-1 (R19): the issuing thread of an ALU command, or t_dbg in a WCHK that decodes.
  Raised by the ALU meanings and WCHK; safe. -/
  | noSuchThread (t : Nat)
  /-- A command issued by an agent whose previous command has not ended (R61). Raised by every meaning, reached by no step;
  safe. -/
  | agentBusy
  deriving DecidableEq, Repr

/-- A thread before any launch input: registers, FLAGS and pc zero (log 2, 3, 4), nothing in flight (R250). -/
def resetThread : Thread :=
  { regs := List.replicate Config.defaults.nreg 0, flags := 0, pc := 0, queue := [], flight := none, resp := none }

/-- The machine right after reset (R250): LK FREE, WLEN 0, WCAP 0, no command in flight, memory with nothing listed. What
the spec leaves to the launch holds the values of log 2 to 10 and 20 to 22. -/
def State.reset : State :=
  { params := Config.defaults
    threads := List.replicate Config.nthread resetThread
    mem := []
    lk := .free
    wlen := 0
    wcap := 0
    we := []
    debugger := { tdbg := 0, queue := [], flight := none, resp := none }
    collab := { unmapped := [], unresolved := [], decodePins := [], addrPins := [] }
    port := { agent := .thread 0, cmd := 0 }
    schedule := []
    draws := 0 }

end Sys2Proof.Machine
end

