-- ==== Sys2Proof/Machine/Ops.lean ====
section
/-! DEFINITION. The named operations over memory, threads, the lock and the result port. Ending a command with a status,
the block's only form of exception (R220, R228), is the shared operation `raise`; there is no return from it (R229). -/

namespace Sys2Proof.Machine

/-! Memory (R12, R36) -/

/-- The canonical form of memory: addresses strictly rising and below 2^64. An unlisted byte has no value, so every listed
byte differs from it (log 5). -/
abbrev memoryWf (m : Memory) : Prop :=
  m.Pairwise (fun x y => x.1 < y.1) ∧ ∀ c ∈ m, c.1 < 2 ^ 64

/-- The byte at an address, none where it has no value (R251). -/
def memRead : Memory → Nat → Option Byte
  | [], _ => none
  | (k, b) :: rest, a => if a = k then some b else memRead rest a

/-- Gives the byte at an address a value, keeping the canonical form. -/
def memWrite : Memory → Nat → Byte → Memory
  | [], a, b => [(a, b)]
  | (k, c) :: rest, a, b =>
    if a < k then (a, b) :: (k, c) :: rest
    else if a = k then (a, b) :: rest
    else (k, c) :: memWrite rest a b

/-- The address of byte `k` of a value at `a`, modulo 2^64 (R12). -/
def byteAddr (a : Word) (k : Nat) : Word := a + BitVec.ofNat 64 k

/-- Byte `k` of a value, byte 0 the least significant (R12, R22, R50). -/
def byteOf (v : Word) (k : Nat) : Byte := v.extractLsb' (8 * k) 8

/-- Byte `k` placed in an otherwise zero value (R12, R50). -/
def placeByte (b : Byte) (k : Nat) : Word := b.setWidth 64 <<< (8 * k)

/-- One byte of memory, a fault where it has no value (R251). -/
def loadByte (m : Memory) (a : Word) : Except Fault Byte :=
  match memRead m a.toNat with
  | some b => .ok b
  | none => .error (.memoryNoValue a)

/-- MemRead(a, n) (R12). -/
def loadWord (m : Memory) (a : Word) : Nat → Except Fault Word
  | 0 => .ok 0
  | n + 1 =>
    match loadWord m a n with
    | .error f => .error f
    | .ok v =>
      match loadByte m (byteAddr a n) with
      | .error f => .error f
      | .ok b => .ok (v ||| placeByte b n)

/-- MemWrite(a, n, v) (R12). -/
def storeWord (m : Memory) (a v : Word) : Nat → Memory
  | 0 => m
  | n + 1 => memWrite (storeWord m a v n) (byteAddr a n).toNat (byteOf v n)

/-! The memory map and the resolver (R36, R59, R60, R88, R98) -/

/-- Whether an address lies in one of the ranges. -/
def inRanges (rs : List Range) (a : Word) : Bool :=
  rs.any fun r => decide (r.base ≤ a.toNat ∧ a.toNat < r.base + r.size)

/-- Mapped(a) (R98). -/
def mapped (s : State) (a : Word) : Bool := !inRanges s.collab.unmapped a

/-- Whether the resolver resolves the byte at an address for an ALU operand (R88); an unmapped byte is not (R60; log 10). -/
def resolved (s : State) (a : Word) : Bool := mapped s a && !inRanges s.collab.unresolved a

/-! Files of registers and entries -/

/-- A list with place `i` set to `x`, the places the list did not reach filled with `d`. -/
def putAt {α : Type} (l : List α) (i : Nat) (x d : α) : List α := (l ++ List.replicate (i + 1 - l.length) d).set i x

/-! Threads and the debug agent -/

/-- Applies a change to thread `t`. -/
def updThread (t : Nat) (f : Thread → Thread) (s : State) : State :=
  { s with threads := s.threads.modify t f }

/-- The numeric status codes (R225). -/
def statusCode : Status → Nat
  | .ok => 0
  | .undef => 1
  | .watchFull => 2
  | .watchIndex => 3

/-- The numeric info codes of UNDEF (R225); other statuses have none. -/
def undefInfoCode : Info → Option Nat
  | .reservedCmd _ => some 1
  | .malformedOperand _ => some 2
  | .noInfo => none
  | .index _ => none

/-- The answer of a command that completes (R225). -/
def okWith (r : Result) : Response := { status := .ok, info := .noInfo, result := r }

/-- The answer of a command that ends with a status other than OK (R220). -/
def failWith (st : Status) (i : Info) : Response := { status := st, info := i, result := .noResult }

/-- Ends an agent's command: nothing is in flight any more and the answer stands on its result port (R80, R220). -/
def finish (a : Agent) (r : Response) (s : State) : State :=
  match a with
  | .thread t => updThread t (fun th => { th with flight := none, resp := some r }) s
  | .debug => { s with debugger := { s.debugger with flight := none, resp := some r } }

/-- Ends the command with a status other than OK: nothing else changes, no mode or mask exists, no control is transferred,
and the issuing agent goes on (R14, R220, R228). -/
def raise (a : Agent) (st : Status) (i : Info) (s : State) : State := finish a (failWith st i) s

/-! The lock (R13, R30) -/

/-- Acquire(LK) where it is FREE. -/
def acquire (t : Nat) (s : State) : State := { s with lk := .held t }

/-- Release(LK). -/
def release (s : State) : State := { s with lk := .free }

end Sys2Proof.Machine
end

