-- ==== Sys2Proof/Machine/Flags.lean ====
section
/-! DEFINITION. The operation functions F (R116 to R119) at any width, and the flag register: its six bits (R27) and every
flag formula (R117 to R119, U10). -/

namespace Sys2Proof.Machine

/-- Bytes of a width (R55). -/
def widthBytes : Width → Nat
  | .w8 => 1
  | .w16 => 2
  | .w32 => 4
  | .w64 => 8

/-- Bits of a width (R84). -/
def widthBits (w : Width) : Nat := 8 * widthBytes w

/-- F(op, n, v) on n-bit values, modulo 2^n (R116 to R119, R136). -/
def aluFn {n : Nat} (op : AluOp) (v : BitVec n) : BitVec n :=
  match op with
  | .not => ~~~v
  | .neg => -v
  | .inc => v + 1#n
  | .dec => v - 1#n

/-- F(op, w, v) with the value in the low bits of a word and zeros above. -/
def aluResult (op : AluOp) (w : Width) (v : Word) : Word :=
  (aluFn op (v.setWidth (widthBits w))).setWidth 64

/-- The bit positions of the six flags (R27). -/
def cfBit : Nat := 0
def pfBit : Nat := 2
def afBit : Nat := 4
def zfBit : Nat := 6
def sfBit : Nat := 7
def ofBit : Nat := 11

/-- One bit of the flag register. -/
def flagOf (fl : Word) (i : Nat) : Bool := fl.getLsbD i

/-- Writes one bit of the flag register and no other. -/
def setFlag (fl : Word) (i : Nat) (v : Bool) : Word :=
  (fl &&& ~~~(1#64 <<< i)) ||| ((if v then 1#64 else 0#64) <<< i)

/-- Writes the six arithmetic flags and no other bit (R27). -/
def writeFlags (fl : Word) (f : FlagBits) : Word :=
  setFlag (setFlag (setFlag (setFlag (setFlag (setFlag fl cfBit f.cf) pfBit f.pf) afBit f.af) zfBit f.zf) sfBit f.sf) ofBit f.of

/-- PF: the low byte has an even number of one bits (R117). -/
def evenParity {n : Nat} (r : BitVec n) : Bool :=
  !((List.range 8).foldl (fun acc i => acc ^^ r.getLsbD i) false)

/-- MIN_n, the most negative pattern (R10). -/
def minPattern (n : Nat) : BitVec n := BitVec.ofNat n (2 ^ (n - 1))

/-- MAX_n, the most positive pattern (R10). -/
def maxPattern (n : Nat) : BitVec n := BitVec.ofNat n (2 ^ (n - 1) - 1)

/-- CF after the operation (R117; INC and DEC keep it, R118, R119). -/
def carryAfter {n : Nat} (op : AluOp) (v : BitVec n) (old : Bool) : Bool :=
  match op with
  | .not => old
  | .neg => decide (v ≠ 0)
  | .inc => old
  | .dec => old

/-- AF after the operation (R117 to R119). -/
def auxAfter {n : Nat} (op : AluOp) (v : BitVec n) : Bool :=
  match op with
  | .not => false
  | .neg => decide (v.setWidth 4 ≠ 0#4)
  | .inc => decide (v.setWidth 4 = 0xF#4)
  | .dec => decide (v.setWidth 4 = 0#4)

/-- OF after the operation (R117 to R119). -/
def overflowAfter {n : Nat} (op : AluOp) (v : BitVec n) : Bool :=
  match op with
  | .not => false
  | .neg => decide (v = minPattern n)
  | .inc => decide (v = maxPattern n)
  | .dec => decide (v = minPattern n)

/-- The six flags by the formulas of R117 to R119, from the operand value and the old CF. -/
def x86Flags {n : Nat} (op : AluOp) (v : BitVec n) (oldCf : Bool) : FlagBits :=
  { cf := carryAfter op v oldCf
    pf := evenParity (aluFn op v)
    af := auxAfter op v
    zf := decide (aluFn op v = 0)
    sf := (aluFn op v).msb
    of := overflowAfter op v }

/-- FLAGS after the operation: NOT writes none (R116); NEG, INC and DEC write the six by FLAGSEM (R28, U10). -/
def flagsAfter (sem : FlagSem) (op : AluOp) (w : Width) (v fl : Word) : Word :=
  match op, sem with
  | .not, _ => fl
  | op, .x86 => writeFlags fl (x86Flags op (v.setWidth (widthBits w)) (flagOf fl cfBit))
  | op, .draw => writeFlags fl (Config.freeFlags op w (v.setWidth (widthBits w) |>.setWidth 64) (flagOf fl cfBit))

end Sys2Proof.Machine
end

