-- ==== Sys2Proof/Machine/Operands.lean ====
section
/-! DEFINITION. The one operand form, the OREF (R88, R141): when it is well formed, how it is read and written back (R22,
R111, R115), when it counts as aligned (R53), which accesses to it are indivisible (R56), and which path it takes (R112). -/

namespace Sys2Proof.Machine

/-- Byte offset within the register (R88). -/
def regOffset (boff : Bool) : Nat := if boff then 1 else 0

/-- A register read through an OREF: register `i`, zero where there is none. -/
def readReg (th : Thread) (i : Nat) : Word := th.regs.getD i 0

/-- A register write through an OREF. -/
def writeReg (i : Nat) (v : Word) (th : Thread) : Thread := { th with regs := putAt th.regs i v 0 }

/-- The `n` bytes of a register value from byte `off` on, as an unsigned number (R22). -/
def extractBytes (x : Word) (off n : Nat) : Word := (x >>> (8 * off)) &&& (BitVec.allOnes 64 >>> (64 - 8 * n))

/-- A register value with `n` bytes from byte `off` on replaced by the low bytes of `r` (R22). -/
def insertBytes (x : Word) (off n : Nat) (r : Word) : Word :=
  let mask : Word := (BitVec.allOnes 64 >>> (64 - 8 * n)) <<< (8 * off)
  (x &&& ~~~mask) ||| ((r <<< (8 * off)) &&& mask)

/-- A register value after a width-`w` write at offset `off`: the bytes written, and for width 32 bytes 4..7 set to zero
(R115). -/
def regAfterWrite (w : Width) (x : Word) (off : Nat) (r : Word) : Word :=
  match w with
  | .w32 => extractBytes (insertBytes x off 4 r) 0 4
  | .w8 => insertBytes x off 1 r
  | .w16 => insertBytes x off 2 r
  | .w64 => insertBytes x off 8 r

/-- The OREF is well formed at width `w` in this state (R88): the register is one of NREG and byte offset 1 stands only with
width 8, or every memory byte is resolved. -/
def orefOk (s : State) (w : Width) (o : Oref) : Bool :=
  match o with
  | .reg i boff => decide (i < s.params.nreg) && (!boff || w == .w8)
  | .mem a => (List.range (widthBytes w)).all fun k => resolved s (byteAddr a k)

/-- HOST_ALIGNED(a, n) (R8, R53, D10): the overriding entry if there is one, else `a mod n = 0`. -/
def hostAligned (p : Params) (a : Word) (n : Nat) : Bool :=
  match p.alignOverride.find? (fun e => e.1 == (a, n)) with
  | some e => e.2
  | none => a.toNat % n == 0

/-- al(n) (R112): a register operand counts as aligned (R53). -/
def aligned (p : Params) (o : Oref) (n : Nat) : Bool :=
  match o with
  | .reg _ _ => true
  | .mem a => hostAligned p a n

/-- Path selection (R112). -/
def pathOf (p : Params) (w : Width) (lock : Bool) (o : Oref) : Path :=
  match w with
  | .w8 => if lock then .locked else .plain
  | .w16 => if lock then .locked else .plain
  | .w32 => if lock && aligned p o 4 then .cas else .plain
  | .w64 => if lock then (if aligned p o 8 && p.hostAtomic64 then .cas else .locked) else .plain

/-- Whether a plain access to the operand is one indivisible access (R56): a register (of one thread only), one byte, or
four bytes at a host-aligned address. -/
def oneAccess (p : Params) (w : Width) (o : Oref) : Bool :=
  match o with
  | .reg _ _ => true
  | .mem a => w == .w8 || (w == .w32 && hostAligned p a 4)

/-- Load(OREF, n) (R111): the operand's value in the low bits, zeros above. -/
def loadOperand (s : State) (th : Thread) (w : Width) (o : Oref) : Except Fault Word :=
  match o with
  | .reg i boff => .ok (extractBytes (readReg th i) (regOffset boff) (widthBytes w))
  | .mem a => loadWord s.mem a (widthBytes w)

/-- Store(OREF, n, r) with the zero fill of a 32-bit register write (R111, R115). -/
def storeOperand (t : Nat) (w : Width) (o : Oref) (r : Word) (s : State) : State :=
  match o with
  | .reg i boff => updThread t (fun th => writeReg i (regAfterWrite w (readReg th i) (regOffset boff) r) th) s
  | .mem a => { s with mem := storeWord s.mem a r (widthBytes w) }

/-- Thread `t` writes its FLAGS for an evaluation of F on `v` (R116 to R119). -/
def putFlags (t : Nat) (op : AluOp) (w : Width) (v : Word) (s : State) : State :=
  updThread t (fun th => { th with flags := flagsAfter s.params.flagSem op w v th.flags }) s

end Sys2Proof.Machine
end

