-- ==== Sys2Proof/Machine/Alu.lean ====
section
/-! DEFINITION. The sixteen ALU commands (R120 to R135) over the shared execution of R111. Here a command runs whole, no
other agent's step in between (R65's interleaving oracle; log 13); Machine/Micro.lean takes the same command step by step. -/

namespace Sys2Proof.Machine

/-- Load, transform, write flags, store, end with OK (R111). Alone, the first attempt of the CAS path succeeds, so this is
also that path's whole run (R64, R114). -/
def transformOperand (t : Nat) (th : Thread) (op : AluOp) (w : Width) (o : Oref) (s : State) :
    Host.Outcome State Fault Refusal :=
  match loadOperand s th w o with
  | .error f => .fault f
  | .ok v =>
    .next (finish (.thread t) (okWith .noResult) (storeOperand t w o (aluResult op w v) (putFlags t op w v s)))

/-- The command begins and waits at its first step: it is in flight (R61, R113, R250). -/
def putFlight (t : Nat) (f : Flight) (s : State) : State :=
  updThread t (fun th => { th with flight := some f }) s

/-- Byte numbers of an operand, all still to be accessed. -/
def allBytes (w : Width) : List Nat := List.range (widthBytes w)

/-- The first phase of a command on a path (R62 to R64). -/
def firstPhase (w : Width) : Path → Phase
  | .plain => .load (allBytes w) 0
  | .locked => .acquire
  | .cas => .casLoad

/-- The LOCKED path as one step (R63, R113): with LK FREE, acquire, transform, release; with LK HELD the command waits at
Acquire. -/
def lockedTransform (t : Nat) (th : Thread) (op : AluOp) (w : Width) (o : Oref) (s : State) :
    Host.Outcome State Fault Refusal :=
  match s.lk with
  | .held _ => .next (putFlight t { op := op, width := w, oref := o, path := .locked, phase := .acquire } s)
  | .free =>
    match transformOperand t th op w o (acquire t s) with
    | .next s' => .next (release s')
    | .fault f => .fault f
    | .refused r => .refused r

/-- ExecuteUnaryAlu (R111) for a thread that is idle: a malformed OREF ends it with UNDEF before anything is read
(R221, R227); otherwise the path of R112 runs. -/
def executeUnaryAlu (t : Nat) (th : Thread) (op : AluOp) (w : Width) (lock : Bool) (o : Oref) (s : State) :
    Host.Outcome State Fault Refusal :=
  if orefOk s w o then
    match pathOf s.params w lock o with
    | .plain => transformOperand t th op w o s
    | .cas => transformOperand t th op w o s
    | .locked => lockedTransform t th op w o s
  else .next (raise (.thread t) .undef (.malformedOperand s.port.cmd) s)

/-- Only an emulated thread that is idle issues an ALU command (R19, R61, R231). -/
def asThread (s : State) (k : Nat → Thread → Host.Outcome State Fault Refusal) : Host.Outcome State Fault Refusal :=
  match s.port.agent with
  | .debug => .refused .aluFromDebugAgent
  | .thread t =>
    match s.threads[t]? with
    | none => .refused (.noSuchThread t)
    | some th =>
      match th.flight with
      | some _ => .refused .agentBusy
      | none => k t th

/-- An ALU command run whole by the issuing thread (R110, R111). -/
def runAlu (op : AluOp) (w : Width) (lock : Bool) (o : Oref) (s : State) : Host.Outcome State Fault Refusal :=
  asThread s fun t th => executeUnaryAlu t th op w lock o s

/-- NOT.B (R120). -/
def execNotB (lock : Bool) (o : Oref) (s : State) : Host.Outcome State Fault Refusal := runAlu .not .w8 lock o s
/-- NOT.W (R121). -/
def execNotW (lock : Bool) (o : Oref) (s : State) : Host.Outcome State Fault Refusal := runAlu .not .w16 lock o s
/-- NOT.D (R122). -/
def execNotD (lock : Bool) (o : Oref) (s : State) : Host.Outcome State Fault Refusal := runAlu .not .w32 lock o s
/-- NOT.Q (R123). -/
def execNotQ (lock : Bool) (o : Oref) (s : State) : Host.Outcome State Fault Refusal := runAlu .not .w64 lock o s
/-- NEG.B (R124). -/
def execNegB (lock : Bool) (o : Oref) (s : State) : Host.Outcome State Fault Refusal := runAlu .neg .w8 lock o s
/-- NEG.W (R125). -/
def execNegW (lock : Bool) (o : Oref) (s : State) : Host.Outcome State Fault Refusal := runAlu .neg .w16 lock o s
/-- NEG.D (R126). -/
def execNegD (lock : Bool) (o : Oref) (s : State) : Host.Outcome State Fault Refusal := runAlu .neg .w32 lock o s
/-- NEG.Q (R127). -/
def execNegQ (lock : Bool) (o : Oref) (s : State) : Host.Outcome State Fault Refusal := runAlu .neg .w64 lock o s
/-- INC.B (R128). -/
def execIncB (lock : Bool) (o : Oref) (s : State) : Host.Outcome State Fault Refusal := runAlu .inc .w8 lock o s
/-- INC.W (R129). -/
def execIncW (lock : Bool) (o : Oref) (s : State) : Host.Outcome State Fault Refusal := runAlu .inc .w16 lock o s
/-- INC.D (R130). -/
def execIncD (lock : Bool) (o : Oref) (s : State) : Host.Outcome State Fault Refusal := runAlu .inc .w32 lock o s
/-- INC.Q (R131). -/
def execIncQ (lock : Bool) (o : Oref) (s : State) : Host.Outcome State Fault Refusal := runAlu .inc .w64 lock o s
/-- DEC.B (R132). -/
def execDecB (lock : Bool) (o : Oref) (s : State) : Host.Outcome State Fault Refusal := runAlu .dec .w8 lock o s
/-- DEC.W (R133). -/
def execDecW (lock : Bool) (o : Oref) (s : State) : Host.Outcome State Fault Refusal := runAlu .dec .w16 lock o s
/-- DEC.D (R134). -/
def execDecD (lock : Bool) (o : Oref) (s : State) : Host.Outcome State Fault Refusal := runAlu .dec .w32 lock o s
/-- DEC.Q (R135). -/
def execDecQ (lock : Bool) (o : Oref) (s : State) : Host.Outcome State Fault Refusal := runAlu .dec .w64 lock o s

end Sys2Proof.Machine
end

