-- ==== Sys2Proof/Machine/Watch.lean ====
section
/-! DEFINITION. The watchpoint engine: the five watch commands (R170 to R190) and the operations they share with a WCHK taken
step by step (Machine/Micro.lean). -/

namespace Sys2Proof.Machine

/-! The entry array (R31 to R34) -/

/-- The entry of a slot nothing has written: never read by a command (R34; log 21). -/
def zeroEntry : WatchEntry := { addr := 0, prior := 0, init := false, dis := false }

/-- WE[i]. -/
def entryAt (s : State) (i : Nat) : WatchEntry := s.we.getD i zeroEntry

/-- Writes WE[i] and no other entry. -/
def putEntry (i : Nat) (e : WatchEntry) (s : State) : State :=
  { s with we := putAt s.we i e zeroEntry }

/-- WMAX, never above 2^IDXW - 1 (R8, D18). -/
def watchBound (p : Params) : Nat := min p.wmax (2 ^ p.idxw - 1)

/-- The lowest-index disabled live entry (R172, R174). -/
def firstDisabled (s : State) : Option Nat := (List.range s.wlen).find? fun i => (entryAt s i).dis

/-- The capacity after growth: `min(WLEN + max(1, WLEN/2), WMAX)` (R173). -/
def grownCapacity (wlen wmax : Nat) : Nat := min (wlen + max 1 (wlen / 2)) wmax

/-- Stores the entry at WLEN and advances WLEN (R172). -/
def appendEntry (e : WatchEntry) (s : State) : State :=
  { putEntry s.wlen e s with wlen := s.wlen + 1 }

/-- Only the debug agent, when idle, issues a watch command (R61, R170, R231). -/
def asDebug (s : State) (k : Host.Outcome State Fault Refusal) : Host.Outcome State Fault Refusal :=
  match s.port.agent with
  | .thread _ => .refused .watchFromThread
  | .debug =>
    match s.debugger.flight with
    | some _ => .refused .agentBusy
    | none => k

/-- A WADD that stores at slot `i` ends with that index (R89, R172). -/
def addedAt (i : Nat) (s : State) : State := finish .debug (okWith (.index i)) s

/-- The effect of WADD (R172, R173, R174). -/
def addEntry (e : WatchEntry) (s : State) : State :=
  match firstDisabled s with
  | some i => addedAt i (putEntry i e s)
  | none =>
    if s.wlen = s.wcap then
      if s.wlen = watchBound s.params then raise .debug .watchFull .noInfo s
      else addedAt s.wlen (appendEntry e { s with wcap := grownCapacity s.wlen (watchBound s.params) })
    else addedAt s.wlen (appendEntry e s)

/-- WADD (R172). -/
def execWadd (e : WatchEntry) (s : State) : Host.Outcome State Fault Refusal := asDebug s (.next (addEntry e s))

/-- The effect of WREM: WLEN goes down by one if it is not zero; WCAP and the entries stay (R176). -/
def removeLast (s : State) : State :=
  if s.wlen = 0 then finish .debug (okWith .noResult) s
  else finish .debug (okWith .noResult) { s with wlen := s.wlen - 1 }

/-- WREM (R176). -/
def execWrem (s : State) : Host.Outcome State Fault Refusal := asDebug s (.next (removeLast s))

/-! WCHK (R180 to R187) -/

/-- NOT_FOUND, 2^IDXW - 1 (R8). -/
def notFound (p : Params) : Index := 2 ^ p.idxw - 1

/-- DecodeAt at a thread's pc (R96, R182): the pinned answer for that pc if there is one, else the
collaborator's (log 8). DESIGN CHOICE (log 8): instruction bytes that have no value are no fault here; the decoder is handed
memory as it is, those bytes not listed. -/
def decodeNext (s : State) (th : Thread) : DecodeResult :=
  match s.collab.decodePins.find? (fun e => e.1 == th.pc) with
  | some e => e.2
  | none => Config.decodeAt th.regs th.flags th.pc s.mem

/-- EffectiveAddress with the registers, a pc value and a decoded term (R97): pinned or the collaborator's (log 8). -/
def effectiveAddress (s : State) (regs : List Word) (pc : Word) (d : Nat) : Word :=
  match s.collab.addrPins.find? (fun e => e.1 == (pc, d)) with
  | some e => e.2
  | none => Config.effectiveAddress regs pc d

/-- The effective address the address check compares, with pc reading `pc + len` (R182), or none where the decode fails or
the instruction has no memory operand. It is computed on values, so pc itself is never moved (R182, R224). -/
def checkAddress (s : State) (th : Thread) : Option Word :=
  let r := decodeNext s th
  if r.ok && r.hasMem then some (effectiveAddress s th.regs (th.pc + BitVec.ofNat 64 r.len) r.d) else none

/-- Whether byte `k` of a content read at `a` lies beyond the end of the page of `a` (R58). -/
def beyondPage (p : Params) (a : Word) (k : Nat) : Bool := decide (p.pageSize ≤ a.toNat % p.pageSize + k)

/-- Byte `k` of the content read at `a`: the memory byte within the page of `a`; beyond it a free value, or, where that
address is unmapped, the fault the free choice allows (R58, R183, U1; log 14). -/
def contentByte (s : State) (a : Word) (k : Nat) : Except Fault Byte :=
  if beyondPage s.params a k then
    if !mapped s (byteAddr a k) && Config.freeFault s.draws then .error (.contentReadCrossing (byteAddr a k))
    else .ok (Config.freeByte s.draws k)
  else loadByte s.mem (byteAddr a k)

/-- The first `n` bytes of the content read at `a` (R183). -/
def contentWord (s : State) (a : Word) : Nat → Except Fault Word
  | 0 => .ok 0
  | n + 1 =>
    match contentWord s a n with
    | .error f => .error f
    | .ok v =>
      match contentByte s a n with
      | .error f => .error f
      | .ok b => .ok (v ||| placeByte b n)

/-- A content read that crossed its page used up one draw (log 14). -/
def afterContentRead (a : Word) (s : State) : State :=
  if beyondPage s.params a 7 then { s with draws := s.draws + 1 } else s

/-- What a WCHK does with the word `v` read for entry `i` (R183): seed, or report a change, or nothing. The Bool says that
the entry triggers. -/
def noteContent (i : Nat) (v : Word) (s : State) : State × Bool :=
  let e := entryAt s i
  if e.init then
    if v = e.prior then (s, false) else (putEntry i { e with prior := v } s, true)
  else (putEntry i { e with prior := v, init := true } s, false)

/-- Step 3 of R180 over the entries below `n`, highest first: the state after, and the index that triggers if one does. -/
def checkEntries (ea : Option Word) : Nat → State → Except Fault (State × Option Nat)
  | 0, s => .ok (s, none)
  | i + 1, s =>
    let e := entryAt s i
    if e.dis then checkEntries ea i s
    else if ea = some e.addr then .ok (s, some i)
    else if mapped s e.addr then
      match contentWord s e.addr 8 with
      | .error f => .error f
      | .ok v =>
        match noteContent i v (afterContentRead e.addr s) with
        | (s', true) => .ok (s', some i)
        | (s', false) => checkEntries ea i s'
    else checkEntries ea i s

/-- The result value of a WCHK (R180). -/
def checkResult (p : Params) : Option Nat → Index
  | some i => i
  | none => notFound p

/-- The WCHK ends with its result (R180, R223). -/
def endCheck (r : Option Nat) (s : State) : State := finish .debug (okWith (.index (checkResult s.params r))) s

/-- WCHK's start (R180 steps 1 and 2): the fast path at WLEN = 0 (R181), else the decode at the debugged thread's pc. -/
def startCheck (s : State) (k : Option Word → Host.Outcome State Fault Refusal) : Host.Outcome State Fault Refusal :=
  if s.wlen = 0 then .next (endCheck none s)
  else
    match s.threads[s.debugger.tdbg]? with
    | none => .refused (.noSuchThread s.debugger.tdbg)
    | some th => k (checkAddress s th)

/-- WCHK (R180). -/
def execWchk (s : State) : Host.Outcome State Fault Refusal :=
  asDebug s <| startCheck s fun ea =>
    match checkEntries ea s.wlen s with
    | .error f => .fault f
    | .ok (s', r) => .next (endCheck r s')

/-! WDIS and WRD -/

/-- The effect of WDIS (R188): WATCH_INDEX where the index is not live, else one `dis` bit. -/
def disableEntry (idx : Index) (s : State) : State :=
  if s.wlen ≤ idx then raise .debug .watchIndex (.index idx) s
  else finish .debug (okWith .noResult) (putEntry idx { entryAt s idx with dis := true } s)

/-- WDIS (R188). -/
def execWdis (idx : Index) (s : State) : Host.Outcome State Fault Refusal := asDebug s (.next (disableEntry idx s))

/-- What WRD returns (R190): the counters, and the entry's fields if it is live, else zeros. -/
def readEntry (idx : Index) (s : State) : ReadResult :=
  if idx < s.wlen then
    let e := entryAt s idx
    { wlen := s.wlen, wcap := s.wcap, valid := true, addr := e.addr, prior := e.prior, init := e.init, dis := e.dis }
  else { wlen := s.wlen, wcap := s.wcap, valid := false, addr := 0, prior := 0, init := false, dis := false }

/-- WRD (R190). -/
def execWrd (idx : Index) (s : State) : Host.Outcome State Fault Refusal :=
  asDebug s (.next (finish .debug (okWith (.read (readEntry idx s))) s))

end Sys2Proof.Machine
end

