-- ==== Sys2Proof/Machine/Dispatch.lean ====
section
/-! DEFINITION. The dispatch: one arm per command of spec/opcode_table.json. -/

namespace Sys2Proof.Machine

def exec (i : Instr) (s : State) : Host.Outcome State Fault Refusal :=
  match i with
  | .notB lock o => Sys2Proof.Machine.execNotB lock o s
  | .notW lock o => Sys2Proof.Machine.execNotW lock o s
  | .notD lock o => Sys2Proof.Machine.execNotD lock o s
  | .notQ lock o => Sys2Proof.Machine.execNotQ lock o s
  | .negB lock o => Sys2Proof.Machine.execNegB lock o s
  | .negW lock o => Sys2Proof.Machine.execNegW lock o s
  | .negD lock o => Sys2Proof.Machine.execNegD lock o s
  | .negQ lock o => Sys2Proof.Machine.execNegQ lock o s
  | .incB lock o => Sys2Proof.Machine.execIncB lock o s
  | .incW lock o => Sys2Proof.Machine.execIncW lock o s
  | .incD lock o => Sys2Proof.Machine.execIncD lock o s
  | .incQ lock o => Sys2Proof.Machine.execIncQ lock o s
  | .decB lock o => Sys2Proof.Machine.execDecB lock o s
  | .decW lock o => Sys2Proof.Machine.execDecW lock o s
  | .decD lock o => Sys2Proof.Machine.execDecD lock o s
  | .decQ lock o => Sys2Proof.Machine.execDecQ lock o s
  | .wadd e => Sys2Proof.Machine.execWadd e s
  | .wrem => Sys2Proof.Machine.execWrem s
  | .wchk => Sys2Proof.Machine.execWchk s
  | .wdis idx => Sys2Proof.Machine.execWdis idx s
  | .wrd idx => Sys2Proof.Machine.execWrd idx s

end Sys2Proof.Machine
end

