-- ==== Sys2Proof/Machine/Micro.lean ====
section
/-! DEFINITION. A command taken step by step: the indivisible steps between which other agents may act, of the PLAIN, LOCKED
and CAS paths (R61 to R64) and of WCHK's content reads (R58, R170; log 18). The meanings of Machine/Alu.lean and
Machine/Watch.lean are these steps run to the end with nothing in between (log 13). -/

namespace Sys2Proof.Machine

/-- The byte accessed next: the one picked if it is still to be accessed, else the first (R56; log 12). -/
def nextByte (pick : Nat) : List Nat → Option Nat
  | [] => none
  | k :: rest => if pick ∈ rest then some pick else some k

/-- The flight goes on in a new phase. -/
def goPhase (t : Nat) (f : Flight) (p : Phase) (s : State) : State := putFlight t { f with phase := p } s

/-- Step (2) of R62: the operand's value is known, F is evaluated, the flags are written, the store is next. -/
def transformed (t : Nat) (f : Flight) (v : Word) (s : State) : State :=
  goPhase t f (.store (allBytes f.width) (aluResult f.op f.width v)) (putFlags t f.op f.width v s)

/-- After the last byte of the store: a LOCKED command has Release(LK) to do, another ends (R62, R63). -/
def stored (t : Nat) (f : Flight) (s : State) : State :=
  match f.path with
  | .locked => goPhase t f .release s
  | .plain => finish (.thread t) (okWith .noResult) s
  | .cas => finish (.thread t) (okWith .noResult) s

/-- Step (0) of R63: Acquire(LK) where it is FREE, else the thread waits. -/
def acquireStep (t : Nat) (f : Flight) (s : State) : State :=
  match s.lk with
  | .held _ => s
  | .free => goPhase t f (.load (allBytes f.width) 0) (acquire t s)

/-- A step of the operand's read: the whole operand where that is one access, else one byte (R56, R62 (1)). -/
def loadStep (t : Nat) (th : Thread) (f : Flight) (todo : List Nat) (acc : Word) (pick : Nat) (s : State) :
    Host.Outcome State Fault Refusal :=
  if oneAccess s.params f.width f.oref then
    match loadOperand s th f.width f.oref with
    | .error e => .fault e
    | .ok v => .next (transformed t f v s)
  else
    match f.oref, nextByte pick todo with
    | .mem a, some k =>
      match loadByte s.mem (byteAddr a k) with
      | .error e => .fault e
      | .ok b =>
        let acc' := acc ||| placeByte b k
        match todo.erase k with
        | [] => .next (transformed t f acc' s)
        | rest => .next (goPhase t f (.load rest acc') s)
    | _, _ => .next (transformed t f acc s)

/-- A step of the operand's write: the whole operand where that is one access, else one byte (R56, R62 (3)). -/
def storeStep (t : Nat) (f : Flight) (todo : List Nat) (r : Word) (pick : Nat) (s : State) : State :=
  if oneAccess s.params f.width f.oref then stored t f (storeOperand t f.width f.oref r s)
  else
    match f.oref, nextByte pick todo with
    | .mem a, some k =>
      let s' := { s with mem := memWrite s.mem (byteAddr a k).toNat (byteOf r k) }
      match todo.erase k with
      | [] => stored t f s'
      | rest => goPhase t f (.store rest r) s'
    | _, _ => stored t f s

/-- Steps (1) and (2) of R64: LoadAcq, then F and the flags of this attempt (R114). -/
def casLoadStep (t : Nat) (th : Thread) (f : Flight) (s : State) : Host.Outcome State Fault Refusal :=
  match loadOperand s th f.width f.oref with
  | .error e => .fault e
  | .ok v => .next (goPhase t f (.casTry v) (putFlags t f.op f.width v s))

/-- Step (3) of R64: the compare and the conditional write, indivisible; on failure the loop goes round (R114). -/
def casTryStep (t : Nat) (th : Thread) (f : Flight) (e : Word) (s : State) : Host.Outcome State Fault Refusal :=
  match loadOperand s th f.width f.oref with
  | .error g => .fault g
  | .ok cur =>
    if cur = e then
      .next (finish (.thread t) (okWith .noResult) (storeOperand t f.width f.oref (aluResult f.op f.width e) s))
    else .next (goPhase t f .casLoad s)

/-- One indivisible step of thread `t`'s command in flight. -/
def advanceThread (t : Nat) (th : Thread) (f : Flight) (pick : Nat) (s : State) : Host.Outcome State Fault Refusal :=
  match f.phase with
  | .acquire => .next (acquireStep t f s)
  | .load todo acc => loadStep t th f todo acc pick s
  | .store todo r => .next (storeStep t f todo r pick s)
  | .release => .next (finish (.thread t) (okWith .noResult) (release s))
  | .casLoad => casLoadStep t th f s
  | .casTry e => casTryStep t th f e s

/-- The byte numbers of a content read (R183). -/
def contentBytes : List Nat := List.range 8

/-- The WCHK goes on as `c`. -/
def putCheck (c : CheckFlight) (s : State) : State := { s with debugger := { s.debugger with flight := some c } }

/-- The WCHK `c` with the entries below `left` still to be visited, nothing of the next content read yet. -/
def belowEntry (left : Nat) (c : CheckFlight) : CheckFlight := { c with left := left, todo := contentBytes, acc := 0 }

/-- Entry `i`'s content is read: seed it, report it, or go on below it (R183, R184). -/
def checked (i : Nat) (c : CheckFlight) (v : Word) (s : State) : State :=
  match noteContent i v (afterContentRead (entryAt s i).addr s) with
  | (s', true) => endCheck (some i) s'
  | (s', false) => putCheck (belowEntry i c) s'

/-- One byte of the content read of entry `i` (R58). -/
def contentStep (i : Nat) (c : CheckFlight) (pick : Nat) (s : State) : Host.Outcome State Fault Refusal :=
  match nextByte pick c.todo with
  | none => .next (checked i c c.acc s)
  | some k =>
    match contentByte s (entryAt s i).addr k with
    | .error e => .fault e
    | .ok b =>
      let acc := c.acc ||| placeByte b k
      match c.todo.erase k with
      | [] => .next (checked i c acc s)
      | rest => .next (putCheck { c with todo := rest, acc := acc } s)

/-- One step of a WCHK in flight: the end, an entry that is passed over or hit, or one byte of a content read (R180). -/
def advanceCheck (c : CheckFlight) (pick : Nat) (s : State) : Host.Outcome State Fault Refusal :=
  match c.left with
  | 0 => .next (endCheck none s)
  | i + 1 =>
    let e := entryAt s i
    if c.todo.length < 8 then contentStep i c pick s
    else if e.dis then .next (putCheck (belowEntry i c) s)
    else if c.ea = some e.addr then .next (endCheck (some i) s)
    else if mapped s e.addr then contentStep i c pick s
    else .next (putCheck (belowEntry i c) s)

/-- An ALU command begins (R111): the OREF is checked, the path is chosen, and its first step is next. -/
def beginAlu (op : AluOp) (w : Width) (lock : Bool) (o : Oref) (s : State) : Host.Outcome State Fault Refusal :=
  asThread s fun t _ =>
    if orefOk s w o then
      let p := pathOf s.params w lock o
      .next (putFlight t { op := op, width := w, oref := o, path := p, phase := firstPhase w p } s)
    else .next (raise (.thread t) .undef (.malformedOperand s.port.cmd) s)

/-- A command begins: an ALU command and a WCHK go step by step; another watch command is one indivisible step (R61,
R170). -/
def beginInstr (i : Instr) (s : State) : Host.Outcome State Fault Refusal :=
  match aluParts i, i with
  | some (op, w, lock, o), _ => beginAlu op w lock o s
  | none, .wchk => asDebug s <| startCheck s fun ea => 
    .next (putCheck { thread := s.debugger.tdbg, left := s.wlen, ea := ea, todo := contentBytes, acc := 0 } s)
  | none, i => exec i s

end Sys2Proof.Machine
end

