-- ==== Sys2Proof/Machine/Turn.lean ====
section
/-! DEFINITION. What one item of the schedule does: an agent's turn (its next command whole, or one indivisible step), or an
event of the outside. -/

namespace Sys2Proof.Machine

/-- The command in flight of an agent, if it is a thread's. -/
def flightOf (s : State) (t : Nat) : Option (Thread × Flight) :=
  match s.threads[t]? with
  | none => none
  | some th => th.flight.map fun f => (th, f)

/-- Takes the next command of an agent's stream and latches agent and command word (R61, R80). -/
def takeCommand (a : Agent) (s : State) : Option (PortWord × State) :=
  match a with
  | .thread t =>
    match s.threads[t]? with
    | none => none
    | some th =>
      match th.queue with
      | [] => none
      | p :: rest =>
        some (p, { updThread t (fun th => { th with queue := rest }) s with port := { agent := a, cmd := p.cmd } })
  | .debug =>
    match s.debugger.queue with
    | [] => none
    | p :: rest => some (p, { s with debugger := { s.debugger with queue := rest }, port := { agent := a, cmd := p.cmd } })

/-- A command word that decodes is run by `k`; a reserved one ends with UNDEF(RESERVED_CMD) (R94, R221, R227). -/
def runCommand (p : PortWord) (k : Instr → State → Host.Outcome State Fault Refusal) (s : State) :
    Host.Outcome State Fault Refusal :=
  match decode p with
  | .ok i => k i s
  | .error _ => .next (raise s.port.agent .undef (.reservedCmd p.cmd) s)

/-- An idle agent's next command, run by `k`; nothing where its stream is empty. -/
def issue (a : Agent) (k : Instr → State → Host.Outcome State Fault Refusal) (s : State) :
    Host.Outcome State Fault Refusal :=
  match takeCommand a s with
  | none => .next s
  | some (p, s') => runCommand p k s'

/-- Whether a WCHK in flight is checking thread `t`: such a thread issues no command (R170, R191). DESIGN CHOICE (log 18): a
command it already has in flight goes on all the same, so that no LOCKED command waits for a WCHK (R258). DESIGN CHOICE
(log 25): where the debug agent is attached to another thread meanwhile, the thread being checked stays the one the WCHK
began with. -/
def blocked (t : Nat) (s : State) : Bool :=
  match s.debugger.flight with
  | some c => c.thread == t
  | none => false

/-- An agent's turn: its command in flight goes on by one step, or its next command is run by `k` (R61). -/
def turn (a : Agent) (pick : Nat) (k : Instr → State → Host.Outcome State Fault Refusal) (s : State) :
    Host.Outcome State Fault Refusal :=
  match a with
  | .thread t =>
    match flightOf s t with
    | some (th, f) => advanceThread t th f pick s
    | none => if blocked t s then .next s else issue a k s
  | .debug =>
    match s.debugger.flight with
    | some c => advanceCheck c pick s
    | none => issue a k s

/-- An event of the outside (log 25). DESIGN CHOICE (log 25): attaching the debug agent to a number that is no thread's, of
which R19 and R253 say nothing, sets t_dbg to that number all the same; any other event that names such a thread changes
nothing. -/
def applyEnv (e : EnvEvent) (s : State) : State :=
  match e with
  | .setReg t i v => if i < s.params.nreg then updThread t (writeReg i v) s else s
  | .setFlags t v => updThread t (fun th => { th with flags := v }) s
  | .setPc t v => updThread t (fun th => { th with pc := v }) s
  | .storeByte a b => { s with mem := memWrite s.mem a.toNat b }
  | .setUnmapped r => { s with collab := { s.collab with unmapped := r } }
  | .setUnresolved r => { s with collab := { s.collab with unresolved := r } }
  | .pinDecode pc r => { s with collab := { s.collab with decodePins := (pc, r) :: s.collab.decodePins } }
  | .pinAddr pc d ea => { s with collab := { s.collab with addrPins := ((pc, d), ea) :: s.collab.addrPins } }
  | .attach t => { s with debugger := { s.debugger with tdbg := t } }
  | .submit (.thread t) p => updThread t (fun th => { th with queue := th.queue ++ [p] }) s
  | .submit .debug p => { s with debugger := { s.debugger with queue := s.debugger.queue ++ [p] } }

/-- One item of the schedule. -/
def runEvent (ev : Event) (s : State) : Host.Outcome State Fault Refusal :=
  match ev with
  | .whole a => turn a 0 exec s
  | .micro a pick => turn a pick beginInstr s
  | .env e => .next (applyEnv e s)

/-- The agent whose stream an opcode-table word is placed in: thread 0 for the ALU class, the debug agent for the WATCH
class (R19). -/
def agentOfCommand (c : CommandWord) : Agent := if c.getLsbD 6 then .debug else .thread 0

/-- Puts a command at the head of an agent's stream, with nothing of that agent's in flight. -/
def placeCommand (a : Agent) (p : PortWord) (s : State) : State :=
  match a with
  | .thread t => updThread t (fun th => { th with queue := p :: th.queue, flight := none }) s
  | .debug => { s with debugger := { s.debugger with queue := p :: s.debugger.queue } }

end Sys2Proof.Machine
end

