-- ==== Sys2Proof/Machine/Step.lean ====
section
/-! DEFINITION. The step: the next item of the schedule, or nothing where the schedule is empty; and the placing of an
opcode-table word as the command that the next step runs. -/

namespace Sys2Proof.Machine

/-- One step: the head of the schedule happens. With an empty schedule no agent moves (log 1). -/
def step (s : State) : Host.Outcome State Fault Refusal :=
  match s.schedule with
  | [] => .next s
  | ev :: rest => runEvent ev { s with schedule := rest }

/-- `s` with an opcode-table word as its agent's next command and that agent's whole turn next (log 1). Nothing is in flight
there that would keep the agent from issuing it. -/
def State.withFetchWord (s : State) (_nbits w : Nat) : State :=
  let p := portOfTableWord w
  let a := agentOfCommand p.cmd
  let s' := placeCommand a p { s with debugger := { s.debugger with flight := none } }
  { s' with schedule := .whole a :: s.schedule }

end Sys2Proof.Machine
end

