-- ==== Sys2Proof/Safety.lean ====
section
/-! DEFINITION. What a safe state and a safe run are, and the observations claims are stated in: the bytes of registers and
memory, the parts of the state a command has no business with, and the invariant of the machine. -/

namespace Sys2Proof.Machine

/-! Observations -/

/-- Byte `k` of register `i` (R22). -/
def regByte (th : Thread) (i k : Nat) : Byte := (th.regs.getD i 0).extractLsb' (8 * k) 8

/-- The register bytes from the OREF's offset on hold the value `v` (R22, R88). -/
abbrev regHolds (th : Thread) (i : Nat) (boff : Bool) (w : Width) (v : BitVec (widthBits w)) : Prop :=
  ∀ k, k < widthBytes w → regByte th i (regOffset boff + k) = v.extractLsb' (8 * k) 8

/-- The memory bytes from `a` on, modulo 2^64, hold the value `v`, least significant byte first (R12, R50). -/
abbrev memHolds (m : Memory) (a : Word) (w : Width) (v : BitVec (widthBits w)) : Prop :=
  ∀ k, k < widthBytes w → memRead m (byteAddr a k).toNat = some (v.extractLsb' (8 * k) 8)

/-- `b` is none of the first `n` byte addresses from `a` on. -/
abbrev outside (a : Word) (n : Nat) (b : Word) : Prop := ∀ k, k < n → b ≠ byteAddr a k

/-- Thread `t` is `th`, issues the command, and has nothing in flight (R19, R61). -/
abbrev threadIssues (s : State) (t : Nat) (th : Thread) : Prop :=
  s.port.agent = .thread t ∧ s.threads[t]? = some th ∧ th.flight = none

/-- The debug agent issues the command and has nothing in flight (R19, R61). -/
abbrev debugIssues (s : State) : Prop := s.port.agent = .debug ∧ s.debugger.flight = none

/-- A command on the LOCKED path finds LK FREE; a command on another path does not care (R112, R113). -/
abbrev lockAvailable (s : State) (w : Width) (lock : Bool) (o : Oref) : Prop :=
  pathOf s.params w lock o = .locked → s.lk = .free

/-- Every byte of a memory operand is resolved (R88). -/
abbrev allResolved (s : State) (w : Width) (a : Word) : Prop := ∀ k, k < widthBytes w → resolved s (byteAddr a k) = true

/-- Nothing that belongs neither to thread `t` nor to memory differs. -/
abbrev sameBesidesThread (t : Nat) (s s' : State) : Prop :=
  s'.params = s.params ∧ s'.threads.length = s.threads.length ∧ (∀ u, u ≠ t → s'.threads[u]? = s.threads[u]?) ∧
  s'.lk = s.lk ∧ s'.wlen = s.wlen ∧ s'.wcap = s.wcap ∧ s'.we = s.we ∧ s'.debugger = s.debugger ∧ s'.collab = s.collab ∧
  s'.port = s.port ∧ s'.schedule = s.schedule ∧ s'.draws = s.draws

/-- The thread's pc and command stream are as before, nothing is in flight, and OK is its answer. -/
abbrev threadEnded (th th' : Thread) : Prop :=
  th'.pc = th.pc ∧ th'.queue = th.queue ∧ th'.flight = none ∧
  th'.resp = some { status := .ok, info := .noInfo, result := .noResult }

/-- The operand is one the spec accepts at width `w` (R88, R221), and holds the value `v`. -/
abbrev operandHolds (s : State) (th : Thread) (w : Width) (o : Oref) (v : BitVec (widthBits w)) : Prop :=
  match o with
  | .reg i boff => i < s.params.nreg ∧ (boff = true → w = .w8) ∧ regHolds th i boff w v
  | .mem a => allResolved s w a ∧ memHolds s.mem a w v

/-- The write-back of R115 with value `r`, and nothing else written: a register operand has its bytes, at width 32 zeros
above them, else its other bytes as before, and no other register or memory byte differs; a memory operand has its bytes,
and no other byte and no register differs. -/
abbrev operandWritten (s s' : State) (th th' : Thread) (w : Width) (o : Oref) (r : BitVec (widthBits w)) : Prop :=
  match o with
  | .reg i boff =>
    regHolds th' i boff w r ∧
    (∀ k, k < 8 → k < regOffset boff ∨ regOffset boff + widthBytes w ≤ k →
      regByte th' i k = if w = .w32 then 0 else regByte th i k) ∧
    (∀ j, j ≠ i → th'.regs.getD j 0 = th.regs.getD j 0) ∧ s'.mem = s.mem
  | .mem a =>
    memHolds s'.mem a w r ∧ (∀ b, outside a (widthBytes w) b → memRead s'.mem b.toNat = memRead s.mem b.toNat) ∧
    th'.regs = th.regs

/-- The low byte of `r` has an even number of one bits (R117). -/
abbrev evenOnes {n : Nat} (r : BitVec n) : Bool := (List.range 8).countP (fun k => r.getLsbD k) % 2 == 0

/-- PF, ZF and SF are those of the result `r` (R117), and every bit that is no arithmetic flag's is as before (R27). -/
abbrev resultFlags {n : Nat} (th th' : Thread) (r : BitVec n) : Prop :=
  th'.flags.getLsbD 2 = evenOnes r ∧ th'.flags.getLsbD 6 = decide (r = 0) ∧ th'.flags.getLsbD 7 = r.msb ∧
  ∀ k, k ≠ 0 → k ≠ 2 → k ≠ 4 → k ≠ 6 → k ≠ 7 → k ≠ 11 → th'.flags.getLsbD k = th.flags.getLsbD k

/-- Nothing outside the watchpoint engine and the debug agent differs. -/
abbrev sameBesidesWatch (s s' : State) : Prop :=
  s'.params = s.params ∧ s'.threads = s.threads ∧ s'.mem = s.mem ∧ s'.lk = s.lk ∧ s'.collab = s.collab ∧
  s'.port = s.port ∧ s'.schedule = s.schedule

/-- The debug agent's stream and debugged thread are as before, nothing is in flight, and `r` is its answer. -/
abbrev debugEnded (s s' : State) (r : Response) : Prop :=
  s'.debugger.tdbg = s.debugger.tdbg ∧ s'.debugger.queue = s.debugger.queue ∧ s'.debugger.flight = none ∧ s'.debugger.resp = some r

/-- Entry `i` is live and enabled (R33, R34). -/
abbrev enabledAt (s : State) (i : Nat) : Prop := i < s.wlen ∧ (entryAt s i).dis = false

/-- The content read at `a` stays within the page of `a` (R58). -/
abbrev withinPage (s : State) (a : Word) : Prop := a.toNat % s.params.pageSize + 8 ≤ s.params.pageSize

/-- The eight bytes from `a` on have values, and they make up the word `v` (R183). -/
abbrev wordAt (s : State) (a v : Word) : Prop := memHolds s.mem a .w64 v

/-- A WCHK over the one enabled entry `i` completed with NOT_FOUND and seeded it with the bytes `b` up to its page's end; the
bytes beyond are free; nothing else but the draw counter differs (R58, R183). -/
abbrev seededUpToPage (s s' : State) (i : Nat) (b : Nat → Byte) : Prop :=
  debugEnded s s' { status := .ok, info := .noInfo, result := .index (2 ^ s.params.idxw - 1) } ∧
  (entryAt s' i).init = true ∧ (entryAt s' i).dis = false ∧ (entryAt s' i).addr = (entryAt s i).addr ∧
  (∀ k, k < 8 → (entryAt s i).addr.toNat % s.params.pageSize + k < s.params.pageSize →
    (entryAt s' i).prior.extractLsb' (8 * k) 8 = b k) ∧
  (∀ j, j ≠ i → entryAt s' j = entryAt s j) ∧ s'.wlen = s.wlen ∧ s'.wcap = s.wcap ∧ sameBesidesWatch s s'

/-! The invariant -/

/-- The phase of a command in flight belongs to its path, and what is left to access are bytes of the operand (R62 to
R64). -/
def flightWf (f : Flight) : Prop :=
  match f.phase with
  | .acquire => f.path = .locked
  | .release => f.path = .locked
  | .casLoad => f.path = .cas
  | .casTry _ => f.path = .cas
  | .load todo _ => f.path ≠ .cas ∧ ∀ k ∈ todo, k < widthBytes f.width
  | .store todo _ => f.path ≠ .cas ∧ ∀ k ∈ todo, k < widthBytes f.width

/-- A command in flight is between its Acquire and its Release (R63, R113). -/
def inCritical (f : Flight) : Prop := f.path = .locked ∧ f.phase ≠ .acquire

/-- Thread `t` is inside a LOCKED critical section. -/
def critical (s : State) (t : Nat) : Prop :=
  ∃ (th : Thread) (f : Flight), s.threads[t]? = some th ∧ th.flight = some f ∧ inCritical f

/-- The invariant of the machine: memory keeps its canonical form; LK is HELD by exactly the thread inside a LOCKED critical
section (R63, R113); every thread has NREG registers (R20); WLEN does not exceed WCAP, nor WCAP WMAX, nor WMAX 2^IDXW - 1
(R8, R32); commands in flight are well formed, a register operand one of NREG; and a WCHK in flight has only live entries before it (R34). -/
structure Inv (s : State) : Prop where
  memory : memoryWf s.mem
  lock : ∀ t, s.lk = .held t ↔ critical s t
  registers : ∀ th ∈ s.threads, th.regs.length = s.params.nreg
  lengths : s.wlen ≤ s.wcap ∧ s.wcap ≤ watchBound s.params
  flights : ∀ (t : Nat) (th : Thread) (f : Flight), s.threads[t]? = some th → th.flight = some f →
    flightWf f ∧ ∀ i boff, f.oref = .reg i boff → i < s.params.nreg
  check : ∀ c, s.debugger.flight = some c → c.left ≤ s.wlen ∧ ∀ k ∈ c.todo, k < 8

/-! Runs -/

/-- A state from which the next step neither faults nor is refused. -/
def stepsOn (s : State) : Prop := ∃ s', step s = .next s'

/-- `n` indivisible steps of an agent, always picking byte 0 or the first byte left, with no other agent in between. -/
def soloSteps (a : Agent) : Nat → State → Host.Outcome State Fault Refusal
  | 0, s => .next s
  | n + 1, s =>
    match turn a 0 beginInstr s with
    | .next s' => soloSteps a n s'
    | .fault f => .fault f
    | .refused r => .refused r

/-- What an agent's turn leaves alone in a thread it does not belong to (all of it) and in its own (pc). -/
abbrev turnKeepsThreads (a : Agent) (s s' : State) : Prop :=
  ∀ (u : Nat) (th : Thread), s.threads[u]? = some th →
    ∃ th', s'.threads[u]? = some th' ∧ th'.pc = th.pc ∧ (a ≠ .thread u → th' = th)

/-! The locked counter of R67 -/

/-- Commands a thread has still to end: those in its stream and the one in flight. -/
def pendingOf (th : Thread) : Nat := th.queue.length + (if th.flight.isSome then 1 else 0)

/-- Commands all threads have still to end. -/
def pending (s : State) : Nat := (s.threads.map pendingOf).sum

/-- A LOCK INC.Q at `a` in flight on the CAS path. -/
def countingFlight (a : Word) (f : Flight) : Prop :=
  f.op = .inc ∧ f.width = .w64 ∧ f.oref = .mem a ∧ f.path = .cas ∧ (f.phase = .casLoad ∨ ∃ e, f.phase = .casTry e)

/-- Every command of every thread is LOCK INC.Q at the aligned word at `a`, the word has a value, and the schedule holds only
turns of threads (R67). -/
structure Counting (a : Word) (s : State) : Prop where
  atomic64 : s.params.hostAtomic64 = true
  aligned : hostAligned s.params a 8 = true
  resolved : allResolved s .w64 a
  value : ∃ v, memHolds s.mem a .w64 v
  queues : ∀ th ∈ s.threads, ∀ p ∈ th.queue, decode p = .ok (.incQ true (.mem a))
  flights : ∀ th ∈ s.threads, ∀ f, th.flight = some f → countingFlight a f
  turns : ∀ e ∈ s.schedule, (∃ t, e = .whole (.thread t)) ∨ ∃ t k, e = .micro (.thread t) k

end Sys2Proof.Machine
end

