-- ==== Sys2Proof/Certificates/Slice0/Obligations.lean ====
section
/-! DEFINITION. The statements for the provers. Each docstring names the rule of spec/ it formalises, and what in it is a
decision of the spec (D<n>) or a choice of the model (log <n>). -/

open Sys2Proof Sys2Proof.Machine

/-! ## Encoding -/

/-- Decoding an encoded well-formed command gives it back, for all 21 commands and every operand (30_encoding.md, D5). -/
def Obligations.DecodeOfEncodeIsIdentity : Prop :=
  ∀ i : Instr, i.wf = true → decode (encode i) = .ok i

/-- A decoded command encodes to a word that decodes to it again, and a watch command's word is the one it came from
(30_encoding.md R93, D5): no two words of the WATCH class name one command. -/
def Obligations.DecodedCommandsReencode : Prop :=
  ∀ (p : PortWord) (i : Instr), decode p = .ok i →
    decode (encode i) = .ok i ∧ (aluParts i = none → (encode i).cmd = p.cmd)

/-- Exactly the reserved command words are rejected: 0x45 to 0xFF (30_encoding.md R94, D5). -/
def Obligations.ExactlyReservedWordsRejected : Prop :=
  ∀ p : PortWord, (∃ e, decode p = .error e) ↔ 0x45 ≤ p.cmd.toNat

/-- Width and lock bit of every ALU command word, by R84 read on the numbers (30_encoding.md R82 to R84, D5 to D7). -/
def Obligations.AluWordsDecodeByTheirBits : Prop :=
  ∀ p : PortWord, p.cmd.toNat < 0x40 → ∃ op w o,
    decode p = .ok (aluInstr op w (decide (0x20 ≤ p.cmd.toNat)) o) ∧
    op = (match p.cmd.toNat % 4 with | 0 => AluOp.not | 1 => .neg | 2 => .inc | _ => .dec) ∧
    w = (if p.cmd.toNat / 4 % 2 = 1 then Width.w8 else if p.cmd.toNat / 8 % 2 = 1 then .w64
      else if p.cmd.toNat / 16 % 2 = 1 then .w16 else .w32) ∧
    o = (if p.ops.kind = 1 then Oref.mem p.ops.addr else .reg p.ops.reg.toNat (p.ops.boff == 1))

/-- Words written out from the encodings (95_test_vectors.md DC1 to DC14): a sanity check of the decoder. -/
def Obligations.ListedWordsDecode : Prop :=
  ∀ r : BitVec 4,
    (∀ c ∈ [0b00000100#8, 0b00001100#8, 0b00010100#8, 0b00011100#8],
      decode { cmd := c, ops := { zeroBundle with reg := r } } = .ok (.notB false (.reg r.toNat false))) ∧
    decode { cmd := 0b00110001, ops := { zeroBundle with reg := r } } = .ok (.negW true (.reg r.toNat false)) ∧
    decode { cmd := 0b00101010, ops := { zeroBundle with reg := r } } = .ok (.incQ true (.reg r.toNat false)) ∧
    decode { cmd := 0b00100011, ops := { zeroBundle with reg := r } } = .ok (.decD true (.reg r.toNat false)) ∧
    decode { cmd := 0b01000000, ops := { zeroBundle with init := 1 } } =
      .ok (.wadd { addr := 0, prior := 0, init := true, dis := false }) ∧
    decode { cmd := 0b01000001, ops := zeroBundle } = .ok .wrem ∧
    decode { cmd := 0b01000010, ops := zeroBundle } = .ok .wchk ∧
    decode { cmd := 0b01000011, ops := { zeroBundle with idx := 5 } } = .ok (.wdis 5) ∧
    decode { cmd := 0b01000100, ops := { zeroBundle with idx := 7 } } = .ok (.wrd 7)

/-! ## The step -/

/-- A whole turn of an idle agent is `exec` of the command its next port word decodes to, with the word taken from its
stream, the issue latch set and the schedule moved on (R61, R80; the stream and the schedule are the model's, log 1). -/
def Obligations.StepRunsTheDecodedCommand : Prop :=
  (∀ (s : State) (t : Nat) (th : Thread) (rest : List Event) (p : PortWord) (q : List PortWord) (i : Instr),
    s.schedule = .whole (.thread t) :: rest → s.threads[t]? = some th → th.flight = none → th.queue = p :: q →
    (∀ c, s.debugger.flight = some c → c.thread ≠ t) → decode p = .ok i →
    step s = exec i { s with
      schedule := rest, threads := s.threads.set t { th with queue := q }
      port := { agent := .thread t, cmd := p.cmd } }) ∧
  (∀ (s : State) (rest : List Event) (p : PortWord) (q : List PortWord) (i : Instr),
    s.schedule = .whole .debug :: rest → s.debugger.flight = none → s.debugger.queue = p :: q → decode p = .ok i →
    step s = exec i { s with
      schedule := rest, debugger := { s.debugger with queue := q }
      port := { agent := .debug, cmd := p.cmd } })

/-- A reserved command word, from a thread or from the debug agent, ends with UNDEF(RESERVED_CMD) carrying the word, and
nothing else changes but the agent's stream, the issue latch and the schedule (R94, R221; that it does so for either kind of
agent is the model's reading, log 26). -/
def Obligations.ReservedWordEndsWithUndef : Prop :=
  (∀ (s : State) (t : Nat) (th : Thread) (p : PortWord) (rest : List Event) (q : List PortWord),
    s.schedule = .whole (.thread t) :: rest → s.threads[t]? = some th → th.flight = none → th.queue = p :: q →
    (∀ c, s.debugger.flight = some c → c.thread ≠ t) → 0x45 ≤ p.cmd.toNat →
    step s = .next { s with
      schedule := rest, port := { agent := .thread t, cmd := p.cmd }
      threads := s.threads.set t { th with
        queue := q, resp := some { status := .undef, info := .reservedCmd p.cmd, result := .noResult } } }) ∧
  (∀ (s : State) (p : PortWord) (rest : List Event) (q : List PortWord),
    s.schedule = .whole .debug :: rest → s.debugger.flight = none → s.debugger.queue = p :: q → 0x45 ≤ p.cmd.toNat →
    step s = .next { s with
      schedule := rest, port := { agent := .debug, cmd := p.cmd }
      debugger := { s.debugger with
        queue := q, resp := some { status := .undef, info := .reservedCmd p.cmd, result := .noResult } } })

/-- R220: a command that has ended has left one status with its issuing agent; a status other than OK means that no register,
flag, memory byte, lock or watch field differs: only the issuing agent's answer does. -/
def Obligations.NonOkStatusChangesNothing : Prop :=
  (∀ (i : Instr) (s s' : State) (t : Nat) (th th' : Thread),
    s.port.agent = .thread t → exec i s = .next s' → s.threads[t]? = some th → s'.threads[t]? = some th' →
    th'.flight = none →
    ∃ r, th'.resp = some r ∧ (r.status ≠ .ok → s' = { s with threads := s.threads.set t { th with resp := some r } })) ∧
  (∀ (i : Instr) (s s' : State), s.port.agent = .debug → exec i s = .next s' →
    ∃ r, s'.debugger.resp = some r ∧ (r.status ≠ .ok → s' = { s with debugger := { s.debugger with resp := some r } }))

/-- R225: the numbers on the result port, of the statuses and of UNDEF's two infos; no other info has one. -/
def Obligations.StatusCodesAreAsListed : Prop :=
  (∀ st : Status, statusCode st = (match st with | .ok => 0 | .undef => 1 | .watchFull => 2 | .watchIndex => 3)) ∧
  ∀ i : Info, undefInfoCode i =
    (match i with | .reservedCmd _ => some 1 | .malformedOperand _ => some 2 | .noInfo => none | .index _ => none)

/-- R231: a watch command from a thread, or an ALU command from the debug agent, is refused, whatever its operands. -/
def Obligations.WrongAgentIsRefused : Prop :=
  ∀ (i : Instr) (s : State),
    (aluParts i ≠ none → s.port.agent = .debug → exec i s = .refused .aluFromDebugAgent) ∧
    (∀ t, aluParts i = none → s.port.agent = .thread t → exec i s = .refused .watchFromThread)

/-! ## Unary ALU -/

/-- NOT.B, NOT.W, NOT.D, NOT.Q: the complement is written back, no flag changes, and nothing else does (R115, R116). -/
def Obligations.NotWritesComplementAndNoFlag : Prop :=
  ∀ (s : State) (t : Nat) (th : Thread) (w : Width) (lock : Bool) (o : Oref) (v : BitVec (widthBits w)),
    threadIssues s t th → operandHolds s th w o v → lockAvailable s w lock o →
    ∃ s' th', exec (aluInstr .not w lock o) s = .next s' ∧ s'.threads[t]? = some th' ∧
      operandWritten s s' th th' w o (~~~v) ∧ th'.flags = th.flags ∧ sameBesidesThread t s s' ∧ threadEnded th th'

/-- NEG.B, NEG.W, NEG.D, NEG.Q: (2^w - v) mod 2^w is written back; of FLAGS only the six arithmetic flags may change, and
nothing else does (R115, R117; the flags by D4). -/
def Obligations.NegWritesTwosComplement : Prop :=
  ∀ (s : State) (t : Nat) (th : Thread) (w : Width) (lock : Bool) (o : Oref) (v : BitVec (widthBits w)),
    threadIssues s t th → operandHolds s th w o v → lockAvailable s w lock o →
    ∃ s' th', exec (aluInstr .neg w lock o) s = .next s' ∧ s'.threads[t]? = some th' ∧
      operandWritten s s' th th' w o (BitVec.ofNat _ (2 ^ widthBits w - v.toNat)) ∧
      (∀ k, k ≠ 0 → k ≠ 2 → k ≠ 4 → k ≠ 6 → k ≠ 7 → k ≠ 11 → th'.flags.getLsbD k = th.flags.getLsbD k) ∧
      sameBesidesThread t s s' ∧ threadEnded th th'

/-- INC.B, INC.W, INC.D, INC.Q: v + 1 mod 2^w is written back; of FLAGS only the six arithmetic flags may change, and
nothing else does (R115, R118; the flags by D4). -/
def Obligations.IncWritesSuccessor : Prop :=
  ∀ (s : State) (t : Nat) (th : Thread) (w : Width) (lock : Bool) (o : Oref) (v : BitVec (widthBits w)),
    threadIssues s t th → operandHolds s th w o v → lockAvailable s w lock o →
    ∃ s' th', exec (aluInstr .inc w lock o) s = .next s' ∧ s'.threads[t]? = some th' ∧
      operandWritten s s' th th' w o (BitVec.ofNat _ (v.toNat + 1)) ∧
      (∀ k, k ≠ 0 → k ≠ 2 → k ≠ 4 → k ≠ 6 → k ≠ 7 → k ≠ 11 → th'.flags.getLsbD k = th.flags.getLsbD k) ∧
      sameBesidesThread t s s' ∧ threadEnded th th'

/-- DEC.B, DEC.W, DEC.D, DEC.Q: v - 1 mod 2^w is written back; of FLAGS only the six arithmetic flags may change, and
nothing else does (R115, R119; the flags by D4). -/
def Obligations.DecWritesPredecessor : Prop :=
  ∀ (s : State) (t : Nat) (th : Thread) (w : Width) (lock : Bool) (o : Oref) (v : BitVec (widthBits w)),
    threadIssues s t th → operandHolds s th w o v → lockAvailable s w lock o →
    ∃ s' th', exec (aluInstr .dec w lock o) s = .next s' ∧ s'.threads[t]? = some th' ∧
      operandWritten s s' th th' w o (BitVec.ofNat _ (v.toNat + (2 ^ widthBits w - 1))) ∧
      (∀ k, k ≠ 0 → k ≠ 2 → k ≠ 4 → k ≠ 6 → k ≠ 7 → k ≠ 11 → th'.flags.getLsbD k = th.flags.getLsbD k) ∧
      sameBesidesThread t s s' ∧ threadEnded th th'

/-- The six flags after NEG under FLAGSEM = X86 (R117, a decision of the spec: D4, from general knowledge). -/
def Obligations.NegFlagsByFormula : Prop :=
  ∀ (s : State) (t : Nat) (th : Thread) (w : Width) (lock : Bool) (o : Oref) (v : BitVec (widthBits w)),
    threadIssues s t th → operandHolds s th w o v → lockAvailable s w lock o → s.params.flagSem = .x86 →
    ∃ s' th', exec (aluInstr .neg w lock o) s = .next s' ∧ s'.threads[t]? = some th' ∧
      th'.flags.getLsbD 0 = decide (v.toNat ≠ 0) ∧ th'.flags.getLsbD 11 = decide (v.toNat = 2 ^ (widthBits w - 1)) ∧
      th'.flags.getLsbD 4 = decide (v.toNat % 16 ≠ 0) ∧
      resultFlags th th' (BitVec.ofNat (widthBits w) (2 ^ widthBits w - v.toNat))

/-- The flags after INC under FLAGSEM = X86, CF as before (R118, a decision of the spec: D4, from general knowledge). -/
def Obligations.IncFlagsByFormula : Prop :=
  ∀ (s : State) (t : Nat) (th : Thread) (w : Width) (lock : Bool) (o : Oref) (v : BitVec (widthBits w)),
    threadIssues s t th → operandHolds s th w o v → lockAvailable s w lock o → s.params.flagSem = .x86 →
    ∃ s' th', exec (aluInstr .inc w lock o) s = .next s' ∧ s'.threads[t]? = some th' ∧
      th'.flags.getLsbD 0 = th.flags.getLsbD 0 ∧
      th'.flags.getLsbD 11 = decide (v.toNat = 2 ^ (widthBits w - 1) - 1) ∧
      th'.flags.getLsbD 4 = decide (v.toNat % 16 = 15) ∧
      resultFlags th th' (BitVec.ofNat (widthBits w) (v.toNat + 1))

/-- The flags after DEC under FLAGSEM = X86, CF as before (R119, a decision of the spec: D4, from general knowledge). -/
def Obligations.DecFlagsByFormula : Prop :=
  ∀ (s : State) (t : Nat) (th : Thread) (w : Width) (lock : Bool) (o : Oref) (v : BitVec (widthBits w)),
    threadIssues s t th → operandHolds s th w o v → lockAvailable s w lock o → s.params.flagSem = .x86 →
    ∃ s' th', exec (aluInstr .dec w lock o) s = .next s' ∧ s'.threads[t]? = some th' ∧
      th'.flags.getLsbD 0 = th.flags.getLsbD 0 ∧ th'.flags.getLsbD 11 = decide (v.toNat = 2 ^ (widthBits w - 1)) ∧
      th'.flags.getLsbD 4 = decide (v.toNat % 16 = 0) ∧
      resultFlags th th' (BitVec.ofNat (widthBits w) (v.toNat + (2 ^ widthBits w - 1)))

/-- Under FLAGSEM = DRAW the six flags after NEG, INC and DEC are a fixed function of operation, width, value and old CF, and
no other bit changes (U10, D4; that all six are drawn is the model's reading, log 15). -/
def Obligations.DrawnFlagsDependOnValueAndCarryOnly : Prop :=
  ∃ f : AluOp → Width → Nat → Bool → FlagBits,
    ∀ (s : State) (t : Nat) (th : Thread) (op : AluOp) (w : Width) (lock : Bool) (o : Oref) (v : BitVec (widthBits w)),
      threadIssues s t th → operandHolds s th w o v → lockAvailable s w lock o → s.params.flagSem = .draw → op ≠ .not →
      ∃ s' th', exec (aluInstr op w lock o) s = .next s' ∧ s'.threads[t]? = some th' ∧
        (let b := f op w v.toNat (th.flags.getLsbD 0)
         th'.flags.getLsbD 0 = b.cf ∧ th'.flags.getLsbD 2 = b.pf ∧ th'.flags.getLsbD 4 = b.af ∧
         th'.flags.getLsbD 6 = b.zf ∧ th'.flags.getLsbD 7 = b.sf ∧ th'.flags.getLsbD 11 = b.of) ∧
        ∀ k, k ≠ 0 → k ≠ 2 → k ≠ 4 → k ≠ 6 → k ≠ 7 → k ≠ 11 → th'.flags.getLsbD k = th.flags.getLsbD k

/-- R115: whatever the operation, the path and the lock bit, an ALU command that completed found a value `v` in its operand
and wrote the operation's result on it to the operand's bytes and to no other byte; at width 32 a register's upper half is
zero afterwards, on every path. -/
def Obligations.WriteBackTouchesExactlyTheOperand : Prop :=
  ∀ (s s' : State) (t : Nat) (th th' : Thread) (op : AluOp) (w : Width) (lock : Bool) (o : Oref),
    threadIssues s t th → exec (aluInstr op w lock o) s = .next s' → s'.threads[t]? = some th' → th'.flight = none →
    orefOk s w o = true →
    ∃ v : BitVec (widthBits w), operandHolds s th w o v ∧
      operandWritten s s' th th' w o (match op with | .not => ~~~v | .neg => -v | .inc => v + 1 | .dec => v - 1)

/-- R137: NOT twice, INC then DEC, and NEG twice give the operand's value back, at every width and for every value, the most
negative one included; memory is back as it was, byte for byte; one NEG maps the most negative value to itself; and a 32-bit
register operand has the whole register back exactly if its upper half was zero. -/
def Obligations.InverseLawsRestoreTheOperand : Prop :=
  ∀ (s : State) (t : Nat) (th : Thread) (w : Width) (lock : Bool) (o : Oref) (v : BitVec (widthBits w)) (op op' : AluOp),
    (op, op') ∈ [(AluOp.not, AluOp.not), (.neg, .neg), (.inc, .dec)] →
    threadIssues s t th → operandHolds s th w o v → lockAvailable s w lock o →
    ∃ s₁ th₁ s₂ th₂, exec (aluInstr op w lock o) s = .next s₁ ∧ exec (aluInstr op' w lock o) s₁ = .next s₂ ∧
      s₁.threads[t]? = some th₁ ∧ s₂.threads[t]? = some th₂ ∧ operandHolds s₂ th₂ w o v ∧
      (∀ a : Word, memRead s₂.mem a.toNat = memRead s.mem a.toNat) ∧
      (op = .neg → v.toNat = 2 ^ (widthBits w - 1) → operandHolds s₁ th₁ w o v) ∧
      (∀ i boff, o = .reg i boff → w = .w32 →
        (th₂.regs.getD i 0 = th.regs.getD i 0 ↔ ∀ k, 4 ≤ k → k < 8 → regByte th i k = 0))

/-- R85: the L bit changes only the data path, never the value: with LK FREE a command run whole gives the same outcome with
and without it, every operand form, a status and a fault included. -/
def Obligations.LockBitNeverChangesTheOutcome : Prop :=
  ∀ (s : State) (op : AluOp) (w : Width) (o : Oref), s.lk = .free →
    exec (aluInstr op w true o) s = exec (aluInstr op w false o) s

/-- R112: the path of every width, lock bit, alignment and host support (the 16- and 64-bit rows without the lock bit by D8
and D9). -/
def Obligations.PathSelectionTable : Prop :=
  ∀ (p : Params) (lock : Bool) (o : Oref),
    (pathOf p .w8 lock o = if lock = true then .locked else .plain) ∧
    (pathOf p .w16 lock o = if lock = true then .locked else .plain) ∧
    (pathOf p .w32 lock o = if lock = true ∧ aligned p o 4 = true then .cas else .plain) ∧
    (pathOf p .w64 lock o =
      if lock = false then .plain
      else if p.hostAtomic64 = true ∧ aligned p o 8 = true then .cas else .locked) ∧
    (∀ i boff n, aligned p (.reg i boff) n = true) ∧
    (p.alignOverride = [] → ∀ a : Word, ∀ n, aligned p (.mem a) n = decide (a.toNat % n = 0))

/-- R221: a malformed OREF (no such register, byte offset 1 at a width other than 8, a memory byte not resolved) ends any ALU
command with UNDEF(MALFORMED_OPERAND) and the command word, and only the answer changes (D17). -/
def Obligations.MalformedOperandEndsWithUndef : Prop :=
  ∀ (s : State) (t : Nat) (th : Thread) (op : AluOp) (w : Width) (lock : Bool) (o : Oref),
    threadIssues s t th →
    (match o with
      | .reg i boff => s.params.nreg ≤ i ∨ (boff = true ∧ w ≠ .w8)
      | .mem a => ∃ k, k < widthBytes w ∧ resolved s (byteAddr a k) = false) →
    exec (aluInstr op w lock o) s = .next { s with
      threads := s.threads.set t { th with
        resp := some { status := .undef, info := .malformedOperand s.port.cmd, result := .noResult } } }

/-- R251, U6: an ALU load of a memory byte that has no value faults at the lowest such byte, and the command does not run. -/
def Obligations.LoadOfValuelessByteFaults : Prop :=
  ∀ (s : State) (t : Nat) (th : Thread) (op : AluOp) (w : Width) (lock : Bool) (a : Word) (k : Nat),
    threadIssues s t th → allResolved s w a → lockAvailable s w lock (.mem a) → k < widthBytes w →
    memRead s.mem (byteAddr a k).toNat = none → (∀ j, j < k → memRead s.mem (byteAddr a j).toNat ≠ none) →
    exec (aluInstr op w lock (.mem a)) s = .fault (.memoryNoValue (byteAddr a k))

/-- A command on the LOCKED path that finds LK HELD begins and waits: it is in flight before its Acquire and nothing else
changed, and its turns change nothing while LK stays HELD. That it waits is R30 and R113; the state `exec` answers with, the
command in flight before its Acquire, is the model's (log 23). -/
def Obligations.LockedCommandWaitsWhileHeld : Prop :=
  ∀ (s : State) (t u : Nat) (th : Thread) (op : AluOp) (w : Width) (lock : Bool) (o : Oref),
    threadIssues s t th → orefOk s w o = true → pathOf s.params w lock o = .locked → s.lk = .held u →
    ∃ s', exec (aluInstr op w lock o) s = .next s' ∧
      s' = { s with threads := s.threads.set t { th with
        flight := some { op := op, width := w, oref := o, path := .locked, phase := .acquire } } } ∧
      ∀ (pick : Nat) (k : Instr → State → Host.Outcome State Fault Refusal),
        turn (.thread t) pick k s' = .next s'

/-- R113: the LOCKED path step by step. A command before its Acquire that finds LK HELD by another thread waits; from its
Acquire on LK is HELD by its thread, and when it ends LK is FREE. -/
def Obligations.LockedPathHoldsLockUntilItEnds : Prop :=
  ∀ (s s' : State) (t : Nat) (th : Thread) (f : Flight) (pick : Nat),
    Inv s → s.threads[t]? = some th → th.flight = some f → f.path = .locked → advanceThread t th f pick s = .next s' →
    ∃ th', s'.threads[t]? = some th' ∧
      ((th'.flight = none ∧ s'.lk = .free) ∨
        ∃ f', th'.flight = some f' ∧ f'.path = .locked ∧
          ((f'.phase = .acquire ∧ s' = s ∧ ∃ u, u ≠ t ∧ s.lk = .held u) ∨ (f'.phase ≠ .acquire ∧ s'.lk = .held t)))

/-- R258: the thread that holds LK is held up by nothing, a WCHK in flight that checks it included (log 18): its turn is never
refused, and where it does not fault it changes the state. -/
def Obligations.LockHolderAlwaysGoesOn : Prop :=
  ∀ (s : State) (t pick : Nat) (k : Instr → State → Host.Outcome State Fault Refusal), Inv s → s.lk = .held t →
    (∀ r, turn (.thread t) pick k s ≠ .refused r) ∧ ∀ s', turn (.thread t) pick k s = .next s' → s' ≠ s

/-- R64, R114: the conditional write of a CAS attempt is indivisible. Where the operand still holds the value loaded, the
operation's result on that value is stored and the command ends; where it does not, nothing is written and the loop goes
round. Memory and register operands (R100), every width. -/
def Obligations.CasAttemptIsAtomic : Prop :=
  ∀ (s : State) (t : Nat) (th : Thread) (op : AluOp) (w : Width) (o : Oref) (e cur : BitVec (widthBits w)) (pick : Nat),
    let f : Flight := { op := op, width := w, oref := o, path := .cas, phase := .casTry (e.setWidth 64) }
    s.threads[t]? = some th → th.flight = some f →
    (match o with
      | .reg i boff => (boff = true → w = .w8) ∧ regHolds th i boff w cur
      | .mem a => memHolds s.mem a w cur) →
    ∃ s' th', advanceThread t th f pick s = .next s' ∧ s'.threads[t]? = some th' ∧ sameBesidesThread t s s' ∧
      th'.flags = th.flags ∧
      (if cur = e then
        operandWritten s s' th th' w o (match op with | .not => ~~~e | .neg => -e | .inc => e + 1 | .dec => e - 1) ∧
        threadEnded th th'
      else s'.mem = s.mem ∧ th' = { th with flight := some { f with phase := .casLoad } })

/-- R55, R63 and R110 for every indivisible step of an ALU command in flight: no register byte and no memory byte outside the
operand changes (but for the zero fill at width 32), no other thread, no pc, no stream, no watch state; of FLAGS only the six
arithmetic flags, for NOT none, and only in a step that evaluates F; LK only on the LOCKED path, by its Acquire or its
Release; and nothing else of the state. -/
def Obligations.AluStepsTouchOnlyTheirOperand : Prop :=
  ∀ (s s' : State) (t : Nat) (th : Thread) (f : Flight) (pick : Nat),
    s.threads[t]? = some th → th.flight = some f → flightWf f → advanceThread t th f pick s = .next s' →
    (∃ th', s'.threads[t]? = some th' ∧ th'.pc = th.pc ∧ th'.queue = th.queue ∧
      (∀ i, (∀ boff, f.oref ≠ .reg i boff) → th'.regs.getD i 0 = th.regs.getD i 0) ∧
      (∀ i boff k, f.oref = .reg i boff → (boff = true → f.width = .w8) → f.width ≠ .w32 → k < 8 →
        k < regOffset boff ∨ regOffset boff + widthBytes f.width ≤ k → regByte th' i k = regByte th i k) ∧
      (∀ k, k ≠ 0 → k ≠ 2 → k ≠ 4 → k ≠ 6 → k ≠ 7 → k ≠ 11 → th'.flags.getLsbD k = th.flags.getLsbD k) ∧
      (f.op = .not → th'.flags = th.flags) ∧
      ((∀ todo acc, f.phase ≠ .load todo acc) → f.phase ≠ .casLoad → th'.flags = th.flags) ∧
      (∀ f' todo acc, th'.flight = some f' → f'.phase = .load todo acc → th'.flags = th.flags)) ∧
    (∀ u, u ≠ t → s'.threads[u]? = s.threads[u]?) ∧
    (∀ b : Word, (∀ a, f.oref = .mem a → outside a (widthBytes f.width) b) →
      memRead s'.mem b.toNat = memRead s.mem b.toNat) ∧
    (f.path ≠ .locked → s'.lk = s.lk) ∧ (f.phase ≠ .acquire → f.phase ≠ .release → s'.lk = s.lk) ∧
    s'.wlen = s.wlen ∧ s'.wcap = s.wcap ∧ s'.we = s.we ∧ s'.debugger = s.debugger ∧ s'.params = s.params ∧
    s'.collab = s.collab ∧ s'.port = s.port ∧ s'.schedule = s.schedule ∧ s'.draws = s.draws

/-- R52: an m-byte read of bytes last written by an n-byte write at the same address, m ≤ n, gives the low-order m bytes of
the value written, and every byte outside the n is as before. -/
def Obligations.NarrowReadAfterWideWrite : Prop :=
  ∀ (m : Memory) (a v : Word) (n k : Nat), k ≤ n → n ≤ 8 →
    loadWord (storeWord m a v n) a k = .ok (BitVec.ofNat 64 (v.toNat % 2 ^ (8 * k))) ∧
    ∀ b, outside a n b → memRead (storeWord m a v n) b.toNat = memRead m b.toNat

/-! ## Watchpoint engine -/

/-- WADD with a disabled live entry stores in the lowest such slot, verbatim, returns its index and changes no counter
(R172, R174; stored verbatim by D19). -/
def Obligations.WaddReusesLowestDisabledSlot : Prop :=
  ∀ (s : State) (e : WatchEntry) (i : Nat),
    debugIssues s → i < s.wlen → (entryAt s i).dis = true → (∀ j, j < i → (entryAt s j).dis = false) →
    ∃ s', exec (.wadd e) s = .next s' ∧
      debugEnded s s' { status := .ok, info := .noInfo, result := .index (i) } ∧
      (∀ j, entryAt s' j = if j = i then e else entryAt s j) ∧ s'.wlen = s.wlen ∧ s'.wcap = s.wcap ∧
      s'.draws = s.draws ∧ sameBesidesWatch s s'

/-- WADD with no disabled live entry appends at WLEN and returns that index; the capacity grows only when it is used up, to
WLEN + max(1, WLEN/2), clamped to WMAX, itself at most 2^IDXW - 1 (R172, R173; the clamp by D18). -/
def Obligations.WaddAppendsAndGrows : Prop :=
  ∀ (s : State) (e : WatchEntry),
    debugIssues s → (∀ j, j < s.wlen → (entryAt s j).dis = false) → s.wlen ≤ s.wcap → s.wcap ≤ min s.params.wmax (2 ^ s.params.idxw - 1) →
    s.wlen ≠ min s.params.wmax (2 ^ s.params.idxw - 1) →
    ∃ s', exec (.wadd e) s = .next s' ∧
      debugEnded s s' { status := .ok, info := .noInfo, result := .index s.wlen } ∧
      (∀ j, entryAt s' j = if j = s.wlen then e else entryAt s j) ∧ s'.wlen = s.wlen + 1 ∧
      s'.wcap = (if s.wlen = s.wcap
        then min (s.wlen + max 1 (s.wlen / 2)) (min s.params.wmax (2 ^ s.params.idxw - 1)) else s.wcap) ∧
      s'.draws = s.draws ∧ sameBesidesWatch s s'

/-- WADD with no disabled live entry and WLEN = WCAP = WMAX ends with WATCH_FULL, and only the answer changes (R173, R222;
D18). -/
def Obligations.WaddReportsFull : Prop :=
  ∀ (s : State) (e : WatchEntry),
    debugIssues s → (∀ j, j < s.wlen → (entryAt s j).dis = false) → s.wlen = s.wcap → s.wlen = min s.params.wmax (2 ^ s.params.idxw - 1) →
    exec (.wadd e) s = .next { s with debugger := { s.debugger with
      resp := some { status := .watchFull, info := .noInfo, result := .noResult } } }

/-- R176: CMD 0x41 is WREM whatever its bundle; WREM lowers WLEN by one, or leaves 0; WCAP and every stored entry stay. -/
def Obligations.WremRemovesTheLastPosition : Prop :=
  (∀ b : Bundle, decode { cmd := 0x41, ops := b } = .ok .wrem) ∧
  ∀ s : State, debugIssues s →
    ∃ s', exec .wrem s = .next s' ∧ debugEnded s s' { status := .ok, info := .noInfo, result := .noResult } ∧
      s'.wlen = s.wlen - 1 ∧ s'.wcap = s.wcap ∧ s'.we = s.we ∧ s'.draws = s.draws ∧ sameBesidesWatch s s'

/-- WDIS sets one `dis` bit, or, on an index that is not live, ends with WATCH_INDEX carrying it and changes nothing else
(R188, R222; D20, D23). -/
def Obligations.WdisDisablesOneLiveEntry : Prop :=
  ∀ (s : State) (idx : Index), debugIssues s →
    (idx < s.wlen → ∃ s', exec (.wdis idx) s = .next s' ∧
      debugEnded s s' { status := .ok, info := .noInfo, result := .noResult } ∧
      (∀ j, entryAt s' j = if j = idx then { entryAt s j with dis := true } else entryAt s j) ∧
      s'.wlen = s.wlen ∧ s'.wcap = s.wcap ∧ s'.draws = s.draws ∧ sameBesidesWatch s s') ∧
    (¬ idx < s.wlen → exec (.wdis idx) s = .next { s with debugger := { s.debugger with
      resp := some { status := .watchIndex, info := .index idx, result := .noResult } } })

/-- WRD returns the counters and, for a live index, the entry's fields, else zeros; only the answer changes (R190; D21). -/
def Obligations.WrdReturnsEntryAndCounters : Prop :=
  ∀ (s : State) (idx : Index), debugIssues s →
    ∃ r : ReadResult,
      exec (.wrd idx) s = .next { s with debugger := { s.debugger with
        resp := some { status := .ok, info := .noInfo, result := .read r } } } ∧
      r.wlen = s.wlen ∧ r.wcap = s.wcap ∧ r.valid = decide (idx < s.wlen) ∧
      (idx < s.wlen → r.addr = (entryAt s idx).addr ∧ r.prior = (entryAt s idx).prior ∧
        r.init = (entryAt s idx).init ∧ r.dis = (entryAt s idx).dis) ∧
      (¬ idx < s.wlen → r.addr = 0 ∧ r.prior = 0 ∧ r.init = false ∧ r.dis = false)

/-- R181: with WLEN = 0 a WCHK returns NOT_FOUND at once, and with every live entry disabled it returns NOT_FOUND; only the
answer changes. -/
def Obligations.WchkWithNothingToVisitFindsNothing : Prop :=
  ∀ s : State, debugIssues s →
    (s.wlen = 0 ∨ ((∀ j, j < s.wlen → (entryAt s j).dis = true) ∧ ∃ th, s.threads[s.debugger.tdbg]? = some th)) →
    exec .wchk s = .next { s with debugger := { s.debugger with
      resp := some { status := .ok, info := .noInfo, result := .index (2 ^ s.params.idxw - 1) } } }

/-- R182, R185: an address hit at the highest enabled live entry returns its index before its content is read: no entry is
seeded or changed, and pc is as before. -/
def Obligations.AddressHitReturnsIndexUnseeded : Prop :=
  ∀ (s : State) (th : Thread) (i : Nat),
    debugIssues s → s.threads[s.debugger.tdbg]? = some th → enabledAt s i →
    (∀ j, i < j → j < s.wlen → (entryAt s j).dis = true) → checkAddress s th = some (entryAt s i).addr →
    exec .wchk s = .next { s with debugger := { s.debugger with
      resp := some { status := .ok, info := .noInfo, result := .index i } } }

/-- R182, R96, R97: the address compared is EffectiveAddress of the decoded term with pc reading pc + len mod 2^64; a failed
decode, or an instruction with no memory operand, gives none. Stated for a decoder and an EffectiveAddress pinned at those
points (log 8), so it holds for every answer they may give there. -/
def Obligations.AddressCheckReadsAdvancedPc : Prop :=
  ∀ (s : State) (th : Thread) (r : DecodeResult) (ea : Word) (ds : List (Word × DecodeResult))
    (as : List ((Word × Nat) × Word)),
    s.collab.decodePins = (th.pc, r) :: ds →
    s.collab.addrPins = ((BitVec.ofNat 64 (th.pc.toNat + r.len), r.d), ea) :: as →
    checkAddress s th = if r.ok = true ∧ r.hasMem = true then some ea else none

/-- R186: a WCHK gives what comparing all entries at once gives: the highest index that triggers, its prior updated unless it
was an address hit, every uninitialised mapped entry above it seeded, and nothing else changed. `vals` are the words at the
watched addresses; the content reads stay within their pages (the crossing reads are CrossingReadSeedsStoredBytes). -/
def Obligations.WchkEqualsTheParallelView : Prop :=
  ∀ (s : State) (th : Thread) (vals : Nat → Word),
    debugIssues s → s.wlen ≠ 0 → s.threads[s.debugger.tdbg]? = some th →
    (∀ i, enabledAt s i → mapped s (entryAt s i).addr = true →
      withinPage s (entryAt s i).addr ∧ wordAt s (entryAt s i).addr (vals i)) →
    let hit : Nat → Prop := fun i => enabledAt s i ∧ checkAddress s th = some (entryAt s i).addr
    let chg : Nat → Prop := fun i => enabledAt s i ∧ mapped s (entryAt s i).addr = true ∧ (entryAt s i).init = true ∧
      vals i ≠ (entryAt s i).prior
    ∃ (s' : State) (r : Option Nat), exec .wchk s = .next s' ∧
      debugEnded s s' { status := .ok, info := .noInfo
                        result := .index (match r with | some i => i | none => 2 ^ s.params.idxw - 1) } ∧
      (match r with
        | none => ∀ j, ¬ hit j ∧ ¬ chg j
        | some i => (hit i ∨ chg i) ∧ ∀ j, i < j → ¬ hit j ∧ ¬ chg j) ∧
      (∀ j, (r = some j → ¬ hit j → entryAt s' j = { entryAt s j with prior := vals j }) ∧
        (r = some j → hit j → entryAt s' j = entryAt s j) ∧
        ((∀ i, r = some i → i < j) → enabledAt s j → mapped s (entryAt s j).addr = true → (entryAt s j).init = false →
          entryAt s' j = { entryAt s j with prior := vals j, init := true }) ∧
        ((∀ i, r = some i → i < j) → ¬ (enabledAt s j ∧ mapped s (entryAt s j).addr = true ∧ (entryAt s j).init = false) →
          entryAt s' j = entryAt s j) ∧
        ((∃ i, r = some i ∧ j < i) → entryAt s' j = entryAt s j)) ∧
      s'.wlen = s.wlen ∧ s'.wcap = s.wcap ∧ s'.draws = s.draws ∧ sameBesidesWatch s s'

/-- R58, R183 and U1 (D24): a content read that crosses its page's end, the following page mapped, seeds a fresh entry with
the stored bytes up to the page's end; the bytes beyond it are free, and nothing is said of them. -/
def Obligations.CrossingReadSeedsStoredBytes : Prop :=
  ∀ (s : State) (th : Thread) (i : Nat) (b : Nat → Byte),
    debugIssues s → s.threads[s.debugger.tdbg]? = some th → enabledAt s i →
    (∀ j, j ≠ i → j < s.wlen → (entryAt s j).dis = true) → checkAddress s th ≠ some (entryAt s i).addr →
    (entryAt s i).init = false → mapped s (entryAt s i).addr = true → ¬ withinPage s (entryAt s i).addr →
    (∀ k, k < 8 → if (entryAt s i).addr.toNat % s.params.pageSize + k < s.params.pageSize
      then memRead s.mem (byteAddr (entryAt s i).addr k).toNat = some (b k)
      else mapped s (byteAddr (entryAt s i).addr k) = true) →
    ∃ s', exec .wchk s = .next s' ∧ seededUpToPage s s' i b

/-- U1 (D24; log 14): the same read with byte `k` the first beyond the page's end whose address is unmapped: it faults there,
or it goes on and seeds the stored bytes; which of the two is the free choice, and nothing is said of it. -/
def Obligations.CrossingReadOverUnmappedPageFaultsOrSeeds : Prop :=
  ∀ (s : State) (th : Thread) (i k : Nat) (b : Nat → Byte),
    debugIssues s → s.threads[s.debugger.tdbg]? = some th → enabledAt s i →
    (∀ j, j ≠ i → j < s.wlen → (entryAt s j).dis = true) → checkAddress s th ≠ some (entryAt s i).addr →
    (entryAt s i).init = false → mapped s (entryAt s i).addr = true → k < 8 →
    s.params.pageSize ≤ (entryAt s i).addr.toNat % s.params.pageSize + k →
    mapped s (byteAddr (entryAt s i).addr k) = false →
    (∀ j, j < 8 → if (entryAt s i).addr.toNat % s.params.pageSize + j < s.params.pageSize
      then memRead s.mem (byteAddr (entryAt s i).addr j).toNat = some (b j)
      else j < k → mapped s (byteAddr (entryAt s i).addr j) = true) →
    exec .wchk s = .fault (.contentReadCrossing (byteAddr (entryAt s i).addr k)) ∨
    ∃ s', exec .wchk s = .next s' ∧ seededUpToPage s s' i b

/-- R251, U6 (log 5): a WCHK whose content read of the highest enabled entry reaches a byte within its page that has no value
faults at the lowest such byte. -/
def Obligations.WchkReadOfValuelessByteFaults : Prop :=
  ∀ (s : State) (th : Thread) (i k : Nat),
    debugIssues s → s.threads[s.debugger.tdbg]? = some th → enabledAt s i →
    (∀ j, i < j → j < s.wlen → (entryAt s j).dis = true) → checkAddress s th ≠ some (entryAt s i).addr →
    mapped s (entryAt s i).addr = true → k < 8 →
    (entryAt s i).addr.toNat % s.params.pageSize + k < s.params.pageSize →
    memRead s.mem (byteAddr (entryAt s i).addr k).toNat = none →
    (∀ j, j < k → memRead s.mem (byteAddr (entryAt s i).addr j).toNat ≠ none) →
    exec .wchk s = .fault (.memoryNoValue (byteAddr (entryAt s i).addr k))

/-- R26: a WCHK leaves every thread's pc, and the rest of the thread and memory, exactly as found, whichever branch it takes,
whole or in any of its indivisible steps. -/
def Obligations.WchkLeavesMachineStateAsFound : Prop :=
  (∀ s s' : State, exec .wchk s = .next s' → s'.threads = s.threads ∧ s'.mem = s.mem ∧ s'.lk = s.lk) ∧
  (∀ (s s' : State) (c : CheckFlight) (pick : Nat), s.debugger.flight = some c → advanceCheck c pick s = .next s' →
    s'.threads = s.threads ∧ s'.mem = s.mem ∧ s'.lk = s.lk)

/-- R223: an unmapped watched address and a failed decode are no errors. A WCHK that completes ends with OK. With a failed
decode, and every enabled entry unmapped or its word within its page and having a value, it completes by content alone: it
returns the highest index whose content changed, and updates that prior, or NOT_FOUND exactly where no content changed, and it
seeds every uninitialised mapped entry above its result. With every enabled entry unmapped and none hit it completes with
NOT_FOUND and changes nothing but its answer. Whatever a WCHK does, an entry whose address is unmapped is as before. -/
def Obligations.WchkPassesOverFailuresSilently : Prop :=
  (∀ s s' : State, exec .wchk s = .next s' →
    ∃ r, s'.debugger.resp = some { status := .ok, info := .noInfo, result := .index r }) ∧
  (∀ (s : State) (th : Thread) (vals : Nat → Word), debugIssues s → s.threads[s.debugger.tdbg]? = some th →
    (decodeNext s th).ok = false →
    (∀ i, enabledAt s i → mapped s (entryAt s i).addr = true →
      withinPage s (entryAt s i).addr ∧ wordAt s (entryAt s i).addr (vals i)) →
    let chg : Nat → Prop := fun i => enabledAt s i ∧ mapped s (entryAt s i).addr = true ∧ (entryAt s i).init = true ∧
      vals i ≠ (entryAt s i).prior
    ∃ (s' : State) (r : Option Nat), exec .wchk s = .next s' ∧
      s'.debugger.resp = some { status := .ok, info := .noInfo
                                result := .index (match r with | some i => i | none => 2 ^ s.params.idxw - 1) } ∧
      (match r with
        | none => ∀ j, ¬ chg j
        | some i => chg i ∧ entryAt s' i = { entryAt s i with prior := vals i } ∧ ∀ j, i < j → ¬ chg j) ∧
      (∀ j, (∀ i, r = some i → i < j) → enabledAt s j → mapped s (entryAt s j).addr = true → (entryAt s j).init = false →
        entryAt s' j = { entryAt s j with prior := vals j, init := true })) ∧
  (∀ (s : State) (th : Thread), debugIssues s → s.threads[s.debugger.tdbg]? = some th →
    (∀ i, enabledAt s i → mapped s (entryAt s i).addr = false ∧ checkAddress s th ≠ some (entryAt s i).addr) →
    exec .wchk s = .next { s with debugger := { s.debugger with
      resp := some { status := .ok, info := .noInfo, result := .index (2 ^ s.params.idxw - 1) } } }) ∧
  (∀ (s s' : State) (i : Nat), exec .wchk s = .next s' → mapped s (entryAt s i).addr = false → entryAt s' i = entryAt s i)

/-- R171: no watch command writes a thread, memory or LK. WADD, WREM, WDIS and WRD read none of them either: with any other
threads, memory and LK they do the same. WCHK reads of them its peek and its content reads and nothing else: with any other
threads, memory and LK that give the same address to compare and the same bytes at the enabled mapped entries, it does the
same. -/
def Obligations.WatchCommandsKeepOffMachineState : Prop :=
  (∀ (i : Instr) (s s' : State), aluParts i = none → exec i s = .next s' →
    s'.threads = s.threads ∧ s'.mem = s.mem ∧ s'.lk = s.lk) ∧
  (∀ (i : Instr) (s s' : State) (ths : List Thread) (m : Memory) (l : Lock), aluParts i = none → i ≠ .wchk →
    exec i s = .next s' →
    exec i { s with threads := ths, mem := m, lk := l } = .next { s' with threads := ths, mem := m, lk := l }) ∧
  (∀ (s s' : State) (th th' : Thread) (ths : List Thread) (m : Memory) (l : Lock),
    let u : State := { s with threads := ths, mem := m, lk := l }
    s.threads[s.debugger.tdbg]? = some th → ths[s.debugger.tdbg]? = some th' → checkAddress u th' = checkAddress s th →
    (∀ i, enabledAt s i → mapped s (entryAt s i).addr = true →
      ∀ k, k < 8 → memRead m (byteAddr (entryAt s i).addr k).toNat = memRead s.mem (byteAddr (entryAt s i).addr k).toNat) →
    exec .wchk s = .next s' → exec .wchk u = .next { s' with threads := ths, mem := m, lk := l })

/-! ## The whole machine -/

/-- The reset state: the block's values of R250 (D28: LK FREE, WLEN 0, WCAP 0, nothing in flight); that no register is other
than zero and no byte of memory has a value are the model's choices (log 2 to 5). -/
def Obligations.ResetStateIsAsStated : Prop :=
  State.reset.lk = .free ∧ State.reset.wlen = 0 ∧ State.reset.wcap = 0 ∧ State.reset.debugger.flight = none ∧
  (∀ th ∈ State.reset.threads, th.flight = none ∧ th.pc = 0 ∧ th.flags = 0 ∧ ∀ i, th.regs.getD i 0 = 0) ∧
  ∀ a, memRead State.reset.mem a = none

/-- The reset state meets the invariant. -/
def Obligations.ResetMeetsInvariant : Prop := Inv State.reset

/-- Every step keeps the invariant: memory's canonical form, LK HELD by exactly the thread in a critical section (R63, R113),
NREG registers in every thread (R20), WLEN ≤ WCAP ≤ WMAX ≤ 2^IDXW - 1 (R8, R32), and well-formed commands in flight. -/
def Obligations.StepKeepsInvariant : Prop :=
  ∀ s s' : State, Inv s → step s = .next s' → Inv s'

/-- R63: the critical sections of two LOCKED commands never overlap, after any number of steps from a state that meets the
invariant. -/
def Obligations.CriticalSectionsNeverOverlap : Prop :=
  ∀ (n : Nat) (s s' : State) (t u : Nat), Inv s → Sys2Proof.core.run n s = .next s' → critical s' t → critical s' u → t = u

/-- R32: WCAP is never decreased, and WLEN does not exceed it, by any step from a state that meets the invariant. -/
def Obligations.CapacityNeverDecreases : Prop :=
  ∀ s s' : State, Inv s → step s = .next s' → s.wcap ≤ s'.wcap ∧ s'.wlen ≤ s'.wcap

/-- R140, R234: an agent's turn moves no pc at all and changes nothing in any thread but its own. -/
def Obligations.TurnsMoveNoPcAndKeepOtherThreads : Prop :=
  ∀ (s s' : State) (a : Agent) (e : Event) (rest : List Event),
    s.schedule = e :: rest → (e = .whole a ∨ ∃ k, e = .micro a k) → step s = .next s' → turnKeepsThreads a s s'

/-- R110, R171: a thread's turn changes nothing of the watchpoint engine or the debug agent, and the debug agent's turn
changes no thread, no memory byte and not LK. -/
def Obligations.AgentsKeepToTheirOwnState : Prop :=
  ∀ (s s' : State) (a : Agent) (e : Event) (rest : List Event),
    s.schedule = e :: rest → (e = .whole a ∨ ∃ k, e = .micro a k) → step s = .next s' →
    (a ≠ .debug → s'.wlen = s.wlen ∧ s'.wcap = s.wcap ∧ s'.we = s.we ∧ s'.debugger = s.debugger ∧ s'.draws = s.draws) ∧
    (a = .debug → s'.threads = s.threads ∧ s'.mem = s.mem ∧ s'.lk = s.lk) ∧
    s'.params = s.params ∧ s'.collab = s.collab

/-- R170, R191: an idle thread that a WCHK in flight is checking issues nothing: its turn changes nothing. That it is the
thread the WCHK began with, whatever t_dbg is now, is the model's (log 18, log 25). -/
def Obligations.CheckedThreadIssuesNothing : Prop :=
  ∀ (s : State) (t pick : Nat) (th : Thread) (c : CheckFlight) (k : Instr → State → Host.Outcome State Fault Refusal),
    s.threads[t]? = some th → th.flight = none → s.debugger.flight = some c → c.thread = t →
    turn (.thread t) pick k s = .next s

/-- An ALU command taken in its indivisible steps with no other agent in between does what `exec` does in one step, in at
most 18 steps; a fault likewise (R61 to R64, R111; log 13). -/
def Obligations.AluStepsAloneEqualWholeCommand : Prop :=
  ∀ (s : State) (t : Nat) (th : Thread) (i : Instr),
    threadIssues s t th → aluParts i ≠ none →
    (∀ s', exec i s = .next s' →
      ∃ s₁ n, beginInstr i s = .next s₁ ∧ n ≤ 18 ∧ soloSteps (.thread t) n s₁ = .next s') ∧
    (∀ f, exec i s = .fault f → ∃ s₁ n, beginInstr i s = .next s₁ ∧ n ≤ 18 ∧ soloSteps (.thread t) n s₁ = .fault f)

/-- A WCHK taken byte by byte with no other agent in between does what `exec` does in one step; a fault likewise (R58, R170,
R180; log 18). -/
def Obligations.WchkStepsAloneEqualWholeCommand : Prop :=
  ∀ s : State, debugIssues s →
    (∀ s', exec .wchk s = .next s' → ∃ s₁ n, beginInstr .wchk s = .next s₁ ∧ soloSteps .debug n s₁ = .next s') ∧
    (∀ f, exec .wchk s = .fault f → ∃ s₁ n, beginInstr .wchk s = .next s₁ ∧ soloSteps .debug n s₁ = .fault f)

/-- R67: under any interleaving of the indivisible steps of threads that issue nothing but LOCK INC.Q on one aligned word, no
step stops, and the word plus the number of commands still to end stays the same; so when all have ended, the word is its
initial value plus their number. -/
def Obligations.LockedIncrementsAllCount : Prop :=
  ∀ (n : Nat) (a v : Word) (s : State), Counting a s → memHolds s.mem a .w64 v →
    ∃ (s' : State) (v' : Word), Sys2Proof.core.run n s = .next s' ∧ Counting a s' ∧ memHolds s'.mem a .w64 v' ∧
      v' + BitVec.ofNat 64 (pending s') = v + BitVec.ofNat 64 (pending s)

/-- R62: an update between a PLAIN command's load and its store is lost. Two threads each run INC.B on the byte at 0x1000,
from 0, and it ends at 1; run one after the other it ends at 2. -/
def Obligations.PlainUpdatesCanBeLost : Prop :=
  let p : PortWord := { cmd := 0x06, ops := { zeroBundle with kind := 1, addr := 0x1000 } }
  let start (sched : List Event) : State :=
    { State.reset with
      mem := [(0x1000, 0)], threads := [{ resetThread with queue := [p] }, { resetThread with queue := [p] }]
      schedule := sched }
  let m (t : Nat) : Event := .micro (.thread t) 0
  (∃ s', Sys2Proof.core.run 6 (start [m 0, m 1, m 0, m 1, m 0, m 1]) = .next s' ∧ s'.mem = [(0x1000, 1)]) ∧
  (∃ s', Sys2Proof.core.run 6 (start [m 0, m 0, m 0, m 1, m 1, m 1]) = .next s' ∧ s'.mem = [(0x1000, 2)])
end

