-- ==== Sys2Proof/Laws/State.lean ====
section
/-! SUPPORT. What each update of the state leaves alone, field by field, and how a changed thread or entry reads. -/

namespace Sys2Proof.Machine

@[simp] theorem updThread_params (t : Nat) (f : Thread → Thread) (s : State) : (updThread t f s).params = s.params := rfl
@[simp] theorem updThread_mem (t : Nat) (f : Thread → Thread) (s : State) : (updThread t f s).mem = s.mem := rfl
@[simp] theorem updThread_lk (t : Nat) (f : Thread → Thread) (s : State) : (updThread t f s).lk = s.lk := rfl
@[simp] theorem updThread_wlen (t : Nat) (f : Thread → Thread) (s : State) : (updThread t f s).wlen = s.wlen := rfl
@[simp] theorem updThread_wcap (t : Nat) (f : Thread → Thread) (s : State) : (updThread t f s).wcap = s.wcap := rfl
@[simp] theorem updThread_we (t : Nat) (f : Thread → Thread) (s : State) : (updThread t f s).we = s.we := rfl
@[simp] theorem updThread_debug (t : Nat) (f : Thread → Thread) (s : State) : (updThread t f s).debugger = s.debugger := rfl
@[simp] theorem updThread_collab (t : Nat) (f : Thread → Thread) (s : State) : (updThread t f s).collab = s.collab := rfl
@[simp] theorem updThread_port (t : Nat) (f : Thread → Thread) (s : State) : (updThread t f s).port = s.port := rfl
@[simp] theorem updThread_schedule (t : Nat) (f : Thread → Thread) (s : State) : (updThread t f s).schedule = s.schedule := rfl
@[simp] theorem updThread_draws (t : Nat) (f : Thread → Thread) (s : State) : (updThread t f s).draws = s.draws := rfl

@[simp] theorem acquire_params (t : Nat) (s : State) : (acquire t s).params = s.params := rfl
@[simp] theorem acquire_threads (t : Nat) (s : State) : (acquire t s).threads = s.threads := rfl
@[simp] theorem acquire_mem (t : Nat) (s : State) : (acquire t s).mem = s.mem := rfl
@[simp] theorem acquire_wlen (t : Nat) (s : State) : (acquire t s).wlen = s.wlen := rfl
@[simp] theorem acquire_wcap (t : Nat) (s : State) : (acquire t s).wcap = s.wcap := rfl
@[simp] theorem acquire_we (t : Nat) (s : State) : (acquire t s).we = s.we := rfl
@[simp] theorem acquire_debug (t : Nat) (s : State) : (acquire t s).debugger = s.debugger := rfl
@[simp] theorem acquire_collab (t : Nat) (s : State) : (acquire t s).collab = s.collab := rfl
@[simp] theorem acquire_port (t : Nat) (s : State) : (acquire t s).port = s.port := rfl
@[simp] theorem acquire_schedule (t : Nat) (s : State) : (acquire t s).schedule = s.schedule := rfl
@[simp] theorem acquire_draws (t : Nat) (s : State) : (acquire t s).draws = s.draws := rfl

@[simp] theorem release_params (s : State) : (release s).params = s.params := rfl
@[simp] theorem release_threads (s : State) : (release s).threads = s.threads := rfl
@[simp] theorem release_mem (s : State) : (release s).mem = s.mem := rfl
@[simp] theorem release_wlen (s : State) : (release s).wlen = s.wlen := rfl
@[simp] theorem release_wcap (s : State) : (release s).wcap = s.wcap := rfl
@[simp] theorem release_we (s : State) : (release s).we = s.we := rfl
@[simp] theorem release_debug (s : State) : (release s).debugger = s.debugger := rfl
@[simp] theorem release_collab (s : State) : (release s).collab = s.collab := rfl
@[simp] theorem release_port (s : State) : (release s).port = s.port := rfl
@[simp] theorem release_schedule (s : State) : (release s).schedule = s.schedule := rfl
@[simp] theorem release_draws (s : State) : (release s).draws = s.draws := rfl

@[simp] theorem putEntry_params (i : Nat) (e : WatchEntry) (s : State) : (putEntry i e s).params = s.params := rfl
@[simp] theorem putEntry_threads (i : Nat) (e : WatchEntry) (s : State) : (putEntry i e s).threads = s.threads := rfl
@[simp] theorem putEntry_mem (i : Nat) (e : WatchEntry) (s : State) : (putEntry i e s).mem = s.mem := rfl
@[simp] theorem putEntry_lk (i : Nat) (e : WatchEntry) (s : State) : (putEntry i e s).lk = s.lk := rfl
@[simp] theorem putEntry_wlen (i : Nat) (e : WatchEntry) (s : State) : (putEntry i e s).wlen = s.wlen := rfl
@[simp] theorem putEntry_wcap (i : Nat) (e : WatchEntry) (s : State) : (putEntry i e s).wcap = s.wcap := rfl
@[simp] theorem putEntry_debug (i : Nat) (e : WatchEntry) (s : State) : (putEntry i e s).debugger = s.debugger := rfl
@[simp] theorem putEntry_collab (i : Nat) (e : WatchEntry) (s : State) : (putEntry i e s).collab = s.collab := rfl
@[simp] theorem putEntry_port (i : Nat) (e : WatchEntry) (s : State) : (putEntry i e s).port = s.port := rfl
@[simp] theorem putEntry_schedule (i : Nat) (e : WatchEntry) (s : State) : (putEntry i e s).schedule = s.schedule := rfl
@[simp] theorem putEntry_draws (i : Nat) (e : WatchEntry) (s : State) : (putEntry i e s).draws = s.draws := rfl

@[simp] theorem putCheck_params (c : CheckFlight) (s : State) : (putCheck c s).params = s.params := rfl
@[simp] theorem putCheck_threads (c : CheckFlight) (s : State) : (putCheck c s).threads = s.threads := rfl
@[simp] theorem putCheck_mem (c : CheckFlight) (s : State) : (putCheck c s).mem = s.mem := rfl
@[simp] theorem putCheck_lk (c : CheckFlight) (s : State) : (putCheck c s).lk = s.lk := rfl
@[simp] theorem putCheck_wlen (c : CheckFlight) (s : State) : (putCheck c s).wlen = s.wlen := rfl
@[simp] theorem putCheck_wcap (c : CheckFlight) (s : State) : (putCheck c s).wcap = s.wcap := rfl
@[simp] theorem putCheck_we (c : CheckFlight) (s : State) : (putCheck c s).we = s.we := rfl
@[simp] theorem putCheck_collab (c : CheckFlight) (s : State) : (putCheck c s).collab = s.collab := rfl
@[simp] theorem putCheck_port (c : CheckFlight) (s : State) : (putCheck c s).port = s.port := rfl
@[simp] theorem putCheck_schedule (c : CheckFlight) (s : State) : (putCheck c s).schedule = s.schedule := rfl
@[simp] theorem putCheck_draws (c : CheckFlight) (s : State) : (putCheck c s).draws = s.draws := rfl

@[simp] theorem putCheck_debugger (c : CheckFlight) (s : State) :
    (putCheck c s).debugger = { s.debugger with flight := some c } := rfl

@[simp] theorem finishDebug_params (r : Response) (s : State) : (finish .debug r s).params = s.params := rfl
@[simp] theorem finishDebug_threads (r : Response) (s : State) : (finish .debug r s).threads = s.threads := rfl
@[simp] theorem finishDebug_mem (r : Response) (s : State) : (finish .debug r s).mem = s.mem := rfl
@[simp] theorem finishDebug_lk (r : Response) (s : State) : (finish .debug r s).lk = s.lk := rfl
@[simp] theorem finishDebug_wlen (r : Response) (s : State) : (finish .debug r s).wlen = s.wlen := rfl
@[simp] theorem finishDebug_wcap (r : Response) (s : State) : (finish .debug r s).wcap = s.wcap := rfl
@[simp] theorem finishDebug_we (r : Response) (s : State) : (finish .debug r s).we = s.we := rfl
@[simp] theorem finishDebug_collab (r : Response) (s : State) : (finish .debug r s).collab = s.collab := rfl
@[simp] theorem finishDebug_port (r : Response) (s : State) : (finish .debug r s).port = s.port := rfl
@[simp] theorem finishDebug_schedule (r : Response) (s : State) : (finish .debug r s).schedule = s.schedule := rfl
@[simp] theorem finishDebug_draws (r : Response) (s : State) : (finish .debug r s).draws = s.draws := rfl

@[simp] theorem acquire_lk (t : Nat) (s : State) : (acquire t s).lk = .held t := rfl
@[simp] theorem release_lk (s : State) : (release s).lk = .free := rfl

/-- Ending a thread's command is a change of that thread. -/
@[simp] theorem finish_thread (t : Nat) (r : Response) (s : State) :
    finish (.thread t) r s = updThread t (fun th => { th with flight := none, resp := some r }) s := rfl

@[simp] theorem finish_debug_debug (r : Response) (s : State) :
    (finish .debug r s).debugger = { s.debugger with flight := none, resp := some r } := rfl

/-- A changed thread reads as changed, every other thread as before. -/
theorem updThread_getElem? (t u : Nat) (f : Thread → Thread) (s : State) :
    (updThread t f s).threads[u]? = if t = u then s.threads[u]?.map f else s.threads[u]? := by
  simp only [updThread, List.getElem?_modify]
  split
  · rfl
  · cases s.threads[u]? <;> rfl

@[simp] theorem updThread_self (t : Nat) (f : Thread → Thread) (s : State) :
    (updThread t f s).threads[t]? = s.threads[t]?.map f := by
  simp [updThread_getElem?]

theorem updThread_other {t u : Nat} (h : u ≠ t) (f : Thread → Thread) (s : State) :
    (updThread t f s).threads[u]? = s.threads[u]? := by
  simp [updThread_getElem?, Ne.symm h]

@[simp] theorem updThread_length (t : Nat) (f : Thread → Thread) (s : State) :
    (updThread t f s).threads.length = s.threads.length := by
  simp [updThread]

/-- Two changes of one thread are one change. -/
@[simp] theorem updThread_updThread (t : Nat) (f g : Thread → Thread) (s : State) :
    updThread t f (updThread t g s) = updThread t (f ∘ g) s := by
  simp [updThread, List.modify_modify_eq]

/-- A place of a list that was set reads back, every other place as before, and places beyond the end read as the filling. -/
theorem getD_putAt {α : Type} (l : List α) (i j : Nat) (x d : α) :
    (putAt l i x d).getD j d = if i = j then x else l.getD j d := by
  unfold putAt
  by_cases h : i = j
  · subst h
    have hl : i < (l ++ List.replicate (i + 1 - l.length) d).length := by simp; omega
    simp [List.getD_eq_getElem?_getD, List.getElem?_set_self hl]
  · simp only [List.getD_eq_getElem?_getD, List.getElem?_set_ne h, h, if_false]
    by_cases hj : j < l.length
    · simp [List.getElem?_append_left hj]
    · rw [List.getElem?_append_right (by omega), List.getElem?_replicate]
      have hn : l[j]? = none := List.getElem?_eq_none (by omega)
      split <;> simp [hn]

/-- Setting a place the list reaches keeps its length. -/
theorem length_putAt {α : Type} {l : List α} {i : Nat} (h : i < l.length) (x d : α) : (putAt l i x d).length = l.length := by
  simp [putAt]
  omega

/-- A written register reads back, every other register as before. -/
theorem readReg_writeReg (i j : Nat) (v : Word) (th : Thread) :
    readReg (writeReg i v th) j = if i = j then v else readReg th j := getD_putAt ..

/-- A written entry reads back, every other entry as before. -/
theorem entryAt_putEntry (i j : Nat) (e : WatchEntry) (s : State) :
    entryAt (putEntry i e s) j = if i = j then e else entryAt s j := getD_putAt ..

end Sys2Proof.Machine
end

