-- ==== Sys2Proof/Laws/Memory.lean ====
section
/-! SUPPORT. The laws of memory: a read after a write (R12), little-endian words (R50), and that every operation keeps the
canonical form. -/

namespace Sys2Proof.Machine

/-- A read after a write gives the byte written there, and every other byte as before. -/
theorem memRead_memWrite (m : Memory) (a x : Nat) (b : Byte) :
    memRead (memWrite m a b) x = if x = a then some b else memRead m x := by
  induction m with
  | nil => simp [memWrite, memRead]
  | cons c rest ih =>
    obtain ⟨k, c⟩ := c
    simp only [memWrite]
    split
    · simp [memRead]
    · split
      · subst_vars
        simp only [memRead]
        split <;> simp_all
      · simp only [memRead, ih]
        split <;> split <;> simp_all

theorem mem_memWrite {m : Memory} {a : Nat} {b : Byte} {c : Host.Cell} (h : c ∈ memWrite m a b) :
    c = (a, b) ∨ c ∈ m := by
  induction m with
  | nil => simpa [memWrite] using h
  | cons d rest ih =>
    obtain ⟨k, d⟩ := d
    simp only [memWrite] at h
    split at h
    · simpa using h
    · split at h
      · rcases List.mem_cons.1 h with h | h
        · exact .inl h
        · exact .inr (List.mem_cons_of_mem _ h)
      · rcases List.mem_cons.1 h with h | h
        · exact .inr (h ▸ List.mem_cons_self)
        · rcases ih h with h | h
          · exact .inl h
          · exact .inr (List.mem_cons_of_mem _ h)

/-- A write keeps the canonical form. -/
theorem memoryWf_memWrite {m : Memory} (h : memoryWf m) {a : Nat} (ha : a < 2 ^ 64) (b : Byte) :
    memoryWf (memWrite m a b) := by
  constructor
  · induction m with
    | nil => simp [memWrite]
    | cons c rest ih =>
      obtain ⟨k, c⟩ := c
      obtain ⟨hs, hb⟩ := h
      rw [List.pairwise_cons] at hs
      have hrest : memoryWf rest := ⟨hs.2, fun d hd => hb d (List.mem_cons_of_mem _ hd)⟩
      simp only [memWrite]
      split
      · rename_i hlt
        refine List.pairwise_cons.2 ⟨fun d hd => ?_, List.pairwise_cons.2 hs⟩
        rcases List.mem_cons.1 hd with rfl | hd
        · exact hlt
        · exact Nat.lt_trans hlt (hs.1 d hd)
      · split
        · rename_i heq
          subst heq
          exact List.pairwise_cons.2 ⟨fun d hd => hs.1 d hd, hs.2⟩
        · refine List.pairwise_cons.2 ⟨fun d hd => ?_, ih hrest⟩
          rcases mem_memWrite hd with rfl | hd
          · show k < a
            omega
          · exact hs.1 d hd
  · intro c hc
    rcases mem_memWrite hc with rfl | hc
    · exact ha
    · exact h.2 c hc

/-- Storing a value keeps the canonical form. -/
theorem memoryWf_storeWord {m : Memory} (h : memoryWf m) (a v : Word) (n : Nat) : memoryWf (storeWord m a v n) := by
  induction n with
  | zero => exact h
  | succ n ih => exact memoryWf_memWrite ih (byteAddr a n).isLt _

/-- The reset state's memory has the canonical form. -/
theorem memoryWf_reset : memoryWf State.reset.mem := by decide

/-- The byte addresses of a value of at most eight bytes are distinct. -/
theorem byteAddr_inj {a : Word} {j k : Nat} (hj : j < 8) (hk : k < 8) (h : byteAddr a j = byteAddr a k) : j = k := by
  have h' : BitVec.ofNat 64 j = BitVec.ofNat 64 k := by simpa [byteAddr] using h
  have := congrArg BitVec.toNat h'
  simp only [BitVec.toNat_ofNat] at this
  omega

/-- A stored value reads back byte by byte. -/
theorem memRead_storeWord {m : Memory} {a v : Word} {n k : Nat} (hn : n ≤ 8) (hk : k < n) :
    memRead (storeWord m a v n) (byteAddr a k).toNat = some (byteOf v k) := by
  induction n with
  | zero => omega
  | succ n ih =>
    simp only [storeWord, memRead_memWrite]
    split
    · rename_i h
      have : k = n := byteAddr_inj (a := a) (by omega) (by omega) (BitVec.eq_of_toNat_eq h)
      rw [this]
    · rename_i h
      have : k ≠ n := fun he => h (by rw [he])
      exact ih (by omega) (by omega)

/-- Every byte outside a stored value reads as before. -/
theorem memRead_storeWord_outside {m : Memory} {a v b : Word} {n : Nat} (h : outside a n b) :
    memRead (storeWord m a v n) b.toNat = memRead m b.toNat := by
  induction n with
  | zero => rfl
  | succ n ih =>
    simp only [storeWord, memRead_memWrite]
    have hb : b.toNat ≠ (byteAddr a n).toNat := fun he => h n (by omega) (BitVec.eq_of_toNat_eq he)
    rw [if_neg hb]
    exact ih fun k hk => h k (by omega)

/-- Byte `k` of a value put together byte by byte. -/
theorem or_placeByte_low (v : Word) (n : Nat) :
    (v.setWidth (8 * n)).setWidth 64 ||| placeByte (byteOf v n) n = (v.setWidth (8 * (n + 1))).setWidth 64 := by
  ext i hi
  simp only [placeByte, byteOf, BitVec.getElem_or, BitVec.getElem_setWidth, BitVec.getLsbD_setWidth,
    BitVec.getElem_shiftLeft, BitVec.getLsbD_extractLsb']
  by_cases h1 : i < 8 * n
  · have h2 : i < 8 * (n + 1) := by omega
    simp [h1, h2]
  · by_cases h2 : i < 8 * (n + 1)
    · have h3 : i - 8 * n < 8 := by omega
      have h5 : 8 * n + (i - 8 * n) = i := by omega
      simp [h1, h2, h3, h5]
    · have h3 : ¬ i - 8 * n < 8 := by omega
      simp [h1, h2, h3]

/-- A load of bytes that are those of `v` gives the low bytes of `v`, zeros above. -/
theorem loadWord_eq {m : Memory} {a v : Word} {n : Nat} (hn : n ≤ 8)
    (h : ∀ k, k < n → memRead m (byteAddr a k).toNat = some (byteOf v k)) :
    loadWord m a n = .ok ((v.setWidth (8 * n)).setWidth 64) := by
  induction n with
  | zero => simp [loadWord, BitVec.of_length_zero]
  | succ n ih =>
    have h1 := ih (by omega) fun k hk => h k (by omega)
    simp only [loadWord, h1, loadByte, h n (by omega)]
    rw [or_placeByte_low v n]

/-- A load that succeeds read bytes that all have values. -/
theorem loadWord_ok {m : Memory} {a v : Word} {n : Nat} (h : loadWord m a n = .ok v) :
    ∀ k, k < n → ∃ b, memRead m (byteAddr a k).toNat = some b := by
  induction n generalizing v with
  | zero => intro k hk; omega
  | succ n ih =>
    intro k hk
    simp only [loadWord] at h
    split at h
    · cases h
    · rename_i u hu
      by_cases hkn : k = n
      · subst hkn
        split at h
        · cases h
        · rename_i b hb
          simp only [loadByte] at hb
          split at hb
          · exact ⟨_, by assumption⟩
          · cases hb
      · exact ih hu k (by omega)

end Sys2Proof.Machine
end

