-- ==== Sys2Proof/Laws/Operands.lean ====
section
/-! SUPPORT. How an operand reads and what a write-back does to it (R22, R111, R115), and what the operation functions and the
flag register's accessors compute (R27, R116 to R119). -/

namespace Sys2Proof.Machine

theorem widthBytes_le (w : Width) : widthBytes w ≤ 8 := by cases w <;> decide
theorem widthBytes_pos (w : Width) : 0 < widthBytes w := by cases w <;> decide
theorem widthBits_le (w : Width) : widthBits w ≤ 64 := by cases w <;> decide

/-- The command of an operation and a width is run by the shared execution. -/
@[simp] theorem exec_aluInstr (op : AluOp) (w : Width) (lock : Bool) (o : Oref) (s : State) :
    exec (aluInstr op w lock o) s = runAlu op w lock o s := by
  cases op <;> cases w <;> rfl

/-- A bit of the bytes of a register value from an offset on. -/
theorem getLsbD_extractBytes (x : Word) {off n : Nat} (hn : 0 < n ∧ n ≤ 8) (i : Nat) :
    (extractBytes x off n).getLsbD i = (decide (i < 8 * n) && x.getLsbD (8 * off + i)) := by
  simp only [extractBytes, BitVec.getLsbD_and, BitVec.getLsbD_ushiftRight, BitVec.getLsbD_allOnes]
  by_cases h : i < 8 * n
  · have : 64 - 8 * n + i < 64 := by omega
    simp [h, this]
  · have : ¬ 64 - 8 * n + i < 64 := by omega
    simp [h, this]

/-- A bit of a register value with some bytes replaced. -/
theorem getLsbD_insertBytes (x r : Word) {off n : Nat} (hn : 0 < n ∧ off + n ≤ 8) {i : Nat} (hi : i < 64) :
    (insertBytes x off n r).getLsbD i =
      if 8 * off ≤ i ∧ i < 8 * (off + n) then r.getLsbD (i - 8 * off) else x.getLsbD i := by
  simp only [insertBytes, BitVec.getLsbD_or, BitVec.getLsbD_and, BitVec.getLsbD_not, BitVec.getLsbD_shiftLeft,
    BitVec.getLsbD_ushiftRight, BitVec.getLsbD_allOnes]
  by_cases h1 : i < 8 * off
  · have : ¬ (8 * off ≤ i ∧ i < 8 * (off + n)) := by omega
    simp [h1, this, hi]
  · by_cases h2 : i < 8 * (off + n)
    · have h3 : 8 * off ≤ i ∧ i < 8 * (off + n) := by omega
      have h4 : 64 - 8 * n + (i - 8 * off) < 64 := by omega
      simp [h1, h3, hi, h4]
    · have h3 : ¬ (8 * off ≤ i ∧ i < 8 * (off + n)) := by omega
      have h4 : ¬ 64 - 8 * n + (i - 8 * off) < 64 := by omega
      simp [h1, h3, hi, h4]

/-- A well-formed register operand's offset and width stay within the register (R22). -/
theorem regOffset_add_le {boff : Bool} {w : Width} (h : boff = true → w = .w8) : regOffset boff + widthBytes w ≤ 8 := by
  cases boff
  · simpa [regOffset] using widthBytes_le w
  · simp [h rfl, regOffset, widthBytes]

/-- A bit of a register value after a write-back (R115): the value's bits in its place, zeros above at width 32, else as
before. -/
theorem getLsbD_regAfterWrite (w : Width) (x r : Word) {boff : Bool} (h : boff = true → w = .w8) {i : Nat} (hi : i < 64) :
    (regAfterWrite w x (regOffset boff) r).getLsbD i =
      if 8 * regOffset boff ≤ i ∧ i < 8 * (regOffset boff + widthBytes w) then r.getLsbD (i - 8 * regOffset boff)
      else if w = .w32 then false else x.getLsbD i := by
  cases w
  case w32 =>
    have hb : boff = false := by cases boff <;> simp_all
    subst hb
    simp only [regAfterWrite, regOffset, widthBytes]
    rw [getLsbD_extractBytes _ (by omega)]
    by_cases h4 : i < 32
    · rw [getLsbD_insertBytes _ _ (by simp) (by omega)]
      simp [h4]
    · have : ¬ i < 8 * 4 := by omega
      simp [this]
  case w8 =>
    simp only [regAfterWrite]
    rw [getLsbD_insertBytes x r ⟨by omega, by cases boff <;> simp [regOffset]⟩ hi]
    simp [widthBytes]
  case w16 =>
    have hb : boff = false := by cases boff <;> simp_all
    subst hb
    simp only [regAfterWrite, regOffset, widthBytes]
    rw [getLsbD_insertBytes x r (by simp) hi]
    simp
  case w64 =>
    have hb : boff = false := by cases boff <;> simp_all
    subst hb
    simp only [regAfterWrite, regOffset, widthBytes]
    rw [getLsbD_insertBytes x r (by simp) hi]
    simp

/-- The byte of a register that reads as byte `k` of a value, for each of the operand's bytes, makes the operand read as the
value. -/
theorem loadOperand_reg {s : State} {th : Thread} {w : Width} {i : Nat} {boff : Bool} {v : BitVec (widthBits w)}
    (hv : regHolds th i boff w v) :
    loadOperand s th w (.reg i boff) = .ok (v.setWidth 64) := by
  simp only [loadOperand, Except.ok.injEq]
  apply BitVec.eq_of_getLsbD_eq
  intro j hj
  rw [getLsbD_extractBytes _ ⟨widthBytes_pos w, widthBytes_le w⟩]
  simp only [BitVec.getLsbD_setWidth, hj, decide_true, Bool.true_and]
  by_cases hjw : j < 8 * widthBytes w
  · have hb := congrArg (fun b : Byte => b.getLsbD (j % 8)) (hv (j / 8) (by omega))
    simp only [regByte, BitVec.getLsbD_extractLsb', Nat.mod_lt j (show (0 : Nat) < 8 by omega), decide_true,
      Bool.true_and] at hb
    have e1 : 8 * (regOffset boff + j / 8) + j % 8 = 8 * regOffset boff + j := by omega
    have e2 : 8 * (j / 8) + j % 8 = j := by omega
    rw [e1, e2] at hb
    simpa [hjw, readReg] using hb
  · have : ¬ j < widthBits w := hjw
    simp [hjw, BitVec.getLsbD_of_ge v j (by omega)]

/-- Memory bytes that hold a value make the operand read as the value. -/
theorem loadWord_of_memHolds {m : Memory} {w : Width} {a : Word} {v : BitVec (widthBits w)} (hv : memHolds m a w v) :
    loadWord m a (widthBytes w) = .ok (v.setWidth 64) := by
  have h := loadWord_eq (m := m) (a := a) (v := v.setWidth 64) (widthBytes_le w) fun k hk => by
    rw [hv k hk]
    congr 1
    ext j hj
    have : 8 * k + j < 64 := by have := widthBytes_le w; omega
    simp [byteOf, this]
  rw [h]
  congr 1
  ext j hj
  simp only [BitVec.getElem_setWidth, BitVec.getLsbD_setWidth]
  by_cases hjw : j < 8 * widthBytes w
  · simp [hjw, hj]
  · have : v.getLsbD j = false := BitVec.getLsbD_of_ge v j (by simpa [widthBits] using hjw)
    simp [this]

/-- An operand that holds a value loads as it (R111). -/
theorem loadOperand_of_holds {s : State} {th : Thread} {w : Width} {o : Oref} {v : BitVec (widthBits w)}
    (h : operandHolds s th w o v) : loadOperand s th w o = .ok (v.setWidth 64) := by
  cases o with
  | reg i boff => exact loadOperand_reg h.2.2
  | mem a => exact loadWord_of_memHolds h.2

/-- An operand that holds a value is well formed (R88). -/
theorem orefOk_of_holds {s : State} {th : Thread} {w : Width} {o : Oref} {v : BitVec (widthBits w)}
    (h : operandHolds s th w o v) : orefOk s w o = true := by
  cases o with
  | reg i boff =>
    obtain ⟨hi, hb, -⟩ := h
    cases boff <;> simp_all [orefOk]
  | mem a => simpa [orefOk] using h.1

/-- The result of an operation on a value read at a width is the operation on the value (R116 to R119). -/
theorem aluResult_setWidth (op : AluOp) (w : Width) (v : BitVec (widthBits w)) :
    aluResult op w (v.setWidth 64) = (aluFn op v).setWidth 64 := by
  have h : (v.setWidth 64).setWidth (widthBits w) = v := by
    rw [BitVec.setWidth_setWidth_of_le _ (widthBits_le w), BitVec.setWidth_eq]
  simp [aluResult, h]

/-- A bit of a flag register after one flag is written. -/
theorem getLsbD_setFlag (fl : Word) (i k : Nat) (v : Bool) (hi : i < 64) :
    (setFlag fl i v).getLsbD k = if k = i then v else fl.getLsbD k := by
  simp only [setFlag, BitVec.getLsbD_or, BitVec.getLsbD_and, BitVec.getLsbD_not, BitVec.getLsbD_shiftLeft]
  by_cases hk : k < 64
  · by_cases h : k = i
    · subst h
      cases v <;> simp [hk]
    · rcases Nat.lt_or_gt_of_ne h with h' | h'
      · simp [h, h', hk]
      · have h1 : ¬ k < i := by omega
        have h2 : k - i ≠ 0 := by omega
        cases v <;> simp [h, h1, h2, hk, BitVec.getLsbD_one]
  · have h : k ≠ i := by omega
    simp [hk, h, BitVec.getLsbD_of_ge fl k (by omega)]

/-- Every bit of the flag register after the six flags are written (R27). -/
theorem getLsbD_writeFlags (fl : Word) (f : FlagBits) (k : Nat) :
    (writeFlags fl f).getLsbD k =
      if k = 11 then f.of else if k = 7 then f.sf else if k = 6 then f.zf else if k = 4 then f.af
      else if k = 2 then f.pf else if k = 0 then f.cf else fl.getLsbD k := by
  simp [writeFlags, getLsbD_setFlag, cfBit, pfBit, afBit, zfBit, sfBit, ofBit]

end Sys2Proof.Machine
end

