-- ==== Sys2Proof/Laws/Alu.lean ====
section
/-! SUPPORT. What the shared execution of an ALU command can do, said once (R110, R111). -/

namespace Sys2Proof.Machine

/-- The state after a completed ALU command of thread `t` on the operand value `v` (R111). -/
theorem transformOperand_of_load {t : Nat} {th : Thread} {op : AluOp} {w : Width} {o : Oref} {s : State} {v : Word}
    (h : loadOperand s th w o = .ok v) :
    transformOperand t th op w o s =
      .next (finish (.thread t) (okWith .noResult) (storeOperand t w o (aluResult op w v) (putFlags t op w v s))) := by
  simp [transformOperand, h]

/-- With LK FREE the LOCKED path does what the others do, and LK is FREE again (R113). -/
theorem lockedTransform_free {t : Nat} {th : Thread} {op : AluOp} {w : Width} {o : Oref} {s : State}
    (h : s.lk = .free) : lockedTransform t th op w o s = transformOperand t th op w o s := by
  obtain ⟨params, threads, mem, lk, wlen, wcap, we, debug, collab, port, schedule, draws⟩ := s
  simp only at h
  subst h
  simp only [lockedTransform, transformOperand]
  have hl : loadOperand (acquire t ⟨params, threads, mem, .free, wlen, wcap, we, debug, collab, port, schedule, draws⟩) th w o
      = loadOperand ⟨params, threads, mem, .free, wlen, wcap, we, debug, collab, port, schedule, draws⟩ th w o := by
    cases o <;> rfl
  rw [hl]
  split
  · rename_i h2
    split at h2
    · cases h2
    · injection h2 with h2
      subst h2
      cases o <;> rfl
  · rename_i h2
    split at h2
    · injection h2 with h2
      subst h2
      rfl
    · cases h2
  · rename_i h2
    split at h2 <;> cases h2

/-- Every path with its lock available runs load, transform, store (R111, R112). -/
theorem executeUnaryAlu_ok {t : Nat} {th : Thread} {op : AluOp} {w : Width} {lock : Bool} {o : Oref} {s : State}
    (ho : orefOk s w o = true) (hl : lockAvailable s w lock o) :
    executeUnaryAlu t th op w lock o s = transformOperand t th op w o s := by
  simp only [executeUnaryAlu, ho, if_true]
  cases hp : pathOf s.params w lock o
  · rfl
  · exact lockedTransform_free (hl hp)
  · rfl

/-- The issuing thread, when idle, runs its command (R19, R61). -/
theorem runAlu_issues {t : Nat} {th : Thread} {op : AluOp} {w : Width} {lock : Bool} {o : Oref} {s : State}
    (h : threadIssues s t th) : runAlu op w lock o s = executeUnaryAlu t th op w lock o s := by
  obtain ⟨hp, ht, hf⟩ := h
  simp [runAlu, asThread, hp, ht, hf]

/-- An ALU command that answers next ran for a thread that issued it. -/
theorem runAlu_next {op : AluOp} {w : Width} {lock : Bool} {o : Oref} {s s' : State} (h : runAlu op w lock o s = .next s') :
    ∃ t th, threadIssues s t th ∧ executeUnaryAlu t th op w lock o s = .next s' := by
  simp only [runAlu, asThread] at h
  split at h
  · cases h
  · rename_i t hp
    split at h
    · cases h
    · rename_i th ht
      split at h
      · cases h
      · rename_i hf
        exact ⟨t, th, ⟨hp, ht, hf⟩, h⟩

/-- Everything the shared execution can answer next with: a malformed operand's status, a command that waits at Acquire, or
a completed command on the value its operand held. -/
theorem executeUnaryAlu_cases {t : Nat} {th : Thread} {op : AluOp} {w : Width} {lock : Bool} {o : Oref} {s s' : State}
    (h : executeUnaryAlu t th op w lock o s = .next s') :
    (orefOk s w o = false ∧ s' = raise (.thread t) .undef (.malformedOperand s.port.cmd) s) ∨
    (orefOk s w o = true ∧ pathOf s.params w lock o = .locked ∧ s.lk ≠ .free ∧
      s' = putFlight t { op := op, width := w, oref := o, path := .locked, phase := .acquire } s) ∨
    (orefOk s w o = true ∧ lockAvailable s w lock o ∧ ∃ v, loadOperand s th w o = .ok v ∧
      s' = finish (.thread t) (okWith .noResult) (storeOperand t w o (aluResult op w v) (putFlags t op w v s))) := by
  cases ho : orefOk s w o
  · simp only [executeUnaryAlu, ho] at h
    cases h
    exact .inl ⟨rfl, rfl⟩
  · right
    by_cases hw : pathOf s.params w lock o = .locked ∧ s.lk ≠ .free
    · left
      obtain ⟨hp, hk⟩ := hw
      cases hlk : s.lk with
      | free => exact absurd hlk hk
      | held u =>
        simp only [executeUnaryAlu, ho, if_true, hp, lockedTransform, hlk] at h
        cases h
        exact ⟨rfl, hp, by simp, rfl⟩
    · right
      have hl : lockAvailable s w lock o := fun hp => Classical.not_not.1 fun hk => hw ⟨hp, hk⟩
      rw [executeUnaryAlu_ok ho hl] at h
      cases hv : loadOperand s th w o with
      | error f => simp [transformOperand, hv] at h
      | ok v =>
        rw [transformOperand_of_load hv] at h
        cases h
        exact ⟨rfl, hl, v, rfl, rfl⟩

/-- The issuing thread after a completed command: its flags, its register if that is the operand, and OK as its answer. -/
theorem threads_after {t : Nat} {th : Thread} {op : AluOp} {w : Width} {o : Oref} {s : State} {v r : Word}
    (ht : s.threads[t]? = some th) :
    (finish (.thread t) (okWith .noResult) (storeOperand t w o r (putFlags t op w v s))).threads[t]? = some
      { th with
        flags := flagsAfter s.params.flagSem op w v th.flags
        regs := match o with
          | .reg i boff => putAt th.regs i (regAfterWrite w (readReg th i) (regOffset boff) r) 0
          | .mem _ => th.regs
        flight := none, resp := some (okWith .noResult) } := by
  cases o <;> simp [storeOperand, putFlags, writeReg, readReg, ht, updThread]

/-- Memory after a completed command (R115). -/
theorem mem_after {t : Nat} {op : AluOp} {w : Width} {o : Oref} {s : State} {v r : Word} :
    (finish (.thread t) (okWith .noResult) (storeOperand t w o r (putFlags t op w v s))).mem =
      match o with | .reg _ _ => s.mem | .mem a => storeWord s.mem a r (widthBytes w) := by
  cases o <;> rfl

/-- A completed command changes nothing that is neither its thread's nor memory (R110). -/
theorem sameBesidesThread_after (t : Nat) (op : AluOp) (w : Width) (o : Oref) (s : State) (v r : Word) :
    sameBesidesThread t s (finish (.thread t) (okWith .noResult) (storeOperand t w o r (putFlags t op w v s))) := by
  refine ⟨?_, ?_, ?_, ?_, ?_, ?_, ?_, ?_, ?_, ?_, ?_, ?_⟩
  case refine_2 => cases o <;> simp [storeOperand, putFlags, updThread]
  case refine_3 => intro u hu; cases o <;> simp [storeOperand, putFlags, updThread, Ne.symm hu]
  all_goals cases o <;> rfl

/-- The register file after a write-back (R115). -/
theorem regWritten {th : Thread} {w : Width} {i : Nat} {boff : Bool} {r : BitVec (widthBits w)} {fl : Word}
    {q : Option Response} (hb : boff = true → w = .w8) :
    let th' : Thread := { th with
      flags := fl, flight := none, resp := q
      regs := putAt th.regs i (regAfterWrite w (readReg th i) (regOffset boff) (r.setWidth 64)) 0 }
    regHolds th' i boff w r ∧
    (∀ k, k < 8 → k < regOffset boff ∨ regOffset boff + widthBytes w ≤ k →
      regByte th' i k = if w = .w32 then 0 else regByte th i k) ∧
    (∀ j, j ≠ i → th'.regs.getD j 0 = th.regs.getD j 0) := by
  intro th'
  have hle := regOffset_add_le hb
  have hb8 := widthBytes_le w
  have hbits : widthBits w = 8 * widthBytes w := rfl
  have hg : th'.regs.getD i 0 = regAfterWrite w (readReg th i) (regOffset boff) (r.setWidth 64) := by
    exact (getD_putAt ..).trans (if_pos rfl)
  refine ⟨?_, ?_, ?_⟩
  · intro k hk
    simp only [regByte, hg]
    apply BitVec.eq_of_getLsbD_eq
    intro j hj
    simp only [BitVec.getLsbD_extractLsb', hj, decide_true, Bool.true_and]
    rw [getLsbD_regAfterWrite w _ _ hb (by omega)]
    have e : 8 * (regOffset boff + k) + j - 8 * regOffset boff = 8 * k + j := by omega
    rw [if_pos (by omega), e]
    simp only [BitVec.getLsbD_setWidth]
    have : 8 * k + j < 64 := by omega
    simp [this]
  · intro k hk hk2
    simp only [regByte, hg]
    apply BitVec.eq_of_getLsbD_eq
    intro j hj
    simp only [BitVec.getLsbD_extractLsb', hj, decide_true, Bool.true_and]
    rw [getLsbD_regAfterWrite w _ _ hb (by omega), if_neg (by omega)]
    split <;> simp [readReg, hj]
  · intro j hj
    exact (getD_putAt ..).trans (if_neg (Ne.symm hj))

/-- A completed command's write-back and the rest of its thread (R110, R115). -/
theorem operandWritten_after {s : State} {t : Nat} {th : Thread} {op : AluOp} {w : Width} {o : Oref}
    {v : BitVec (widthBits w)} (ht : s.threads[t]? = some th) (h : orefOk s w o = true) (u : Word) :
    let s' := finish (.thread t) (okWith .noResult) (storeOperand t w o (v.setWidth 64) (putFlags t op w u s))
    ∃ th', s'.threads[t]? = some th' ∧ operandWritten s s' th th' w o v ∧
      th'.flags = flagsAfter s.params.flagSem op w u th.flags ∧ threadEnded th th' := by
  refine ⟨_, threads_after ht, ?_, rfl, rfl, rfl, rfl, rfl⟩
  cases o with
  | reg i boff =>
    have hb : boff = true → w = .w8 := by
      simp only [orefOk, Bool.and_eq_true] at h
      exact fun hb => by simpa [hb] using h.2
    obtain ⟨h1, h2, h3⟩ := regWritten (th := th) (r := v) (fl := flagsAfter s.params.flagSem op w u th.flags)
      (q := some (okWith .noResult)) hb
    exact ⟨h1, h2, h3, mem_after⟩
  | mem a =>
    refine ⟨?_, ?_, rfl⟩
    · intro k hk
      rw [mem_after]
      simp only
      rw [memRead_storeWord (widthBytes_le w) hk]
      congr 1
      have := widthBytes_le w
      ext j hj
      have : 8 * k + j < 64 := by omega
      simp [byteOf, this]
    · intro b hb
      rw [mem_after]
      exact memRead_storeWord_outside hb

/-- A command on an operand that holds `v`, its lock available, completes: F(op, v) is written back, the flags are those of
the evaluation, and nothing else changes (R110, R111, R115). -/
theorem exec_aluInstr_completes {s : State} {t : Nat} {th : Thread} {op : AluOp} {w : Width} {lock : Bool} {o : Oref}
    {v : BitVec (widthBits w)} (h1 : threadIssues s t th) (h2 : operandHolds s th w o v) (h3 : lockAvailable s w lock o) :
    ∃ s' th', exec (aluInstr op w lock o) s = .next s' ∧ s'.threads[t]? = some th' ∧
      operandWritten s s' th th' w o (aluFn op v) ∧
      th'.flags = flagsAfter s.params.flagSem op w (v.setWidth 64) th.flags ∧ sameBesidesThread t s s' ∧
      threadEnded th th' := by
  rw [exec_aluInstr, runAlu_issues h1, executeUnaryAlu_ok (orefOk_of_holds h2) h3,
    transformOperand_of_load (loadOperand_of_holds h2), aluResult_setWidth]
  obtain ⟨th', a, b, c, d⟩ := operandWritten_after (op := op) (v := aluFn op v) h1.2.1 (orefOk_of_holds h2) (v.setWidth 64)
  exact ⟨_, th', rfl, a, b, c, sameBesidesThread_after .., d⟩

end Sys2Proof.Machine
end

