-- ==== Sys2Proof/Laws/Watch.lean ====
section
/-! SUPPORT. What the operations of the watchpoint engine do, one lemma each (R172, R180, R183). -/

namespace Sys2Proof.Machine

/-- The debug agent, when idle, runs its command (R19, R61). -/
theorem asDebug_issues {s : State} {k : Host.Outcome State Fault Refusal} (h : debugIssues s) : asDebug s k = k := by
  simp [asDebug, h.1, h.2]

/-- A watch command that answers next was issued by the idle debug agent. -/
theorem asDebug_next {s s' : State} {k : Host.Outcome State Fault Refusal} (h : asDebug s k = .next s') :
    debugIssues s ∧ k = .next s' := by
  simp only [asDebug] at h
  split at h
  · cases h
  · rename_i hp
    split at h
    · cases h
    · rename_i hf
      exact ⟨⟨hp, hf⟩, h⟩

/-- Changing one thread of a list at a place that holds `x` puts the changed `x` there. -/
theorem modify_eq_set {α : Type} {l : List α} {t : Nat} {x : α} (f : α → α) (h : l[t]? = some x) :
    l.modify t f = l.set t (f x) := by
  obtain ⟨hl, hx⟩ := List.getElem?_eq_some_iff.1 h
  apply List.ext_getElem?
  intro i
  rw [List.getElem?_modify, List.getElem?_set]
  by_cases hi : t = i
  · subst hi
    simp [hl, hx]
  · simp [hi]

/-- The lowest disabled live entry is the one the reuse scan finds (R174). -/
theorem firstDisabled_eq_some {s : State} {i : Nat} (hi : i < s.wlen) (hd : (entryAt s i).dis = true)
    (hlow : ∀ j, j < i → (entryAt s j).dis = false) : firstDisabled s = some i := by
  rw [firstDisabled, List.find?_range_eq_some]
  exact ⟨hd, by simpa using hi, fun j hj => by simp [hlow j hj]⟩

/-- With every live entry enabled the reuse scan finds none (R174). -/
theorem firstDisabled_eq_none {s : State} (h : ∀ j, j < s.wlen → (entryAt s j).dis = false) :
    firstDisabled s = none := by
  simpa [firstDisabled] using h

/-- Growth of a used-up capacity below WMAX gives room, and no more than WMAX (R173). -/
theorem grownCapacity_bounds {wlen wmax : Nat} (h : wlen < wmax) :
    wlen < grownCapacity wlen wmax ∧ grownCapacity wlen wmax ≤ wmax := by
  simp only [grownCapacity]
  omega

/-- A WCHK over disabled entries visits nothing (R181). -/
theorem checkEntries_disabled (ea : Option Word) (s : State) (n : Nat) (h : ∀ j, j < n → (entryAt s j).dis = true) :
    checkEntries ea n s = .ok (s, none) := by
  induction n with
  | zero => rfl
  | succ n ih =>
    simp only [checkEntries, h n (by omega), if_true]
    exact ih fun j hj => h j (by omega)

/-- A WCHK passes over disabled entries at the top (R180). -/
theorem checkEntries_skip (ea : Option Word) (s : State) {i n : Nat} (hin : i < n)
    (h : ∀ j, i < j → j < n → (entryAt s j).dis = true) : checkEntries ea n s = checkEntries ea (i + 1) s := by
  induction n with
  | zero => omega
  | succ n ih =>
    by_cases hi : i = n
    · rw [hi]
    · have e : checkEntries ea (n + 1) s = checkEntries ea n s := by simp [checkEntries, h n (by omega) (by omega)]
      rw [e]
      exact ih (by omega) fun j h1 hj => h j h1 (by omega)

/-- A byte of a content read that stays in its page is not beyond it (R58). -/
theorem beyondPage_within {s : State} {a : Word} (h : withinPage s a) {k : Nat} (hk : k < 8) :
    beyondPage s.params a k = false := by
  have : a.toNat % s.params.pageSize + 8 ≤ s.params.pageSize := h
  simp only [beyondPage, decide_eq_false_iff_not]
  omega

/-- A content read that stays in its page is a plain read (R58, R183). -/
theorem contentWord_within {s : State} {a : Word} (h : withinPage s a) (n : Nat) (hn : n ≤ 8) :
    contentWord s a n = loadWord s.mem a n := by
  induction n with
  | zero => rfl
  | succ n ih =>
    simp only [contentWord, loadWord, ih (by omega), contentByte, beyondPage_within h (show n < 8 by omega)]
    rfl

/-- A content read that stays in its page uses up no draw (log 14). -/
theorem afterContentRead_within {s : State} {a : Word} (h : withinPage s a) : afterContentRead a s = s := by
  simp [afterContentRead, beyondPage_within h]

/-- Step 3 of a WCHK changes stored entries and the draw counter, and nothing else (R171, R180). -/
theorem checkEntries_frame (ea : Option Word) (n : Nat) {s s' : State} {r : Option Nat}
    (h : checkEntries ea n s = .ok (s', r)) : ∃ we draws, s' = { s with we := we, draws := draws } := by
  induction n generalizing s with
  | zero =>
    cases h
    exact ⟨_, _, rfl⟩
  | succ i ih =>
    simp only [checkEntries] at h
    split at h
    · exact ih h
    · split at h
      · cases h
        exact ⟨_, _, rfl⟩
      · split at h
        · split at h
          · cases h
          · rename_i v _
            have hn : ∃ we draws, (noteContent i v (afterContentRead (entryAt s i).addr s)).1 =
                { s with we := we, draws := draws } := by
              simp only [noteContent, afterContentRead]
              repeat' split
              all_goals exact ⟨_, _, rfl⟩
            obtain ⟨we, d, hn⟩ := hn
            split at h
            · rename_i hs
              cases h
              rw [hs] at hn
              exact ⟨we, d, hn⟩
            · rename_i s₁ hs
              rw [hs] at hn
              obtain ⟨we', d', h'⟩ := ih h
              simp only at hn
              exact ⟨we', d', by rw [h', hn]⟩
        · exact ih h

end Sys2Proof.Machine
end

