-- ==== Sys2Proof/Laws/Micro.lean ====
section
/-! SUPPORT. What one indivisible step of a command in flight can do, and what a turn can be, said once (R61 to R64, R180). -/

namespace Sys2Proof.Machine

/-- The picked byte is one still to be accessed. -/
theorem nextByte_mem {pick k : Nat} {todo : List Nat} (h : nextByte pick todo = some k) : k ∈ todo := by
  cases todo with
  | nil => cases h
  | cons a rest =>
    simp only [nextByte] at h
    split at h
    · rename_i hp
      cases h
      exact List.mem_cons_of_mem _ hp
    · cases h
      exact List.mem_cons_self

/-- A step of the operand's read: the value is known, or one more byte is read (R62). -/
theorem loadStep_cases {t : Nat} {th : Thread} {f : Flight} {todo : List Nat} {acc : Word} {pick : Nat} {s s' : State}
    (h : loadStep t th f todo acc pick s = .next s') :
    (∃ v, s' = transformed t f v s) ∨
    ∃ k acc', k ∈ todo ∧ s' = goPhase t f (.load (todo.erase k) acc') s := by
  simp only [loadStep] at h
  split at h
  · split at h
    · cases h
    · cases h
      exact .inl ⟨_, rfl⟩
  · split at h
    · rename_i hk
      split at h
      · cases h
      · split at h
        · cases h
          exact .inl ⟨_, rfl⟩
        · cases h
          exact .inr ⟨_, _, nextByte_mem hk, rfl⟩
    · cases h
      exact .inl ⟨_, rfl⟩

/-- What one step of the operand's write puts into the state: nothing, the whole operand, or one byte of it (R62). -/
theorem storeStep_cases (t : Nat) (f : Flight) (todo : List Nat) (r : Word) (pick : Nat) (s : State) :
    ∃ s₁, (s₁ = s ∨ s₁ = storeOperand t f.width f.oref r s ∨
        ∃ a k, f.oref = .mem a ∧ k ∈ todo ∧ s₁ = { s with mem := memWrite s.mem (byteAddr a k).toNat (byteOf r k) }) ∧
      (storeStep t f todo r pick s = stored t f s₁ ∨
        ∃ k, k ∈ todo ∧ storeStep t f todo r pick s = goPhase t f (.store (todo.erase k) r) s₁) := by
  simp only [storeStep]
  split
  · exact ⟨_, .inr (.inl rfl), .inl rfl⟩
  · split
    · rename_i a k ho hk
      refine ⟨_, .inr (.inr ⟨a, k, ho, nextByte_mem hk, rfl⟩), ?_⟩
      split
      · exact .inl rfl
      · exact .inr ⟨k, nextByte_mem hk, rfl⟩
    · exact ⟨s, .inl rfl, .inl rfl⟩

/-- A step of the CAS path loads, or stores, or goes round (R64). -/
theorem casLoadStep_next {t : Nat} {th : Thread} {f : Flight} {s s' : State} (h : casLoadStep t th f s = .next s') :
    ∃ v, loadOperand s th f.width f.oref = .ok v ∧ s' = goPhase t f (.casTry v) (putFlags t f.op f.width v s) := by
  simp only [casLoadStep] at h
  split at h
  · cases h
  · rename_i v hv
    cases h
    exact ⟨v, hv, rfl⟩

/-- The conditional write stores exactly where the operand still holds the value loaded (R64, R114). -/
theorem casTryStep_next {t : Nat} {th : Thread} {f : Flight} {e : Word} {s s' : State}
    (h : casTryStep t th f e s = .next s') :
    ∃ cur, loadOperand s th f.width f.oref = .ok cur ∧
      ((cur = e ∧ s' = finish (.thread t) (okWith .noResult)
          (storeOperand t f.width f.oref (aluResult f.op f.width e) s)) ∨
        (cur ≠ e ∧ s' = goPhase t f .casLoad s)) := by
  simp only [casTryStep] at h
  split at h
  · cases h
  · rename_i cur hc
    refine ⟨cur, hc, ?_⟩
    split at h
    · rename_i he
      cases h
      exact .inl ⟨he, rfl⟩
    · rename_i he
      cases h
      exact .inr ⟨he, rfl⟩

/-- A step of a content read notes the entry's content, or reads one more byte (R183). -/
theorem contentStep_next {i : Nat} {c : CheckFlight} {pick : Nat} {s s' : State}
    (h : contentStep i c pick s = .next s') :
    (∃ v, s' = checked i c v s) ∨
    ∃ k acc, k ∈ c.todo ∧ s' = putCheck { c with todo := c.todo.erase k, acc := acc } s := by
  simp only [contentStep] at h
  split at h
  · cases h
    exact .inl ⟨_, rfl⟩
  · rename_i k hk
    split at h
    · cases h
    · split at h
      · cases h
        exact .inl ⟨_, rfl⟩
      · cases h
        exact .inr ⟨_, _, nextByte_mem hk, rfl⟩

/-- A step of a WCHK ends it, goes on below the entry it stands at, or works on that entry's content (R180). -/
theorem advanceCheck_next {c : CheckFlight} {pick : Nat} {s s' : State} (h : advanceCheck c pick s = .next s') :
    (c.left = 0 ∧ s' = endCheck none s) ∨
    ∃ i, c.left = i + 1 ∧
      (s' = putCheck (belowEntry i c) s ∨ s' = endCheck (some i) s ∨ contentStep i c pick s = .next s') := by
  simp only [advanceCheck] at h
  split at h
  · rename_i h0
    cases h
    exact .inl ⟨h0, rfl⟩
  · rename_i i hi
    refine .inr ⟨i, hi, ?_⟩
    split at h
    · exact .inr (.inr h)
    · split at h
      · cases h
        exact .inl rfl
      · split at h
        · cases h
          exact .inr (.inl rfl)
        · split at h
          · exact .inr (.inr h)
          · cases h
            exact .inl rfl

/-- A thread's command in flight, where there is one. -/
theorem flightOf_eq_some {s : State} {t : Nat} {th : Thread} {f : Flight} :
    flightOf s t = some (th, f) ↔ s.threads[t]? = some th ∧ th.flight = some f := by
  simp only [flightOf]
  cases h : s.threads[t]? with
  | none => simp
  | some th' =>
    simp only [Option.map_eq_some_iff, Option.some.injEq]
    constructor
    · rintro ⟨f', hf, he⟩
      cases he
      exact ⟨rfl, hf⟩
    · rintro ⟨rfl, hf⟩
      exact ⟨f, hf, rfl⟩

/-- The turn of a thread with a command in flight is a step of that command, whatever else is in flight (R258; log 18). -/
theorem turn_inFlight {s : State} {t : Nat} {th : Thread} {f : Flight} (ht : s.threads[t]? = some th)
    (hf : th.flight = some f) (pick : Nat) (k : Instr → State → Host.Outcome State Fault Refusal) :
    turn (.thread t) pick k s = advanceThread t th f pick s := by
  simp only [turn, flightOf_eq_some.2 ⟨ht, hf⟩]

/-- What an agent's turn can be: nothing (an idle thread being checked), a step of its command in flight, or its next command
(R61). -/
theorem turn_cases {a : Agent} {pick : Nat} {k : Instr → State → Host.Outcome State Fault Refusal} {s s' : State}
    (h : turn a pick k s = .next s') :
    s' = s ∨
    (∃ t th f, a = .thread t ∧ s.threads[t]? = some th ∧ th.flight = some f ∧ advanceThread t th f pick s = .next s') ∨
    (∃ c, a = .debug ∧ s.debugger.flight = some c ∧ advanceCheck c pick s = .next s') ∨
    issue a k s = .next s' := by
  cases a with
  | thread t =>
    simp only [turn] at h
    split at h
    · rename_i th f hf
      obtain ⟨ht, hf⟩ := flightOf_eq_some.1 hf
      exact .inr (.inl ⟨t, th, f, rfl, ht, hf, h⟩)
    · split at h
      · cases h
        exact .inl rfl
      · exact .inr (.inr (.inr h))
  | debug =>
    simp only [turn] at h
    split at h
    · rename_i c hc
      exact .inr (.inr (.inl ⟨c, rfl, hc, h⟩))
    · exact .inr (.inr (.inr h))

/-- What issuing can be: an empty stream, or the next command taken from it, run by `k` or, if reserved, ended with UNDEF
(R61, R94, R221). -/
theorem issue_cases {a : Agent} {k : Instr → State → Host.Outcome State Fault Refusal} {s s' : State}
    (h : issue a k s = .next s') :
    s' = s ∨ ∃ p s₁, takeCommand a s = some (p, s₁) ∧
      ((∃ i, decode p = .ok i ∧ k i s₁ = .next s') ∨
        (∃ e, decode p = .error e) ∧ s' = raise s₁.port.agent .undef (.reservedCmd p.cmd) s₁) := by
  simp only [issue] at h
  split at h
  · cases h
    exact .inl rfl
  · rename_i p s₁ hp
    refine .inr ⟨p, s₁, hp, ?_⟩
    simp only [runCommand] at h
    split at h
    · rename_i i hi
      exact .inl ⟨i, hi, h⟩
    · rename_i e he
      cases h
      exact .inr ⟨⟨e, he⟩, rfl⟩

/-- Taking a command changes the agent's stream and the latch, and nothing else (R80). -/
theorem takeCommand_thread {t : Nat} {s s₁ : State} {p : PortWord} (h : takeCommand (.thread t) s = some (p, s₁)) :
    ∃ th rest, s.threads[t]? = some th ∧ th.queue = p :: rest ∧
      s₁ = { s with
        threads := s.threads.set t { th with queue := rest }
        port := { agent := .thread t, cmd := p.cmd } } := by
  simp only [takeCommand] at h
  split at h
  · cases h
  · rename_i th ht
    split at h
    · cases h
    · rename_i q rest hq
      simp only [Option.some.injEq, Prod.mk.injEq] at h
      obtain ⟨rfl, rfl⟩ := h
      exact ⟨th, rest, ht, hq, by simp only [updThread, modify_eq_set _ ht]⟩

/-- Taking a watch command changes the debug agent's stream and the latch, and nothing else (R80). -/
theorem takeCommand_debug {s s₁ : State} {p : PortWord} (h : takeCommand .debug s = some (p, s₁)) :
    ∃ rest, s.debugger.queue = p :: rest ∧
      s₁ = { s with
        debugger := { s.debugger with queue := rest }
        port := { agent := .debug, cmd := p.cmd } } := by
  simp only [takeCommand] at h
  split at h
  · cases h
  · rename_i q rest hq
    simp only [Option.some.injEq, Prod.mk.injEq] at h
    obtain ⟨rfl, rfl⟩ := h
    exact ⟨rest, hq, rfl⟩

/-- Whoever begins an ALU command is an idle thread, and it is in flight from its first step, or malformed (R111). -/
theorem beginAlu_next {op : AluOp} {w : Width} {lock : Bool} {o : Oref} {s s' : State}
    (h : beginAlu op w lock o s = .next s') :
    ∃ t th, threadIssues s t th ∧
      ((orefOk s w o = true ∧ s' = putFlight t
          { op := op, width := w, oref := o
            path := pathOf s.params w lock o
            phase := firstPhase w (pathOf s.params w lock o) } s) ∨
        (orefOk s w o = false ∧ s' = raise (.thread t) .undef (.malformedOperand s.port.cmd) s)) := by
  simp only [beginAlu, asThread] at h
  split at h
  · cases h
  · rename_i t hp
    split at h
    · cases h
    · rename_i th ht
      split at h
      · cases h
      · rename_i hf
        refine ⟨t, th, ⟨hp, ht, hf⟩, ?_⟩
        split at h
        · rename_i ho
          cases h
          exact .inl ⟨ho, rfl⟩
        · rename_i ho
          cases h
          exact .inr ⟨by simpa using ho, rfl⟩

end Sys2Proof.Machine
end

