-- ==== Sys2Proof/Laws/PerInstr.lean ====
section
/-! SUPPORT. A statement about every command as syntax, proved constructor by constructor: an ALU command is the one its parts
name, and a watch command has no parts (R82, R86, R93). -/

namespace Sys2Proof.Laws.AluParts

/-- The parts of an ALU command name it, and its encoding's CLASS says whether it has parts. -/
def Statement (i : Instr) : Prop :=
  (∀ op w lock o, aluParts i = some (op, w, lock, o) → aluInstr op w lock o = i ∧ i.wf = o.wf w) ∧
  ((encode i).cmd.getLsbD 6 = (aluParts i).isNone)

/-- An ALU command word has CLASS 00 (R82). -/
theorem class_of_alu (op : AluOp) (w : Width) (lock : Bool) :
    (lockCode lock ||| widthCode w ||| opCode op).getLsbD 6 = false := by
  cases op <;> cases w <;> cases lock <;> decide

/-- The statement of an ALU command, from its parts. -/
theorem of_parts (op : AluOp) (w : Width) (lock : Bool) (o : Oref) : Statement (aluInstr op w lock o) := by
  refine ⟨?_, ?_⟩
  · intro op' w' lock' o' h
    cases op <;> cases w <;> cases h <;> exact ⟨rfl, rfl⟩
  · cases op <;> cases w <;> exact class_of_alu _ _ lock

theorem notB (lock : Bool) (o : Oref) : Statement (.notB lock o) := of_parts .not .w8 lock o
theorem notW (lock : Bool) (o : Oref) : Statement (.notW lock o) := of_parts .not .w16 lock o
theorem notD (lock : Bool) (o : Oref) : Statement (.notD lock o) := of_parts .not .w32 lock o
theorem notQ (lock : Bool) (o : Oref) : Statement (.notQ lock o) := of_parts .not .w64 lock o
theorem negB (lock : Bool) (o : Oref) : Statement (.negB lock o) := of_parts .neg .w8 lock o
theorem negW (lock : Bool) (o : Oref) : Statement (.negW lock o) := of_parts .neg .w16 lock o
theorem negD (lock : Bool) (o : Oref) : Statement (.negD lock o) := of_parts .neg .w32 lock o
theorem negQ (lock : Bool) (o : Oref) : Statement (.negQ lock o) := of_parts .neg .w64 lock o
theorem incB (lock : Bool) (o : Oref) : Statement (.incB lock o) := of_parts .inc .w8 lock o
theorem incW (lock : Bool) (o : Oref) : Statement (.incW lock o) := of_parts .inc .w16 lock o
theorem incD (lock : Bool) (o : Oref) : Statement (.incD lock o) := of_parts .inc .w32 lock o
theorem incQ (lock : Bool) (o : Oref) : Statement (.incQ lock o) := of_parts .inc .w64 lock o
theorem decB (lock : Bool) (o : Oref) : Statement (.decB lock o) := of_parts .dec .w8 lock o
theorem decW (lock : Bool) (o : Oref) : Statement (.decW lock o) := of_parts .dec .w16 lock o
theorem decD (lock : Bool) (o : Oref) : Statement (.decD lock o) := of_parts .dec .w32 lock o
theorem decQ (lock : Bool) (o : Oref) : Statement (.decQ lock o) := of_parts .dec .w64 lock o

theorem wadd (e : WatchEntry) : Statement (.wadd e) := ⟨(by intro _ _ _ _ h; cases h), by simp [encode, aluParts]⟩
theorem wrem : Statement .wrem := ⟨(by intro _ _ _ _ h; cases h), by simp [encode, aluParts]⟩
theorem wchk : Statement .wchk := ⟨(by intro _ _ _ _ h; cases h), by simp [encode, aluParts]⟩
theorem wdis (idx : Index) : Statement (.wdis idx) := ⟨(by intro _ _ _ _ h; cases h), by simp [encode, aluParts]⟩
theorem wrd (idx : Index) : Statement (.wrd idx) := ⟨(by intro _ _ _ _ h; cases h), by simp [encode, aluParts]⟩

end Sys2Proof.Laws.AluParts
end

