-- ==== Sys2Proof/Tests/Slice0.lean ====
section
/-! SUPPORT. Tests: what WellFormed refuses; every command's decoding from words written out by 30_encoding.md; one step of
each command against the spec's own examples (40_unary_alu.md, 95_test_vectors.md); and, for every obligation with hypotheses,
a state that meets them all. -/

namespace Sys2Proof.Tests

open Sys2Proof.Machine

/-! ## WellFormed -/

theorem test_wf_refuses_register_16 : (Instr.notD false (.reg 16 false)).wf = false := by decide
theorem test_wf_refuses_high_byte_at_width_16 : (Instr.incW false (.reg 0 true)).wf = false := by decide
theorem test_wf_refuses_high_byte_at_width_64 : (Instr.negQ true (.reg 0 true)).wf = false := by decide
theorem test_wf_accepts_high_byte_at_width_8 : (Instr.incB false (.reg 15 true)).wf = true := by decide

/-! ## Decoding: words by R82 to R94, register 5, lock bit once set and once clear -/

/-- The word `c` with register 5, byte offset 0. -/
def onR5 (c : CommandWord) : PortWord := { cmd := c, ops := { zeroBundle with reg := 0b0101 } }

theorem test_decode_notB : decode (onR5 0b00000100) = .ok (.notB false (.reg 5 false)) := by decide
theorem test_decode_notB_markers_ignored : decode (onR5 0b00011100) = .ok (.notB false (.reg 5 false)) := by decide
theorem test_decode_notW : decode (onR5 0b00110000) = .ok (.notW true (.reg 5 false)) := by decide
theorem test_decode_notD : decode (onR5 0b00000000) = .ok (.notD false (.reg 5 false)) := by decide
theorem test_decode_notQ : decode (onR5 0b00101000) = .ok (.notQ true (.reg 5 false)) := by decide
theorem test_decode_notQ_w_wins : decode (onR5 0b00011000) = .ok (.notQ false (.reg 5 false)) := by decide
theorem test_decode_negB : decode (onR5 0b00100101) = .ok (.negB true (.reg 5 false)) := by decide
theorem test_decode_negW : decode (onR5 0b00110001) = .ok (.negW true (.reg 5 false)) := by decide
theorem test_decode_negD : decode (onR5 0b00000001) = .ok (.negD false (.reg 5 false)) := by decide
theorem test_decode_negQ : decode (onR5 0b00001001) = .ok (.negQ false (.reg 5 false)) := by decide
theorem test_decode_incB : decode (onR5 0b00000110) = .ok (.incB false (.reg 5 false)) := by decide
theorem test_decode_incW : decode (onR5 0b00010010) = .ok (.incW false (.reg 5 false)) := by decide
theorem test_decode_incD : decode (onR5 0b00100010) = .ok (.incD true (.reg 5 false)) := by decide
theorem test_decode_incQ : decode (onR5 0b00101010) = .ok (.incQ true (.reg 5 false)) := by decide
theorem test_decode_decB : decode (onR5 0b00111111) = .ok (.decB true (.reg 5 false)) := by decide
theorem test_decode_decW : decode (onR5 0b00010011) = .ok (.decW false (.reg 5 false)) := by decide
theorem test_decode_decD : decode (onR5 0b00100011) = .ok (.decD true (.reg 5 false)) := by decide
theorem test_decode_decQ : decode (onR5 0b00001011) = .ok (.decQ false (.reg 5 false)) := by decide
theorem test_decode_memory_operand :
    decode { cmd := 0b00101010, ops := { zeroBundle with kind := 1, addr := 0x1000 } } = .ok (.incQ true (.mem 0x1000)) := by
  decide
theorem test_decode_wadd :
    decode { cmd := 0b01000000, ops := { zeroBundle with addr := 0x2000, prior := 0x10, init := 1, dis := 1 } } =
      .ok (.wadd { addr := 0x2000, prior := 0x10, init := true, dis := true }) := by decide
theorem test_decode_wrem : decode { cmd := 0b01000001, ops := zeroBundle } = .ok .wrem := by decide
theorem test_decode_wchk : decode { cmd := 0b01000010, ops := zeroBundle } = .ok .wchk := by decide
theorem test_decode_wdis : decode { cmd := 0b01000011, ops := { zeroBundle with idx := 5 } } = .ok (.wdis 5) := by decide
theorem test_decode_wrd : decode { cmd := 0b01000100, ops := { zeroBundle with idx := 7 } } = .ok (.wrd 7) := by decide
theorem test_reserved_wop_101 : decode (onR5 0b01000101) = .error .reservedOperation := by decide
theorem test_reserved_wop_111 : decode (onR5 0b01000111) = .error .reservedOperation := by decide
theorem test_reserved_rsv : decode (onR5 0b01001000) = .error .reservedField := by decide
theorem test_reserved_class_10 : decode (onR5 0b10000000) = .error .reservedClass := by decide
theorem test_reserved_class_11 : decode (onR5 0b11111111) = .error .reservedClass := by decide
theorem test_table_word_decodes : decodeTableWord 8 0x2A = some (.incQ true (.reg 0 false)) := by decide
theorem test_table_word_reserved : decodeTableWord 8 0x80 = none := by decide

/-! ## One step of each command -/

/-- A thread with one register and FLAGS set. -/
def thr (i : Nat) (x fl : Word) : Thread := { resetThread with regs := putAt resetThread.regs i x 0, flags := fl }

/-- Thread 0 issues an ALU command, with one register, FLAGS and memory set. -/
def cpu (i : Nat) (x fl : Word) (m : Memory := []) : State := { State.reset with threads := [thr i x fl], mem := m }

/-- One observation of a next state. -/
def see {α : Type} (f : State → α) (r : Host.Outcome State Fault Refusal) : Option α :=
  match r with
  | .next s => some (f s)
  | .fault _ => none
  | .refused _ => none

/-- Register `i` and FLAGS of thread 0. -/
def seeReg (i : Nat) (s : State) : Word × Word :=
  match s.threads with
  | th :: _ => (th.regs.getD i 0, th.flags)
  | [] => (0, 0)

/-- FLAGS of thread 0, and memory. -/
def seeMem (s : State) : Word × Memory := ((seeReg 0 s).2, s.mem)

/-- The bits of FLAGS that are set, by position (R27). -/
def bits (l : List Nat) : Word := l.foldl (fun a k => a ||| (1#64 <<< k)) 0

/-- R120's example. -/
theorem test_notB : see (seeReg 0) (exec (.notB false (.reg 0 true)) (cpu 0 0x12F0 0x8D5)) = some (0xEDF0, 0x8D5) := by decide
/-- R121's example. -/
theorem test_notW : see seeMem (exec (.notW false (.mem 0x1000)) (cpu 0 0 0 [(0x1000, 0x34), (0x1001, 0x12)])) =
    some (0, [(0x1000, 0xCB), (0x1001, 0xED)]) := by decide
/-- R122's example. -/
theorem test_notD : see (seeReg 1) (exec (.notD false (.reg 1 false)) (cpu 1 0xFFFFFFFF000000FF 1)) =
    some (0x00000000FFFFFF00, 1) := by decide
/-- Vector Z3: the zero fill on the CAS path. -/
theorem test_lock_notD : see (seeReg 1) (exec (.notD true (.reg 1 false)) (cpu 1 0xAAAAAAAA00000000 1)) =
    some (0x00000000FFFFFFFF, 1) := by decide
/-- R123's example. -/
theorem test_notQ : see (seeReg 2) (exec (.notQ false (.reg 2 false)) (cpu 2 0 0)) = some (0xFFFFFFFFFFFFFFFF, 0) := by decide
/-- R124's example: the most negative value. -/
theorem test_negB : see seeMem (exec (.negB false (.mem 0x2000)) (cpu 0 0 0 [(0x2000, 0x80)])) =
    some (bits [0, 7, 11], [(0x2000, 0x80)]) := by decide
/-- R125's example. -/
theorem test_negW : see (seeReg 3) (exec (.negW false (.reg 3 false)) (cpu 3 0xAAAA0001 0)) =
    some (0xAAAAFFFF, bits [0, 2, 4, 7]) := by decide
/-- R126's example: CF is cleared at 0. -/
theorem test_negD : see (seeReg 4) (exec (.negD false (.reg 4 false)) (cpu 4 0xDEADBEEF00000000 1)) =
    some (0, bits [2, 6]) := by decide
/-- R127's example. -/
theorem test_negQ : see (seeReg 5) (exec (.negQ false (.reg 5 false)) (cpu 5 1 0)) =
    some (0xFFFFFFFFFFFFFFFF, bits [0, 2, 4, 7]) := by decide
/-- R128's example, CF set before (V114). -/
theorem test_incB : see (seeReg 0) (exec (.incB false (.reg 0 false)) (cpu 0 0x01FF 1)) =
    some (0x0100, bits [0, 2, 4, 6]) := by decide
/-- Vector Z7: the high byte alone. -/
theorem test_incB_high : see (seeReg 2) (exec (.incB false (.reg 2 true)) (cpu 2 0xFF12 0)) =
    some (0x12, bits [2, 4, 6]) := by decide
/-- R129's example. -/
theorem test_incW : see seeMem (exec (.incW false (.mem 0x3000)) (cpu 0 0 0 [(0x3000, 0xFF), (0x3001, 0x7F)])) =
    some (bits [2, 4, 7, 11], [(0x3000, 0x00), (0x3001, 0x80)]) := by decide
/-- R130's example. -/
theorem test_incD : see (seeReg 6) (exec (.incD false (.reg 6 false)) (cpu 6 0x12345678FFFFFFFF 0)) =
    some (0, bits [2, 4, 6]) := by decide
/-- Step 1 of program P1, with a bit of FLAGS that is no arithmetic flag set. -/
theorem test_incQ : see seeMem (exec (.incQ true (.mem 0x1000)) (cpu 0 0 (bits [0, 9])
      [(0x1000, 0x29), (0x1001, 0), (0x1002, 0), (0x1003, 0), (0x1004, 0), (0x1005, 0), (0x1006, 0), (0x1007, 0)])) =
    some (bits [0, 9],
      [(0x1000, 0x2A), (0x1001, 0), (0x1002, 0), (0x1003, 0), (0x1004, 0), (0x1005, 0), (0x1006, 0), (0x1007, 0)]) := by
  decide
/-- R132's example. -/
theorem test_decB : see seeMem (exec (.decB false (.mem 0x2001)) (cpu 0 0 0 [(0x2001, 0)])) =
    some (bits [2, 4, 7], [(0x2001, 0xFF)]) := by decide
/-- R133's example. -/
theorem test_decW : see (seeReg 7) (exec (.decW false (.reg 7 false)) (cpu 7 0x8000 0)) =
    some (0x7FFF, bits [2, 4, 11]) := by decide
/-- R134's example: byte 4 is untouched. -/
theorem test_decD : see seeMem (exec (.decD false (.mem 0x4000))
      (cpu 0 0 0 [(0x4000, 1), (0x4001, 0), (0x4002, 0), (0x4003, 0), (0x4004, 0xAA)])) =
    some (bits [2, 6], [(0x4000, 0), (0x4001, 0), (0x4002, 0), (0x4003, 0), (0x4004, 0xAA)]) := by decide
/-- R135's example. -/
theorem test_decQ : see (seeReg 8) (exec (.decQ false (.reg 8 false)) (cpu 8 0x8000000000000000 0)) =
    some (0x7FFFFFFFFFFFFFFF, bits [2, 4, 11]) := by decide

/-- The status and info on thread 0's result port. -/
def seeStatus (s : State) : Option (Status × Info) :=
  match s.threads with
  | th :: _ => th.resp.map fun r => (r.status, r.info)
  | [] => none

/-- Vector M1. -/
theorem test_malformed_high_byte : see seeStatus (exec (.incW false (.reg 0 true)) (cpu 0 0 0)) =
    some (some (.undef, .malformedOperand 0)) := by decide
/-- Vector M3: LK is not acquired. -/
theorem test_malformed_unresolved :
    see (fun s => (seeStatus s, s.lk)) (exec (.incQ true (.mem 0x9000))
      { cpu 0 0 0 with collab := { State.reset.collab with unresolved := [{ base := 0x9000, size := 1 }] } }) =
    some (some (.undef, .malformedOperand 0), .free) := by decide
/-- R251: a byte with no value. -/
theorem test_load_of_valueless_byte :
    (match exec (.incW false (.mem 0x10)) (cpu 0 0 0 [(0x10, 1)]) with | .fault f => some f | _ => none) =
      some (.memoryNoValue 0x11) := by decide

/-- Vector M2. -/
theorem test_malformed_register : see seeStatus (exec (.notD false (.reg 16 false)) (cpu 0 0 0)) =
    some (some (.undef, .malformedOperand 0)) := by decide
/-- R8, R20: with NREG = 8 register 8 is none. -/
theorem test_malformed_register_nreg_8 :
    see seeStatus (exec (.notD false (.reg 8 false)) { cpu 0 0 0 with params := { Config.defaults with nreg := 8 } }) =
    some (some (.undef, .malformedOperand 0)) := by decide

/-! ### Watch commands -/

/-- A fresh entry, the pseudo-instruction WATCH (R102). -/
def fresh (a : Word) : WatchEntry := { addr := a, prior := 0, init := false, dis := false }

/-- What the decoder answers at pc 0, and EffectiveAddress with pc reading `len` (the vectors' dec and ea). -/
def pins (ok hasMem : Bool) (len : Nat) (ea : Word) : Collab :=
  { State.reset.collab with
    decodePins := [(0, { ok := ok, hasMem := hasMem, len := len, d := 0 })]
    addrPins := [((BitVec.ofNat 64 len, 0), ea)] }

/-- The debug agent issues a watch command over live entries, memory, and a decoded instruction. -/
def dbg (es : List WatchEntry) (m : Memory := []) (c : Collab := pins true false 1 0) : State :=
  { State.reset with
    we := es, wlen := es.length, wcap := es.length, mem := m, collab := c
    port := { agent := .debug, cmd := 0 } }

/-- An enabled entry that has been seeded with `v`. -/
def seeded (a v : Word) : WatchEntry := { fresh a with prior := v, init := true }

/-- The debug agent's result, the counters and the entries. -/
def seeWatch (s : State) : Option Response × Index × Index × List WatchEntry := (s.debugger.resp, s.wlen, s.wcap, s.we)

/-- Eight bytes at an address, the first one given, the others zero. -/
def word8 (a : Nat) (b : Byte) : Memory :=
  [(a, b), (a + 1, 0), (a + 2, 0), (a + 3, 0), (a + 4, 0), (a + 5, 0), (a + 6, 0), (a + 7, 0)]

/-- Vector W4: the disabled slot 0 is reused. -/
theorem test_wadd_reuses : see seeWatch (exec (.wadd (fresh 0x20)) (dbg [{ fresh 0x10 with dis := true }, fresh 0x18])) =
    some (some (okWith (.index 0)), 2, 2, [fresh 0x20, fresh 0x18]) := by decide
/-- Vector E4: growth from 3 to 4. -/
theorem test_wadd_grows : see seeWatch (exec (.wadd (fresh 0x28)) (dbg [fresh 0x10, fresh 0x18, fresh 0x20])) =
    some (some (okWith (.index 3)), 4, 4, [fresh 0x10, fresh 0x18, fresh 0x20, fresh 0x28]) := by decide
/-- Vector W14's last command. -/
theorem test_wrem : see seeWatch (exec .wrem (dbg [fresh 0x40, fresh 0x18, fresh 0x20])) =
    some (some (okWith .noResult), 2, 3, [fresh 0x40, fresh 0x18, fresh 0x20]) := by decide
/-- Vector W9, the first WCHK: of two watches on one address the higher index is reported. -/
theorem test_wchk_content :
    see seeWatch (exec .wchk (dbg [{ fresh 0x2000 with prior := 0x11, init := true },
      { fresh 0x2000 with prior := 0x11, init := true }] (word8 0x2000 0x12))) =
    some (some (okWith (.index 1)), 2, 2, [{ fresh 0x2000 with prior := 0x11, init := true },
      { fresh 0x2000 with prior := 0x12, init := true }]) := by decide
/-- Vector W8: an address hit on an entry that is not initialised; it is not seeded. -/
theorem test_wchk_address : see seeWatch (exec .wchk (dbg [fresh 0x3000] [] (pins true true 4 0x3000))) =
    some (some (okWith (.index 0)), 1, 1, [fresh 0x3000]) := by decide
/-- Vector W13's first two commands: index 1 is not live. -/
theorem test_wdis_not_live : see seeWatch (exec (.wdis 1) (dbg [fresh 0x10])) =
    some (some (failWith .watchIndex (.index 1)), 1, 1, [fresh 0x10]) := by decide
/-- Vector W13's third command. -/
theorem test_wdis : see seeWatch (exec (.wdis 0) (dbg [fresh 0x10])) =
    some (some (okWith .noResult), 1, 1, [{ fresh 0x10 with dis := true }]) := by decide
/-- R190's example. -/
theorem test_wrd : see (fun s => s.debugger.resp) (exec (.wrd 0) (dbg [{ fresh 0x2000 with prior := 0x11, init := true }])) =
    some (some (okWith (.read
      { wlen := 1, wcap := 1, valid := true, addr := 0x2000, prior := 0x11, init := true, dis := false }))) := by decide
/-- Vector W16. -/
theorem test_wrd_not_live : see (fun s => s.debugger.resp) (exec (.wrd 0xFFFFFFFF) (dbg [fresh 0x10])) =
    some (some (okWith (.read
      { wlen := 1, wcap := 1, valid := false, addr := 0, prior := 0, init := false, dis := false }))) := by decide

/-- R8, D18, D22: with IDXW = 2 the bound is 3 entries, and NOT_FOUND is 3. -/
theorem test_index_width_2 :
    let s := { dbg [fresh 1, fresh 2, fresh 3] with params := { Config.defaults with idxw := 2 } }
    see (fun s => s.debugger.resp) (exec (.wadd (fresh 4)) s) = some (some (failWith .watchFull .noInfo)) ∧
    see (fun s => s.debugger.resp) (exec .wchk { s with wlen := 0 }) = some (some (okWith (.index 3))) := by decide

/-! ### The step, and the words the host places -/

/-- A placed NOT.B runs as the first command after reset. -/
theorem test_placed_alu_word_runs : see (seeReg 0) (step (State.reset.withFetchWord 8 0x04)) = some (0xFF, 0) := by decide
/-- A placed WREM runs as the first command after reset. -/
theorem test_placed_watch_word_runs :
    see (fun s => s.debugger.resp) (step (State.reset.withFetchWord 8 0x41)) = some (some (okWith .noResult)) := by decide
/-- A placed reserved word ends with UNDEF carrying it (vector M5). -/
theorem test_placed_reserved_word :
    see seeStatus (step (State.reset.withFetchWord 8 0x80)) = some (some (.undef, .reservedCmd 0x80)) := by decide

/-! ## Witnesses: for each obligation with hypotheses, states and operands that meet them all -/

/-- A state whose thread 0 holds a command in flight. -/
def flying (f : Flight) (m : Memory) (lk : Lock) : State :=
  { cpu 0 0 0 m with threads := [{ thr 0 0 0 with flight := some f }], lk := lk }

/-- A state whose thread 0 has `p` in its stream and its whole turn next. -/
def queued (p : PortWord) : State :=
  { cpu 0 7 0 with threads := [{ thr 0 7 0 with queue := [p] }], schedule := [.whole (.thread 0)] }

/-- A state whose debug agent has `p` in its stream and its whole turn next. -/
def queuedDebug (p : PortWord) : State :=
  { dbg [fresh 0x10] with
    debugger := { tdbg := 0, queue := [p], flight := none, resp := none }, schedule := [.whole .debug] }

/-- The same state with a WCHK of thread `u` in flight. -/
def whileChecking (u : Nat) (s : State) : State :=
  putCheck { thread := u, left := 1, ea := none, todo := contentBytes, acc := 0 } s

theorem witness_DecodeOfEncodeIsIdentity : (Instr.incB true (.reg 15 true)).wf = true ∧ (Instr.wrem).wf = true := by decide

theorem witness_DecodedCommandsReencode :
    decode (onR5 0x0C) = .ok (.notB false (.reg 5 false)) ∧
    (decode (onR5 0x41) = .ok .wrem ∧ aluParts .wrem = none) := by decide

theorem witness_AluWordsDecodeByTheirBits : (onR5 0x3F).cmd.toNat < 0x40 ∧ (onR5 0x00).cmd.toNat < 0x40 := by decide

/-- With a WCHK of thread 1 in flight. -/
theorem witness_StepRunsTheDecodedCommand_thread :
    let s := whileChecking 1 (queued (onR5 0x02))
    s.schedule = [.whole (.thread 0)] ∧ s.threads[0]? = some { thr 0 7 0 with queue := [onR5 0x02] } ∧
    (thr 0 7 0).flight = none ∧ (∀ c, s.debugger.flight = some c → c.thread ≠ 0) ∧
    decode (onR5 0x02) = .ok (.incD false (.reg 5 false)) :=
  ⟨rfl, rfl, rfl, (by rintro c hc; cases hc; decide), rfl⟩

theorem witness_StepRunsTheDecodedCommand_debug :
    (queuedDebug (onR5 0x41)).schedule = [.whole .debug] ∧ (queuedDebug (onR5 0x41)).debugger.flight = none ∧
    (queuedDebug (onR5 0x41)).debugger.queue = [onR5 0x41] ∧ decode (onR5 0x41) = .ok .wrem := by decide

theorem witness_ReservedWordEndsWithUndef_thread :
    let s := queued (onR5 0x45)
    s.schedule = [.whole (.thread 0)] ∧ s.threads[0]? = some { thr 0 7 0 with queue := [onR5 0x45] } ∧
    (thr 0 7 0).flight = none ∧ (∀ c, s.debugger.flight = some c → c.thread ≠ 0) ∧ 0x45 ≤ (onR5 0x45).cmd.toNat :=
  ⟨rfl, rfl, rfl, (by rintro c hc; cases hc), (by decide)⟩

/-- Vector W23. -/
theorem witness_ReservedWordEndsWithUndef_debug :
    let s := queuedDebug (onR5 0x45)
    s.schedule = [.whole .debug] ∧ s.debugger.flight = none ∧ s.debugger.queue = [onR5 0x45] ∧
    0x45 ≤ (onR5 0x45).cmd.toNat := by decide

theorem witness_NonOkStatusChangesNothing_thread :
    (cpu 0 0 0).port.agent = .thread 0 ∧ (cpu 0 0 0).threads[0]? = some (thr 0 0 0) ∧
    ∃ s' th', exec (.incW false (.reg 0 true)) (cpu 0 0 0) = .next s' ∧ s'.threads[0]? = some th' ∧ th'.flight = none ∧
      th'.resp = some (failWith .undef (.malformedOperand 0)) := ⟨rfl, rfl, _, _, rfl, rfl, rfl, rfl⟩

theorem witness_NonOkStatusChangesNothing_debug :
    (dbg [fresh 0x10]).port.agent = .debug ∧ ∃ s', exec (.wdis 1) (dbg [fresh 0x10]) = .next s' ∧
      s'.debugger.resp = some (failWith .watchIndex (.index 1)) := ⟨rfl, _, rfl, rfl⟩

theorem witness_WrongAgentIsRefused :
    (aluParts (.notB false (.reg 0 false)) ≠ none ∧ (dbg []).port.agent = .debug) ∧
    (aluParts .wrem = none ∧ (cpu 0 0 0).port.agent = .thread 0) := by decide

/-- NOT, NEG, INC and DEC results, flags and inverse laws: a register operand, its high byte at width 8. -/
theorem witness_alu_register :
    threadIssues (cpu 2 0xFF12 0) 0 (thr 2 0xFF12 0) ∧ operandHolds (cpu 2 0xFF12 0) (thr 2 0xFF12 0) .w8 (.reg 2 true) 0xFF ∧
    lockAvailable (cpu 2 0xFF12 0) .w8 true (.reg 2 true) ∧ (cpu 2 0xFF12 0).params.flagSem = .x86 := by decide

/-- The same: a memory operand on the LOCKED path, holding the most negative value, LK FREE. -/
theorem witness_alu_memory :
    let s := cpu 0 0 0 [(0x5001, 0x00), (0x5002, 0x80)]
    threadIssues s 0 (thr 0 0 0) ∧ operandHolds s (thr 0 0 0) .w16 (.mem 0x5001) 0x8000 ∧
    pathOf s.params .w16 true (.mem 0x5001) = .locked ∧ lockAvailable s .w16 true (.mem 0x5001) ∧
    s.params.flagSem = .x86 := by decide

/-- The same: a 32-bit register whose upper half is not zero. -/
theorem witness_alu_register_32 :
    threadIssues (cpu 1 0xAAAAAAAA00000000 0) 0 (thr 1 0xAAAAAAAA00000000 0) ∧
    operandHolds (cpu 1 0xAAAAAAAA00000000 0) (thr 1 0xAAAAAAAA00000000 0) .w32 (.reg 1 false) 0 ∧
    lockAvailable (cpu 1 0xAAAAAAAA00000000 0) .w32 true (.reg 1 false) := by decide

theorem witness_InverseLawsRestoreTheOperand :
    (AluOp.neg, AluOp.neg) ∈ [(AluOp.not, AluOp.not), (.neg, .neg), (.inc, .dec)] := by decide

theorem witness_DrawnFlagsDependOnValueAndCarryOnly :
    let s := { cpu 0 5 0 with params := { Config.defaults with flagSem := .draw } }
    threadIssues s 0 (thr 0 5 0) ∧ operandHolds s (thr 0 5 0) .w64 (.reg 0 false) 5 ∧
    lockAvailable s .w64 false (.reg 0 false) ∧ s.params.flagSem = .draw ∧ AluOp.inc ≠ .not := by decide

theorem witness_WriteBackTouchesExactlyTheOperand :
    threadIssues (cpu 1 7 0) 0 (thr 1 7 0) ∧ orefOk (cpu 1 7 0) .w32 (.reg 1 false) = true ∧
    ∃ s' th', exec (aluInstr .not .w32 true (.reg 1 false)) (cpu 1 7 0) = .next s' ∧ s'.threads[0]? = some th' ∧
      th'.flight = none := ⟨by decide, by decide, _, _, rfl, rfl, rfl⟩

theorem witness_LockBitNeverChangesTheOutcome : (cpu 0 0 0).lk = .free := rfl

theorem witness_PathSelectionTable : Config.defaults.alignOverride = [] := rfl

/-- Register 16, byte offset 1 at width 16, and a memory operand whose last byte alone is not resolved. -/
theorem witness_MalformedOperandEndsWithUndef :
    ((cpu 0 0 0).params.nreg ≤ 16 ∧ true = true ∧ Width.w16 ≠ .w8) ∧
    let s := { cpu 0 0 0 with collab := { State.reset.collab with unresolved := [{ base := 0x9003, size := 1 }] } }
    threadIssues s 0 (thr 0 0 0) ∧ 3 < widthBytes .w32 ∧ resolved s (byteAddr 0x9000 3) = false ∧
    resolved s (byteAddr 0x9000 2) = true := by decide

theorem witness_LoadOfValuelessByteFaults :
    let s := cpu 0 0 0 [(0x10, 1)]
    threadIssues s 0 (thr 0 0 0) ∧ allResolved s .w16 0x10 ∧ lockAvailable s .w16 true (.mem 0x10) ∧ 1 < widthBytes .w16 ∧
    memRead s.mem (byteAddr 0x10 1).toNat = none ∧ ∀ j, j < 1 → memRead s.mem (byteAddr 0x10 j).toNat ≠ none := by decide

theorem witness_LockedCommandWaitsWhileHeld :
    let s := { cpu 0 0 0 with lk := .held 1 }
    threadIssues s 0 (thr 0 0 0) ∧ orefOk s .w8 (.reg 0 false) = true ∧ pathOf s.params .w8 true (.reg 0 false) = .locked ∧
    s.lk = .held 1 := by decide

/-- A LOCKED INC.W at 0x1001 between its load and its store. -/
def lockedFlight (p : Phase) : Flight := { op := .inc, width := .w16, oref := .mem 0x1001, path := .locked, phase := p }

/-- A state with that command in flight, LK held by its thread or free, meets the invariant. -/
theorem flying_inv {p : Phase} {lk : Lock} (hw : flightWf (lockedFlight p))
    (hl : (p = .acquire ∧ lk = .free) ∨ (p ≠ .acquire ∧ lk = .held 0)) :
    Inv (flying (lockedFlight p) [(0x1001, 1), (0x1002, 0)] lk) := by
  have h0 : ∀ t th, (flying (lockedFlight p) [(0x1001, 1), (0x1002, 0)] lk).threads[t]? = some th →
      t = 0 ∧ th.flight = some (lockedFlight p) := by
    intro t th h
    cases t with
    | zero => cases h; exact ⟨rfl, rfl⟩
    | succ t => cases h
  refine ⟨?_, ?_, ?_, ?_, ?_, ?_⟩
  · show memoryWf [(0x1001, 1), (0x1002, 0)]
    decide
  · intro t
    constructor
    · intro h
      rcases hl with ⟨_, rfl⟩ | ⟨hp, rfl⟩
      · cases h
      · cases h
        exact ⟨_, _, rfl, rfl, rfl, hp⟩
    · rintro ⟨th, f, ht, hf, _, hp⟩
      obtain ⟨rfl, hf'⟩ := h0 t th ht
      rw [hf] at hf'
      cases hf'
      rcases hl with ⟨ha, _⟩ | ⟨_, rfl⟩
      · exact absurd ha hp
      · rfl
  · intro th hth
    obtain rfl : th = { thr 0 0 0 with flight := some (lockedFlight p) } := by simpa [flying] using hth
    rfl
  · show (0 : Nat) ≤ 0 ∧ 0 ≤ watchBound Config.defaults
    decide
  · intro t th f ht hf
    obtain ⟨-, hf'⟩ := h0 t th ht
    rw [hf] at hf'
    cases hf'
    exact ⟨hw, fun _ _ h => by cases h⟩
  · intro c hc
    cases hc

theorem witness_LockedPathHoldsLockUntilItEnds_load :
    Inv (flying (lockedFlight (.load [0, 1] 0)) [(0x1001, 1), (0x1002, 0)] (.held 0)) ∧
    ∃ s', advanceThread 0 { thr 0 0 0 with flight := some (lockedFlight (.load [0, 1] 0)) } (lockedFlight (.load [0, 1] 0)) 1
      (flying (lockedFlight (.load [0, 1] 0)) [(0x1001, 1), (0x1002, 0)] (.held 0)) = .next s' :=
  ⟨flying_inv ⟨by decide, by decide⟩ (.inr ⟨by decide, rfl⟩), _, rfl⟩

theorem witness_LockedPathHoldsLockUntilItEnds_release :
    Inv (flying (lockedFlight .release) [(0x1001, 1), (0x1002, 0)] (.held 0)) ∧
    ∃ s', advanceThread 0 { thr 0 0 0 with flight := some (lockedFlight .release) } (lockedFlight .release) 0
      (flying (lockedFlight .release) [(0x1001, 1), (0x1002, 0)] (.held 0)) = .next s' :=
  ⟨flying_inv rfl (.inr ⟨by decide, rfl⟩), _, rfl⟩

/-- The lock is held, and a WCHK is checking its holder. -/
theorem witness_LockHolderAlwaysGoesOn :
    let s := flying (lockedFlight (.store [0, 1] 2)) [(0x1001, 1), (0x1002, 0)] (.held 0)
    Inv s ∧ s.lk = .held 0 ∧ ∃ s', turn (.thread 0) 0 beginInstr (whileChecking 0 s) = .next s' :=
  ⟨flying_inv ⟨by decide, by decide⟩ (.inr ⟨by decide, rfl⟩), rfl, _, rfl⟩

theorem witness_CheckedThreadIssuesNothing :
    let s := whileChecking 0 (queued (onR5 0x02))
    (∃ th, s.threads[0]? = some th ∧ th.flight = none) ∧ ∃ c, s.debugger.flight = some c ∧ c.thread = 0 :=
  ⟨⟨_, rfl, rfl⟩, _, rfl, rfl⟩

/-- A LOCK INC.D at 0x1000 that loaded 5. -/
def casFlight : Flight := { op := .inc, width := .w32, oref := .mem 0x1000, path := .cas, phase := .casTry 5 }

/-- The word still holds 5, and another state where it holds 6. -/
theorem witness_CasAttemptIsAtomic :
    (flying casFlight [(0x1000, 5), (0x1001, 0), (0x1002, 0), (0x1003, 0)] .free).threads[0]? =
      some { thr 0 0 0 with flight := some casFlight } ∧
    casFlight.phase = .casTry ((5 : BitVec 32).setWidth 64) ∧
    memHolds [(0x1000, 5), (0x1001, 0), (0x1002, 0), (0x1003, 0)] 0x1000 .w32 5 ∧
    memHolds [(0x1000, 6), (0x1001, 0), (0x1002, 0), (0x1003, 0)] 0x1000 .w32 6 := by decide

/-- Vector S9: a register operand whose low half holds 5. -/
theorem witness_CasAttemptIsAtomic_register :
    (false = true → Width.w32 = .w8) ∧ regHolds (thr 5 0xAAAAAAAA00000005 0) 5 false .w32 5 := by decide

theorem witness_AluStepsTouchOnlyTheirOperand :
    flightWf (lockedFlight (.store [0, 1] 2)) ∧
    (flying (lockedFlight (.store [0, 1] 2)) [(0x1001, 1), (0x1002, 0)] (.held 0)).threads[0]? =
      some { thr 0 0 0 with flight := some (lockedFlight (.store [0, 1] 2)) } ∧
    ∃ s', advanceThread 0 { thr 0 0 0 with flight := some (lockedFlight (.store [0, 1] 2)) }
      (lockedFlight (.store [0, 1] 2)) 0
      (flying (lockedFlight (.store [0, 1] 2)) [(0x1001, 1), (0x1002, 0)] (.held 0)) = .next s' :=
  ⟨⟨by decide, by decide⟩, rfl, _, rfl⟩

theorem witness_NarrowReadAfterWideWrite : 2 ≤ 8 ∧ 8 ≤ 8 ∧ outside 0xFFFFFFFFFFFFFFFF 2 1 := by decide

theorem witness_WaddReusesLowestDisabledSlot :
    let s := dbg [fresh 0x10, { fresh 0x18 with dis := true }, { fresh 0x20 with dis := true }]
    debugIssues s ∧ 1 < s.wlen ∧ (entryAt s 1).dis = true ∧ ∀ j, j < 1 → (entryAt s j).dis = false := by decide

/-- Full (growth) at three entries, and not full with room for one. -/
theorem witness_WaddAppendsAndGrows :
    let s := dbg [fresh 0x10, fresh 0x18, fresh 0x20]
    let u := { s with wcap := 4 }
    (debugIssues s ∧ (∀ j, j < s.wlen → (entryAt s j).dis = false) ∧ s.wlen ≤ s.wcap ∧ s.wcap ≤ min s.params.wmax (2 ^ s.params.idxw - 1) ∧
      s.wlen ≠ min s.params.wmax (2 ^ s.params.idxw - 1) ∧ s.wlen = s.wcap) ∧
    (u.wlen ≤ u.wcap ∧ u.wcap ≤ min u.params.wmax (2 ^ u.params.idxw - 1) ∧ u.wlen ≠ u.wcap) := by decide

theorem witness_WaddReportsFull :
    let s := { dbg [fresh 0x10, fresh 0x18] with params := { Config.defaults with wmax := 2 } }
    debugIssues s ∧ (∀ j, j < s.wlen → (entryAt s j).dis = false) ∧ s.wlen = s.wcap ∧ s.wlen = min s.params.wmax (2 ^ s.params.idxw - 1) := by
  decide

theorem witness_WremRemovesTheLastPosition : debugIssues (dbg []) ∧ debugIssues (dbg [fresh 0x10]) := by decide

theorem witness_WdisDisablesOneLiveEntry :
    debugIssues (dbg [fresh 0x10]) ∧ 0 < (dbg [fresh 0x10]).wlen ∧ ¬ (1 : Index) < (dbg [fresh 0x10]).wlen := by decide

theorem witness_WrdReturnsEntryAndCounters :
    debugIssues (dbg [fresh 0x10]) ∧ 0 < (dbg [fresh 0x10]).wlen ∧
    ¬ 1 < (dbg [fresh 0x10]).wlen := by decide

theorem witness_WchkWithNothingToVisitFindsNothing :
    (debugIssues (dbg []) ∧ (dbg []).wlen = 0) ∧
    (let s := dbg [{ fresh 0x10 with dis := true }]
     debugIssues s ∧ (∀ j, j < s.wlen → (entryAt s j).dis = true) ∧ s.threads[s.debugger.tdbg]? = some resetThread) := by
  decide

theorem witness_AddressHitReturnsIndexUnseeded :
    let s := dbg [fresh 0x3000, fresh 0x3000, { fresh 0x3000 with dis := true }] [] (pins true true 4 0x3000)
    debugIssues s ∧ s.threads[s.debugger.tdbg]? = some resetThread ∧ enabledAt s 1 ∧
    (∀ j, j < s.wlen → 1 < j → (entryAt s j).dis = true) ∧
    checkAddress s resetThread = some (entryAt s 1).addr := by decide

/-- Vector W21: a length that wraps past the top of the address space. -/
theorem witness_AddressCheckReadsAdvancedPc :
    let th := { resetThread with pc := 0xFFFFFFFFFFFFFFFE }
    let r : DecodeResult := { ok := true, hasMem := true, len := 4, d := 0 }
    let s := { dbg [fresh 0x3000] with collab := { State.reset.collab with
      decodePins := [(0xFFFFFFFFFFFFFFFE, r)], addrPins := [((2, 0), 0x3000)] } }
    s.collab.decodePins = [(th.pc, r)] ∧ s.collab.addrPins = [((BitVec.ofNat 64 (th.pc.toNat + r.len), r.d), 0x3000)] := by
  decide

/-- One fresh entry at a mapped word that holds 0x11. -/
theorem witness_WchkEqualsTheParallelView :
    let s := dbg [fresh 0x2000] (word8 0x2000 0x11)
    debugIssues s ∧ s.wlen ≠ 0 ∧ s.threads[s.debugger.tdbg]? = some resetThread ∧
    ∀ i, enabledAt s i → mapped s (entryAt s i).addr = true →
      withinPage s (entryAt s i).addr ∧ wordAt s (entryAt s i).addr 0x11 := by
  refine ⟨by decide, by decide, by decide, ?_⟩
  intro i hi _
  have : i < 1 := hi.1
  obtain rfl : i = 0 := by omega
  decide

/-- Three entries on one word that holds 0x12: the highest fresh, the middle one changed, the lowest changed too. The WCHK
reports the middle one, seeds the highest and leaves the lowest. -/
theorem witness_WchkEqualsTheParallelView_change :
    let old : WatchEntry := { fresh 0x2000 with prior := 0x11, init := true }
    let s := dbg [old, old, fresh 0x2000] (word8 0x2000 0x12)
    (debugIssues s ∧ s.wlen ≠ 0 ∧ s.threads[s.debugger.tdbg]? = some resetThread ∧
      ∀ i, i < s.wlen → withinPage s (entryAt s i).addr ∧ wordAt s (entryAt s i).addr 0x12) ∧
    see seeWatch (exec .wchk s) = some (some (okWith (.index 1)), 3, 3,
      [old, { old with prior := 0x12 }, { fresh 0x2000 with prior := 0x12, init := true }]) := by decide

/-- An address hit at entry 1, its content changed as well, a fresh entry above it and one below. -/
theorem witness_WchkEqualsTheParallelView_hit :
    let old : WatchEntry := { fresh 0x2000 with prior := 0x11, init := true }
    let s := dbg [fresh 0x3000, old, fresh 0x3000] (word8 0x2000 0x12 ++ word8 0x3000 0x22) (pins true true 4 0x2000)
    (debugIssues s ∧ s.wlen ≠ 0 ∧ s.threads[s.debugger.tdbg]? = some resetThread ∧
      checkAddress s resetThread = some (entryAt s 1).addr ∧
      ∀ i, i < s.wlen → withinPage s (entryAt s i).addr ∧
        wordAt s (entryAt s i).addr (if i = 1 then 0x12 else 0x22)) ∧
    see seeWatch (exec .wchk s) = some (some (okWith (.index 1)), 3, 3,
      [fresh 0x3000, old, { fresh 0x3000 with prior := 0x22, init := true }]) := by decide

/-- Vector W22 with the following page mapped. -/
theorem witness_CrossingReadSeedsStoredBytes :
    let s := dbg [fresh 0x0FFC] [(0x0FFC, 1), (0x0FFD, 2), (0x0FFE, 3), (0x0FFF, 4)]
    debugIssues s ∧ s.threads[s.debugger.tdbg]? = some resetThread ∧ enabledAt s 0 ∧
    (∀ j, j < s.wlen → j ≠ 0 → (entryAt s j).dis = true) ∧
    checkAddress s resetThread ≠ some (entryAt s 0).addr ∧ (entryAt s 0).init = false ∧
    mapped s (entryAt s 0).addr = true ∧ ¬ withinPage s (entryAt s 0).addr ∧
    ∀ k, k < 8 → if (entryAt s 0).addr.toNat % s.params.pageSize + k < s.params.pageSize
      then memRead s.mem (byteAddr (entryAt s 0).addr k).toNat = some (BitVec.ofNat 8 (k + 1))
      else mapped s (byteAddr (entryAt s 0).addr k) = true := by decide

/-- Vector W22: the following page is not mapped. -/
theorem witness_CrossingReadOverUnmappedPageFaultsOrSeeds :
    let s := dbg [fresh 0x0FFC] [(0x0FFC, 1), (0x0FFD, 2), (0x0FFE, 3), (0x0FFF, 4)]
      { pins true false 1 0 with unmapped := [{ base := 0x1000, size := 0x1000 }] }
    debugIssues s ∧ s.threads[s.debugger.tdbg]? = some resetThread ∧ enabledAt s 0 ∧
    (∀ j, j < s.wlen → j ≠ 0 → (entryAt s j).dis = true) ∧ checkAddress s resetThread ≠ some (entryAt s 0).addr ∧
    (entryAt s 0).init = false ∧ mapped s (entryAt s 0).addr = true ∧
    s.params.pageSize ≤ (entryAt s 0).addr.toNat % s.params.pageSize + 4 ∧
    mapped s (byteAddr (entryAt s 0).addr 4) = false ∧
    ∀ j, j < 8 → if (entryAt s 0).addr.toNat % s.params.pageSize + j < s.params.pageSize
      then memRead s.mem (byteAddr (entryAt s 0).addr j).toNat = some (BitVec.ofNat 8 (j + 1))
      else j < 4 → mapped s (byteAddr (entryAt s 0).addr j) = true := by decide

/-- The last byte of the page has no value. -/
theorem witness_WchkReadOfValuelessByteFaults :
    let s := dbg [fresh 0x0FFC] [(0x0FFC, 1), (0x0FFD, 2), (0x0FFE, 3)]
    debugIssues s ∧ s.threads[s.debugger.tdbg]? = some resetThread ∧ enabledAt s 0 ∧
    (∀ j, j < s.wlen → 0 < j → (entryAt s j).dis = true) ∧ checkAddress s resetThread ≠ some (entryAt s 0).addr ∧
    mapped s (entryAt s 0).addr = true ∧ (entryAt s 0).addr.toNat % s.params.pageSize + 3 < s.params.pageSize ∧
    memRead s.mem (byteAddr (entryAt s 0).addr 3).toNat = none ∧
    ∀ j, j < 3 → memRead s.mem (byteAddr (entryAt s 0).addr j).toNat ≠ none := by decide

/-- The same state with its WCHK in flight, one byte still to read. -/
theorem witness_WchkLeavesMachineStateAsFound :
    (∃ s', exec .wchk (dbg [fresh 0x2000] (word8 0x2000 0x11)) = .next s') ∧
    ∃ s', advanceCheck { thread := 0, left := 1, ea := none, todo := [7], acc := 0x11 } 0
      (putCheck { thread := 0, left := 1, ea := none, todo := [7], acc := 0x11 } (dbg [fresh 0x2000] (word8 0x2000 0x11))) = .next s' := ⟨⟨_, rfl⟩, _, rfl⟩

/-- R223: with a failed decode, by content alone: entry 2 is seeded, entry 1 is unchanged, entry 0 is reported. -/
theorem test_wchk_failed_decode_checks_content :
    see seeWatch (exec .wchk
      (dbg [seeded 0x3000 0x22, seeded 0x3000 0x23, fresh 0x3000] (word8 0x3000 0x23) (pins false true 4 0x3000))) =
    some (some (okWith (.index 0)), 3, 3, List.replicate 3 (seeded 0x3000 0x23)) := by decide

/-- A failed decode over a changed, an unchanged and a fresh entry; and an unmapped address. -/
theorem witness_WchkPassesOverFailuresSilently :
    (let s := dbg [seeded 0x3000 0x22, seeded 0x3000 0x23, fresh 0x3000] (word8 0x3000 0x23) (pins false true 4 0x3000)
     debugIssues s ∧ s.threads[s.debugger.tdbg]? = some resetThread ∧ (decodeNext s resetThread).ok = false ∧
     ∀ i, i < s.wlen → withinPage s (entryAt s i).addr ∧ wordAt s (entryAt s i).addr 0x23) ∧
    (let s := dbg [fresh 0x3000] [] { pins false true 4 0x3000 with unmapped := [{ base := 0x3000, size := 1 }] }
     debugIssues s ∧ s.threads[s.debugger.tdbg]? = some resetThread ∧
     (∀ i, i < s.wlen → mapped s (entryAt s i).addr = false ∧
       checkAddress s resetThread ≠ some (entryAt s i).addr) ∧
     see seeWatch (exec .wchk s) = some (some (okWith (.index 0xFFFFFFFF)), 1, 1, [fresh 0x3000])) := by decide

/-- For WCHK: another thread beside t_dbg, other registers in t_dbg, a byte of memory elsewhere, LK held. -/
theorem witness_WatchCommandsKeepOffMachineState :
    let s := dbg [fresh 0x2000] (word8 0x2000 0x11)
    let ths := [thr 0 9 1, resetThread]
    let m := (0x1FFF, 1) :: word8 0x2000 0x11
    let u : State := { s with threads := ths, mem := m, lk := .held 1 }
    (aluParts (.wdis 0) = none ∧ Instr.wdis 0 ≠ .wchk ∧ ∃ s', exec (.wdis 0) s = .next s') ∧
    s.threads[s.debugger.tdbg]? = some resetThread ∧ ths[s.debugger.tdbg]? = some (thr 0 9 1) ∧
    checkAddress u (thr 0 9 1) = checkAddress s resetThread ∧
    (∀ i, i < s.wlen → ∀ k, k < 8 →
      memRead m (byteAddr (entryAt s i).addr k).toNat = memRead s.mem (byteAddr (entryAt s i).addr k).toNat) ∧
    ∃ s', exec .wchk s = .next s' :=
  ⟨⟨rfl, by decide, _, rfl⟩, by decide, by decide, by decide, by decide, _, rfl⟩

/-- A LOCKED command about to acquire LK: the invariant holds, and the next step takes it into its critical section. -/
def aboutToAcquire : State :=
  { flying (lockedFlight .acquire) [(0x1001, 1), (0x1002, 0)] .free with schedule := [.micro (.thread 0) 0] }

theorem witness_StepKeepsInvariant : Inv aboutToAcquire ∧ ∃ s', step aboutToAcquire = .next s' := by
  have h := flying_inv (p := .acquire) (lk := .free) rfl (.inl ⟨rfl, rfl⟩)
  exact ⟨⟨h.memory, h.lock, h.registers, h.lengths, h.flights, h.check⟩, _, rfl⟩

theorem witness_CriticalSectionsNeverOverlap :
    Inv aboutToAcquire ∧ ∃ s', Sys2Proof.core.run 1 aboutToAcquire = .next s' ∧ critical s' 0 :=
  ⟨witness_StepKeepsInvariant.1, _, rfl, _, _, rfl, rfl, rfl, by decide⟩

theorem witness_CapacityNeverDecreases :
    ∃ s', step { State.reset with
      debugger := { tdbg := 0, queue := [encode (.wadd (fresh 0x10))], flight := none, resp := none }
      schedule := [.whole .debug] } = .next s' ∧ s'.wcap = 1 := ⟨_, rfl, rfl⟩

theorem witness_turns_of_both_kinds :
    ((queued (onR5 0x02)).schedule = [.whole (.thread 0)] ∧ ∃ s', step (queued (onR5 0x02)) = .next s') ∧
    ((queuedDebug (onR5 0x41)).schedule = [.whole .debug] ∧ ∃ s', step (queuedDebug (onR5 0x41)) = .next s') :=
  ⟨⟨rfl, _, rfl⟩, rfl, _, rfl⟩

theorem witness_AluStepsAloneEqualWholeCommand :
    let s := cpu 0 0 0 [(0x1001, 1), (0x1002, 0)]
    threadIssues s 0 (thr 0 0 0) ∧ aluParts (.incW true (.mem 0x1001)) ≠ none ∧
    (∃ s', exec (.incW true (.mem 0x1001)) s = .next s') ∧
    (∃ f, exec (.incW true (.mem 0x1002)) s = .fault f) := ⟨by decide, by decide, ⟨_, rfl⟩, _, rfl⟩

theorem witness_WchkStepsAloneEqualWholeCommand :
    let s := dbg [fresh 0x2000] (word8 0x2000 0x11)
    debugIssues s ∧ (∃ s', exec .wchk s = .next s') ∧ ∃ f, exec .wchk (dbg [fresh 0x2001] (word8 0x2000 0x11)) = .fault f :=
  ⟨by decide, ⟨_, rfl⟩, _, rfl⟩

/-- Two threads, one with a LOCK INC.Q on the word at 0x1000 in its stream, one with its own in flight. -/
def counters : State :=
  { cpu 0 0 0 (word8 0x1000 5) with
    threads := [{ resetThread with queue := [encode (.incQ true (.mem 0x1000))] },
      { resetThread with flight := some { op := .inc, width := .w64, oref := .mem 0x1000, path := .cas, phase := .casTry 5 } }]
    schedule := [.whole (.thread 0), .micro (.thread 1) 0] }

theorem witness_LockedIncrementsAllCount : Counting 0x1000 counters ∧ memHolds counters.mem 0x1000 .w64 5 := by
  refine ⟨⟨rfl, by decide, by decide, ⟨5, by decide⟩, by decide, ?_, ?_⟩, by decide⟩
  · intro th hth f hf
    simp only [counters, List.mem_cons, List.not_mem_nil, or_false] at hth
    rcases hth with rfl | rfl
    · cases hf
    · cases hf
      exact ⟨rfl, rfl, rfl, rfl, .inr ⟨5, rfl⟩⟩
  · intro e he
    simp only [counters, List.mem_cons, List.not_mem_nil, or_false] at he
    rcases he with rfl | rfl
    · exact .inl ⟨0, rfl⟩
    · exact .inr ⟨1, 0, rfl⟩

end Sys2Proof.Tests
end

/-! O21: with LK FREE the lock bit chooses only the data path (R85, R112), and every data path runs the same load, transform
and store. -/

namespace Sys2Proof.Machine

/-- With LK FREE the outcome of the shared execution is a function of the operand alone: UNDEF for a malformed OREF, else the
load, transform and store of R111, whatever path the lock bit chooses. -/
theorem executeUnaryAlu_free {s : State} (h : s.lk = .free) (t : Nat) (th : Thread) (op : AluOp) (w : Width) (lock : Bool)
    (o : Oref) :
    executeUnaryAlu t th op w lock o s =
      if orefOk s w o then transformOperand t th op w o s
      else .next (raise (.thread t) .undef (.malformedOperand s.port.cmd) s) := by
  cases ho : orefOk s w o with
  | true => exact executeUnaryAlu_ok ho fun _ => h
  | false => simp [executeUnaryAlu, ho]

/-- Settles O21: the refusals of an agent that may not issue do not read the lock bit, and with LK FREE the shared execution
does not depend on it. -/
theorem lockBitNeverChangesTheOutcome : Obligations.LockBitNeverChangesTheOutcome := by
  intro s op w o h
  simp only [exec_aluInstr, runAlu, executeUnaryAlu_free h]

end Sys2Proof.Machine

/-! O11, O19, O20: what a completed ALU command leaves in its operand, and what a second command finds there (R115, R116,
R137). -/

namespace Sys2Proof.Machine

/-- Settles O11: F is the complement, and NOT's flag rule gives FLAGS back. -/
theorem notWritesComplementAndNoFlag : Obligations.NotWritesComplementAndNoFlag := by
  intro s t th w lock o v hissue hv hlock
  obtain ⟨s', th', hexec, hth', hwritten, hflags, hsame, hended⟩ :=
    exec_aluInstr_completes (op := .not) hissue hv hlock
  exact ⟨s', th', hexec, hth', hwritten, hflags, hsame, hended⟩

/-! ## A completed command found a value in its operand -/

/-- A byte placed above the low `n` bytes of a value reads back, and the bytes below it read as before (R12). -/
theorem byteOf_or_placeByte (v : Word) (b : Byte) {n k : Nat} (hn : n < 8) (hk : k ≤ n) :
    byteOf ((v.setWidth (8 * n)).setWidth 64 ||| placeByte b n) k = if k = n then b else byteOf v k := by
  ext j hj
  have h64 : 8 * k + j < 64 := by omega
  simp only [byteOf, placeByte, BitVec.getElem_extractLsb', BitVec.getLsbD_or, BitVec.getLsbD_setWidth,
    BitVec.getLsbD_shiftLeft, h64, decide_true, Bool.true_and]
  by_cases hkn : k = n
  · subst hkn
    have hj64 : j < 64 := by omega
    simp [BitVec.getLsbD_eq_getElem hj, hj64]
  · have hlow : 8 * k + j < 8 * n := by omega
    simp [hkn, hlow]

/-- A load that succeeds found the bytes of the value it gives: the converse of `loadWord_eq` (R12, R251). -/
theorem memRead_of_loadWord {m : Memory} {a v : Word} {n : Nat} (hn : n ≤ 8) (h : loadWord m a n = .ok v) :
    ∀ k, k < n → memRead m (byteAddr a k).toNat = some (byteOf v k) := by
  induction n generalizing v with
  | zero => intro k hk; omega
  | succ n ih =>
    obtain ⟨b, hb⟩ := loadWord_ok h n (by omega)
    cases hu : loadWord m a n with
    | error f => simp [loadWord, hu] at h
    | ok u =>
      have hbytes := ih (by omega) hu
      have htrunc : (u.setWidth (8 * n)).setWidth 64 = u := by
        have := (loadWord_eq (by omega) hbytes).symm.trans hu
        exact Except.ok.inj this
      have hv : (u.setWidth (8 * n)).setWidth 64 ||| placeByte b n = v := by
        simpa [loadWord, hu, loadByte, hb, htrunc] using h
      intro k hk
      rw [← hv, byteOf_or_placeByte u b (by omega) (by omega)]
      split
      next hkn => rw [hkn, hb]
      next hkn => exact hbytes k (by omega)

/-- Byte `k` of a word is byte `k` of its low bits, for the bytes of a width (R55). -/
theorem extractLsb'_setWidth_eq_byteOf (x : Word) {w : Width} {k : Nat} (hk : k < widthBytes w) :
    (x.setWidth (widthBits w)).extractLsb' (8 * k) 8 = byteOf x k := by
  ext j hj
  have hbit : 8 * k + j < widthBits w := by unfold widthBits; omega
  simp [byteOf, hbit]

/-- A well-formed operand that loads holds a value: the converse of `loadOperand_of_holds` (R88, R111). -/
theorem exists_operandHolds_of_load {s : State} {th : Thread} {w : Width} {o : Oref} {u : Word}
    (hok : orefOk s w o = true) (h : loadOperand s th w o = .ok u) :
    ∃ v : BitVec (widthBits w), operandHolds s th w o v := by
  cases o with
  | reg i boff =>
    have hok : i < s.params.nreg ∧ (boff = true → w = .w8) := by
      cases boff <;> simpa [orefOk] using hok
    refine ⟨(readReg th i >>> (8 * regOffset boff)).setWidth (widthBits w), hok.1, hok.2, fun k hk => ?_⟩
    rw [extractLsb'_setWidth_eq_byteOf _ hk]
    ext j hj
    simp [regByte, readReg, byteOf, Nat.mul_add, Nat.add_assoc]
  | mem a =>
    refine ⟨u.setWidth (widthBits w), by simpa [orefOk] using hok, fun k hk => ?_⟩
    rw [extractLsb'_setWidth_eq_byteOf _ hk]
    exact memRead_of_loadWord (widthBytes_le w) h k hk

/-- An ALU command that answered next on a well-formed operand, and left nothing in flight, had its lock available and found
a value in its operand (R111, R113). -/
theorem exists_operandHolds_of_exec_next {s s' : State} {t : Nat} {th th' : Thread} {op : AluOp} {w : Width} {lock : Bool}
    {o : Oref} (hissue : threadIssues s t th) (hexec : exec (aluInstr op w lock o) s = .next s')
    (hth' : s'.threads[t]? = some th') (hdone : th'.flight = none) (hok : orefOk s w o = true) :
    lockAvailable s w lock o ∧ ∃ v : BitVec (widthBits w), operandHolds s th w o v := by
  rw [exec_aluInstr, runAlu_issues hissue] at hexec
  rcases executeUnaryAlu_cases hexec with ⟨hbad, -⟩ | ⟨-, -, -, rfl⟩ | ⟨-, hlock, u, hload, -⟩
  · simp [hok] at hbad
  · simp only [putFlight, updThread_self, hissue.2.1, Option.map_some, Option.some.injEq] at hth'
    simp [← hth'] at hdone
  · exact ⟨hlock, exists_operandHolds_of_load hok hload⟩

/-- Settles O19: the completed command had its lock available and found a value, so its outcome is that of
`exec_aluInstr_completes` on that value. -/
theorem writeBackTouchesExactlyTheOperand : Obligations.WriteBackTouchesExactlyTheOperand := by
  intro s s' t th th' op w lock o hissue hexec hth' hdone hok
  obtain ⟨hlock, v, hv⟩ := exists_operandHolds_of_exec_next hissue hexec hth' hdone hok
  obtain ⟨s₁, th₁, hexec₁, hth₁, hwritten, -⟩ := exec_aluInstr_completes (op := op) hissue hv hlock
  obtain rfl : s₁ = s' := by simpa [hexec₁] using hexec
  obtain rfl : th₁ = th' := by simpa [hth₁] using hth'
  refine ⟨v, hv, ?_⟩
  cases op <;> exact hwritten

/-! ## A second command of the same thread -/

/-- A thread whose command ended may issue its next one (R61, R110). -/
theorem threadIssues_of_ended {s s' : State} {t : Nat} {th th' : Thread} (hissue : threadIssues s t th)
    (hsame : sameBesidesThread t s s') (hth' : s'.threads[t]? = some th') (hended : threadEnded th th') :
    threadIssues s' t th' := by
  obtain ⟨-, -, -, -, -, -, -, -, -, hport, -⟩ := hsame
  obtain ⟨-, -, hflight, -⟩ := hended
  exact ⟨hport ▸ hissue.1, hth', hflight⟩

/-- A lock that was available still is after a command of the thread has ended (R113). -/
theorem lockAvailable_of_same {s s' : State} {t : Nat} {w : Width} {lock : Bool} {o : Oref}
    (hlock : lockAvailable s w lock o) (hsame : sameBesidesThread t s s') : lockAvailable s' w lock o := by
  obtain ⟨hparams, -, -, hlk, -⟩ := hsame
  intro hpath
  exact hlk.trans (hlock (hparams ▸ hpath))

/-- The operand a value was written back to is well formed as before and holds the value (R88, R115). -/
theorem operandHolds_of_written {s s' : State} {t : Nat} {th th' : Thread} {w : Width} {o : Oref}
    {v r : BitVec (widthBits w)} (hv : operandHolds s th w o v) (hsame : sameBesidesThread t s s')
    (hwritten : operandWritten s s' th th' w o r) : operandHolds s' th' w o r := by
  obtain ⟨hparams, -, -, -, -, -, -, -, hcollab, -⟩ := hsame
  cases o with
  | reg i boff => exact ⟨hparams ▸ hv.1, hv.2.1, hwritten.1⟩
  | mem a =>
    refine ⟨fun k hk => ?_, hwritten.1⟩
    simpa [resolved, mapped, hcollab] using hv.1 k hk

/-- An operand that holds a value with its lock available takes a command, holds the result, and can take the next command:
the two commands of a pair are two uses of this (R110, R111, R115). -/
theorem exec_aluInstr_again {s : State} {t : Nat} {th : Thread} (op : AluOp) {w : Width} {lock : Bool} {o : Oref}
    {v : BitVec (widthBits w)} (hissue : threadIssues s t th) (hv : operandHolds s th w o v)
    (hlock : lockAvailable s w lock o) :
    ∃ s' th', exec (aluInstr op w lock o) s = .next s' ∧ operandWritten s s' th th' w o (aluFn op v) ∧
      threadIssues s' t th' ∧ operandHolds s' th' w o (aluFn op v) ∧ lockAvailable s' w lock o := by
  obtain ⟨s', th', hexec, hth', hwritten, -, hsame, hended⟩ := exec_aluInstr_completes (op := op) hissue hv hlock
  exact ⟨s', th', hexec, hwritten, threadIssues_of_ended hissue hsame hth' hended,
    operandHolds_of_written hv hsame hwritten, lockAvailable_of_same hlock hsame⟩

/-! ## The inverse laws -/

/-- The second function of a pair undoes the first, at every width and for every value (R137). -/
theorem aluFn_inverse {n : Nat} {op op' : AluOp} (h : (op, op') ∈ [(AluOp.not, AluOp.not), (.neg, .neg), (.inc, .dec)])
    (v : BitVec n) : aluFn op' (aluFn op v) = v := by
  simp only [List.mem_cons, Prod.mk.injEq, List.not_mem_nil, or_false] at h
  rcases h with ⟨rfl, rfl⟩ | ⟨rfl, rfl⟩ | ⟨rfl, rfl⟩
  · exact BitVec.not_not
  · exact BitVec.neg_neg
  · exact BitVec.add_sub_cancel v 1#n

/-- NEG maps the most negative value to itself (R137). -/
theorem neg_of_toNat_eq_min {n : Nat} (hn : 0 < n) {v : BitVec n} (h : v.toNat = 2 ^ (n - 1)) : -v = v := by
  apply BitVec.eq_of_toNat_eq
  have hpow : 2 ^ n = 2 * 2 ^ (n - 1) := by rw [← Nat.pow_succ']; congr 1; omega
  rw [BitVec.toNat_neg, h, hpow, Nat.two_mul, Nat.add_sub_cancel]
  exact Nat.mod_eq_of_lt (by have := Nat.two_pow_pos (n - 1); omega)

/-- Memory is back, byte for byte, once the operand of two write-backs holds again what it held before them. -/
theorem mem_restored {s s₁ s₂ : State} {th th₁ th₂ : Thread} {w : Width} {o : Oref} {v r : BitVec (widthBits w)}
    (hv : operandHolds s th w o v) (hwritten₁ : operandWritten s s₁ th th₁ w o r)
    (hwritten₂ : operandWritten s₁ s₂ th₁ th₂ w o v) (b : Word) : memRead s₂.mem b.toNat = memRead s.mem b.toNat := by
  cases o with
  | reg i boff =>
    obtain ⟨-, -, -, hmem₁⟩ := hwritten₁
    obtain ⟨-, -, -, hmem₂⟩ := hwritten₂
    rw [hmem₂, hmem₁]
  | mem a =>
    by_cases hout : outside a (widthBytes w) b
    · exact (hwritten₂.2.1 b hout).trans (hwritten₁.2.1 b hout)
    · obtain ⟨k, hk, rfl⟩ : ∃ k, k < widthBytes w ∧ b = byteAddr a k := by simpa [outside] using hout
      rw [hwritten₂.1 k hk, hv.2 k hk]

/-- A register is the eight bytes it holds (R22). -/
theorem getD_eq_of_regByte_eq {th th' : Thread} {i : Nat} (h : ∀ k, k < 8 → regByte th' i k = regByte th i k) :
    th'.regs.getD i 0 = th.regs.getD i 0 := by
  apply BitVec.eq_of_getLsbD_eq
  intro j hj
  have hbyte := congrArg (fun b : Byte => b.getLsbD (j % 8)) (h (j / 8) (by omega))
  have hbit : 8 * (j / 8) + j % 8 = j := Nat.div_add_mod j 8
  simpa [regByte, Nat.mod_lt, hbit] using hbyte

/-- A 32-bit write-back of the value a register held gives the whole register back exactly if its upper half was zero, which
is what the write-back leaves there (R115, R137). -/
theorem reg32_restored_iff {s s₁ s' : State} {th th₁ th' : Thread} {i : Nat} {boff : Bool}
    {v : BitVec (widthBits .w32)} (hv : operandHolds s th .w32 (.reg i boff) v)
    (hwritten : operandWritten s₁ s' th₁ th' .w32 (.reg i boff) v) :
    th'.regs.getD i 0 = th.regs.getD i 0 ↔ ∀ k, 4 ≤ k → k < 8 → regByte th i k = 0 := by
  obtain ⟨-, hboff, hlow⟩ := hv
  obtain ⟨hlow', hrest, -, -⟩ := hwritten
  obtain rfl : boff = false := by cases boff <;> simp_all
  have hupper : ∀ k, 4 ≤ k → k < 8 → regByte th' i k = 0 := fun k hk hk8 => by
    simpa using hrest k hk8 (.inr (by simpa [regOffset, widthBytes] using hk))
  constructor
  · intro heq k hk hk8
    have hbyte : regByte th i k = regByte th' i k := by simp only [regByte, heq]
    rw [hbyte, hupper k hk hk8]
  · intro hzero
    refine getD_eq_of_regByte_eq fun k hk8 => ?_
    by_cases hk : k < 4
    · have hbytes := (hlow' k hk).trans (hlow k hk).symm
      simpa [regOffset] using hbytes
    · rw [hupper k (by omega) hk8, hzero k (by omega) hk8]

/-- Settles O20: the second command finds the first one's result in the operand, and its function undoes the first's. -/
theorem inverseLawsRestoreTheOperand : Obligations.InverseLawsRestoreTheOperand := by
  intro s t th w lock o v op op' hpair hissue hv hlock
  obtain ⟨s₁, th₁, hexec₁, hwritten₁, hissue₁, hv₁, hlock₁⟩ := exec_aluInstr_again op hissue hv hlock
  obtain ⟨s₂, th₂, hexec₂, hwritten₂, hissue₂, hv₂, -⟩ := exec_aluInstr_again op' hissue₁ hv₁ hlock₁
  rw [aluFn_inverse hpair] at hwritten₂ hv₂
  refine ⟨s₁, th₁, s₂, th₂, hexec₁, hexec₂, hissue₁.2.1, hissue₂.2.1, hv₂, mem_restored hv hwritten₁ hwritten₂, ?_, ?_⟩
  · rintro rfl hmin
    have hneg : aluFn .neg v = v := neg_of_toNat_eq_min (Nat.mul_pos (by omega) (widthBytes_pos w)) hmin
    rwa [hneg] at hv₁
  · rintro i boff rfl rfl
    exact reg32_restored_iff hv hwritten₂

end Sys2Proof.Machine

/-! O34, O46: the watch commands act on the watch state and on the debug agent, and on no thread, no memory byte and not LK
(R171); WREM lowers WLEN (R176). -/

namespace Sys2Proof.Machine

/-! ## WREM -/

/-- WREM lowers WLEN in one formula: natural subtraction leaves 0 as it is (R176). -/
theorem removeLast_eq (s : State) : removeLast s = finish .debug (okWith .noResult) { s with wlen := s.wlen - 1 } := by
  unfold removeLast
  split
  next hzero => rw [show s.wlen - 1 = s.wlen by rw [hzero]]
  next => rfl

/-- WREM of the idle debug agent completes, whatever the watch state (R176). -/
theorem exec_wrem_issues {s : State} (h : debugIssues s) :
    exec .wrem s = .next (finish .debug (okWith .noResult) { s with wlen := s.wlen - 1 }) := by
  rw [← removeLast_eq]
  exact asDebug_issues h

/-- Settles O34: the command word alone selects WREM, and the state WREM ends in differs by WLEN and the answer. -/
theorem wremRemovesTheLastPosition : Obligations.WremRemovesTheLastPosition := by
  refine ⟨fun b => by simp [decode, decodeWatch], fun s hissue => ⟨_, exec_wrem_issues hissue, ?_⟩⟩
  simp [debugEnded, sameBesidesWatch, okWith]

/-! ## The watch state and the rest of the machine -/

/-- The state with the debug agent and the watch state of `s`, over other threads, memory and LK. -/
def withMachine (ths : List Thread) (m : Memory) (l : Lock) (s : State) : State :=
  { s with threads := ths, mem := m, lk := l }

section
variable (ths : List Thread) (m : Memory) (l : Lock) (s : State)

@[simp] theorem withMachine_params : (withMachine ths m l s).params = s.params := rfl
@[simp] theorem withMachine_mem : (withMachine ths m l s).mem = m := rfl
@[simp] theorem withMachine_wlen : (withMachine ths m l s).wlen = s.wlen := rfl
@[simp] theorem withMachine_wcap : (withMachine ths m l s).wcap = s.wcap := rfl
@[simp] theorem withMachine_draws : (withMachine ths m l s).draws = s.draws := rfl

@[simp] theorem entryAt_withMachine (i : Nat) : entryAt (withMachine ths m l s) i = entryAt s i := rfl
@[simp] theorem mapped_withMachine (a : Word) : mapped (withMachine ths m l s) a = mapped s a := rfl
@[simp] theorem firstDisabled_withMachine : firstDisabled (withMachine ths m l s) = firstDisabled s := rfl

@[simp] theorem finish_debug_withMachine (r : Response) :
    finish .debug r (withMachine ths m l s) = withMachine ths m l (finish .debug r s) := rfl

@[simp] theorem putEntry_withMachine (i : Nat) (e : WatchEntry) :
    putEntry i e (withMachine ths m l s) = withMachine ths m l (putEntry i e s) := rfl

/-- WADD's effect goes by the entries, the counters and the parameters (R172 to R174). -/
theorem addEntry_withMachine (e : WatchEntry) :
    addEntry e (withMachine ths m l s) = withMachine ths m l (addEntry e s) := by
  cases hslot : firstDisabled s with
  | some i => simp [addEntry, hslot, addedAt]
  | none =>
    by_cases hcap : s.wlen = s.wcap
    · by_cases hmax : s.wcap = watchBound s.params
      · simp [addEntry, hslot, hcap, hmax, raise]
      · simp only [addEntry, firstDisabled_withMachine, hslot, withMachine_wlen, withMachine_wcap, withMachine_params, hcap,
          hmax, if_true, if_false]
        rfl
    · simp only [addEntry, firstDisabled_withMachine, hslot, withMachine_wlen, withMachine_wcap, hcap, if_false]
      rfl

/-- WREM's effect goes by WLEN (R176). -/
theorem removeLast_withMachine : removeLast (withMachine ths m l s) = withMachine ths m l (removeLast s) := by
  rw [removeLast_eq, removeLast_eq]
  rfl

/-- WDIS's effect goes by WLEN and the entry (R188). -/
theorem disableEntry_withMachine (idx : Index) :
    disableEntry idx (withMachine ths m l s) = withMachine ths m l (disableEntry idx s) := by
  by_cases hlive : s.wlen ≤ idx <;> simp [disableEntry, hlive, raise]

/-- The draw a crossing read uses up goes by the parameters (log 14). -/
theorem afterContentRead_withMachine (a : Word) :
    afterContentRead a (withMachine ths m l s) = withMachine ths m l (afterContentRead a s) := by
  by_cases hcross : beyondPage s.params a 7 = true
  · simp only [afterContentRead, withMachine_params, hcross, if_true]
    rfl
  · simp [afterContentRead, hcross]

/-- What becomes of an entry goes by the entry and the word read (R183). -/
theorem noteContent_withMachine (i : Nat) (v : Word) :
    noteContent i v (withMachine ths m l s) = (withMachine ths m l (noteContent i v s).1, (noteContent i v s).2) := by
  by_cases hinit : (entryAt s i).init = true
  · by_cases hsame : v = (entryAt s i).prior <;> simp [noteContent, hinit, hsame]
  · simp [noteContent, hinit]

end

/-- A change of state that neither reads nor writes threads, memory and LK. -/
def keepsOffMachine (f : State → State) : Prop :=
  ∀ ths m l s, f (withMachine ths m l s) = withMachine ths m l (f s)

/-- Not reading threads, memory and LK includes not writing them: over its own machine state the change gives them back. -/
theorem keepsOffMachine.frame {f : State → State} (h : keepsOffMachine f) (s : State) :
    (f s).threads = s.threads ∧ (f s).mem = s.mem ∧ (f s).lk = s.lk := by
  have hself : f s = withMachine s.threads s.mem s.lk (f s) := h s.threads s.mem s.lk s
  rw [hself]
  exact ⟨rfl, rfl, rfl⟩

/-- A watch command but WCHK is one change of state that keeps off threads, memory and LK, made by the idle debug agent
(R170, R171). -/
theorem exec_watch_keepsOffMachine {i : Instr} (halu : aluParts i = none) (hchk : i ≠ .wchk) :
    ∃ f, keepsOffMachine f ∧ ∀ s, exec i s = asDebug s (.next (f s)) := by
  cases i with
  | wadd e => exact ⟨addEntry e, fun ths m l s => addEntry_withMachine ths m l s e, fun _ => rfl⟩
  | wrem => exact ⟨removeLast, removeLast_withMachine, fun _ => rfl⟩
  | wdis idx => exact ⟨disableEntry idx, fun ths m l s => disableEntry_withMachine ths m l s idx, fun _ => rfl⟩
  | wrd idx => exact ⟨fun s => finish .debug (okWith (.read (readEntry idx s))) s, fun _ _ _ _ => rfl, fun _ => rfl⟩
  | wchk => exact absurd rfl hchk
  | _ => simp [aluParts] at halu

/-! ## WCHK's content reads -/

/-- Memory `m` has the bytes of `s` at every entry below `n` whose content a WCHK may read: enabled and mapped (R183). -/
def contentsAgree (m : Memory) (n : Nat) (s : State) : Prop :=
  ∀ i, i < n → (entryAt s i).dis = false → mapped s (entryAt s i).addr = true → ∀ k, k < 8 →
    memRead m (byteAddr (entryAt s i).addr k).toNat = memRead s.mem (byteAddr (entryAt s i).addr k).toNat

/-- Agreement goes by the entries read, the map of memory and memory itself: a state in which they are the same keeps it. -/
theorem contentsAgree.congr {m : Memory} {n n' : Nat} {s s' : State} (h : contentsAgree m n s) (hn : n' ≤ n)
    (hentry : ∀ i, i < n' → entryAt s' i = entryAt s i) (hcollab : s'.collab = s.collab) (hmem : s'.mem = s.mem) :
    contentsAgree m n' s' := by
  intro i hi
  rw [hentry i hi, hmem, mapped, hcollab]
  exact h i (by omega)

/-- A byte of a content read goes by the memory byte at its address (R58, R183). -/
theorem contentByte_withMachine (ths : List Thread) {m : Memory} (l : Lock) {s : State} {a : Word} {k : Nat}
    (h : memRead m (byteAddr a k).toNat = memRead s.mem (byteAddr a k).toNat) :
    contentByte (withMachine ths m l s) a k = contentByte s a k := by
  simp [contentByte, loadByte, h]

/-- A content read goes by the eight memory bytes of its word (R183). -/
theorem contentWord_withMachine (ths : List Thread) {m : Memory} (l : Lock) {s : State} {a : Word} {n : Nat}
    (h : ∀ k, k < n → memRead m (byteAddr a k).toNat = memRead s.mem (byteAddr a k).toNat) :
    contentWord (withMachine ths m l s) a n = contentWord s a n := by
  induction n with
  | zero => rfl
  | succ n ih =>
    rw [contentWord, contentWord, ih fun k hk => h k (by omega), contentByte_withMachine ths l (h n (by omega))]

/-- Noting a content changes no entry but the one it is for (R183). -/
theorem entryAt_noteContent_of_ne {i j : Nat} (h : j ≠ i) (v : Word) (s : State) :
    entryAt (noteContent i v s).1 j = entryAt s j := by
  simp only [noteContent]
  split_ifs <;> simp [entryAt_putEntry, h.symm]

/-- Noting a content changes neither memory nor its map (R183). -/
theorem noteContent_mem_collab (i : Nat) (v : Word) (s : State) :
    (noteContent i v s).1.mem = s.mem ∧ (noteContent i v s).1.collab = s.collab := by
  simp only [noteContent]
  split_ifs <;> simp

/-- Whether a crossing read used up a draw is nothing to the entries, memory and its map (log 14). -/
theorem afterContentRead_eq (a : Word) (s : State) : ∃ d, afterContentRead a s = { s with draws := d } := by
  simp only [afterContentRead]
  split_ifs
  · exact ⟨_, rfl⟩
  · exact ⟨s.draws, rfl⟩

/-- Agreement survives the reading and noting of the entry above (R183). -/
theorem contentsAgree_noteContent {m : Memory} {i : Nat} {s : State} (v a : Word) (h : contentsAgree m (i + 1) s) :
    contentsAgree m i (noteContent i v (afterContentRead a s)).1 := by
  obtain ⟨d, hd⟩ := afterContentRead_eq a s
  obtain ⟨hmem, hcollab⟩ := noteContent_mem_collab i v { s with draws := d }
  rw [hd]
  exact h.congr (by omega) (fun j hj => entryAt_noteContent_of_ne (by omega) v _) hcollab hmem

/-- Step 3 of a WCHK does the same over other threads, memory and LK whose bytes agree at the entries it may read (R171,
R180). -/
theorem checkEntries_withMachine (ths : List Thread) {m : Memory} (l : Lock) (ea : Option Word) {n : Nat} {s s' : State}
    {r : Option Nat} (hagree : contentsAgree m n s) (h : checkEntries ea n s = .ok (s', r)) :
    checkEntries ea n (withMachine ths m l s) = .ok (withMachine ths m l s', r) := by
  induction n generalizing s with
  | zero =>
    cases h
    rfl
  | succ i ih =>
    have hsame : contentsAgree m i s := hagree.congr (by omega) (fun _ _ => rfl) rfl rfl
    simp only [checkEntries, entryAt_withMachine, mapped_withMachine] at h ⊢
    by_cases hdis : (entryAt s i).dis = true
    · simp only [hdis, if_true] at h ⊢
      exact ih hsame h
    by_cases hhit : ea = some (entryAt s i).addr
    · simp only [hdis, hhit, if_true] at h ⊢
      cases h
      rfl
    by_cases hmap : mapped s (entryAt s i).addr = true
    · have hword := contentWord_withMachine ths l (hagree i (by omega) (by simpa using hdis) hmap)
      simp only [hdis, hhit, hmap, if_true, hword, afterContentRead_withMachine, noteContent_withMachine] at h ⊢
      cases hread : contentWord s (entryAt s i).addr 8 with
      | error f => simp [hread] at h
      | ok v =>
        simp only [hread] at h ⊢
        have hbelow := contentsAgree_noteContent v (entryAt s i).addr hagree
        cases hnote : noteContent i v (afterContentRead (entryAt s i).addr s) with
        | mk s₁ triggers =>
          rw [hnote] at h hbelow
          cases triggers with
          | true =>
            cases h
            rfl
          | false => exact ih hbelow h
    · simp only [hdis, hhit, hmap] at h ⊢
      exact ih hsame h

/-- The start of a WCHK that answers next: the fast path at WLEN = 0, or what follows the decode at the debugged thread's pc
(R180, R181). -/
theorem startCheck_next_iff {s s' : State} {k : Option Word → Host.Outcome State Fault Refusal} :
    startCheck s k = .next s' ↔ s.wlen = 0 ∧ s' = endCheck none s ∨
      s.wlen ≠ 0 ∧ ∃ th, s.threads[s.debugger.tdbg]? = some th ∧ k (checkAddress s th) = .next s' := by
  unfold startCheck
  by_cases hzero : s.wlen = 0
  · simp [hzero, eq_comm]
  · cases hth : s.threads[s.debugger.tdbg]? with
    | none => simp [hzero]
    | some th => simp [hzero]

/-- A WCHK that answers next: the idle debug agent's, with WLEN = 0 or with step 3 run to its end over the address to
compare (R180, R181). -/
theorem exec_wchk_next_iff {s s' : State} :
    exec .wchk s = .next s' ↔ debugIssues s ∧
      (s.wlen = 0 ∧ s' = endCheck none s ∨
       s.wlen ≠ 0 ∧ ∃ th, s.threads[s.debugger.tdbg]? = some th ∧
         ∃ s₁ r, checkEntries (checkAddress s th) s.wlen s = .ok (s₁, r) ∧ s' = endCheck r s₁) := by
  constructor
  · intro h
    obtain ⟨hissue, hstart⟩ := asDebug_next h
    refine ⟨hissue, (startCheck_next_iff.1 hstart).imp_right ?_⟩
    rintro ⟨hpos, th, hth, hrun⟩
    refine ⟨hpos, th, hth, ?_⟩
    split at hrun
    next => cases hrun
    next s₁ r hcheck =>
      cases hrun
      exact ⟨s₁, r, hcheck, rfl⟩
  · rintro ⟨hissue, hstart⟩
    refine (asDebug_issues hissue).trans (startCheck_next_iff.2 (hstart.imp_right ?_))
    rintro ⟨hpos, th, hth, s₁, r, hcheck, rfl⟩
    exact ⟨hpos, th, hth, by rw [hcheck]⟩

/-- A WCHK that answers next leaves threads, memory and LK as they were (R26, R171). -/
theorem exec_wchk_frame {s s' : State} (h : exec .wchk s = .next s') :
    s'.threads = s.threads ∧ s'.mem = s.mem ∧ s'.lk = s.lk := by
  obtain ⟨-, ⟨-, rfl⟩ | ⟨-, th, -, s₁, r, hcheck, rfl⟩⟩ := exec_wchk_next_iff.1 h
  · exact ⟨rfl, rfl, rfl⟩
  · obtain ⟨we, d, rfl⟩ := checkEntries_frame _ _ hcheck
    exact ⟨rfl, rfl, rfl⟩

/-- A WCHK that answers next does the same over other threads, memory and LK that give the same address to compare and the
same bytes at the entries it may read (R171). -/
theorem exec_wchk_withMachine {s s' : State} {th th' : Thread} {ths : List Thread} {m : Memory} (l : Lock)
    (hth : s.threads[s.debugger.tdbg]? = some th) (hth' : ths[s.debugger.tdbg]? = some th')
    (hea : checkAddress (withMachine ths m l s) th' = checkAddress s th) (hagree : contentsAgree m s.wlen s)
    (h : exec .wchk s = .next s') : exec .wchk (withMachine ths m l s) = .next (withMachine ths m l s') := by
  obtain ⟨hissue, ⟨hzero, rfl⟩ | ⟨hpos, th₀, hth₀, s₁, r, hcheck, rfl⟩⟩ := exec_wchk_next_iff.1 h
  · exact exec_wchk_next_iff.2 ⟨hissue, .inl ⟨hzero, rfl⟩⟩
  · obtain rfl : th = th₀ := by simpa [hth] using hth₀
    have hcheck' := checkEntries_withMachine ths l _ hagree hcheck
    exact exec_wchk_next_iff.2 ⟨hissue, .inr ⟨hpos, th', hth', _, r, hea ▸ hcheck', rfl⟩⟩

/-- Settles O46: WADD, WREM, WDIS and WRD are changes of state that keep off threads, memory and LK; WCHK's step 3 goes by
the address to compare and the bytes at the enabled mapped entries. -/
theorem watchCommandsKeepOffMachineState : Obligations.WatchCommandsKeepOffMachineState := by
  refine ⟨?frame, ?others, ?wchk⟩
  case frame =>
    intro i s s' halu hexec
    by_cases hchk : i = .wchk
    · exact exec_wchk_frame (hchk ▸ hexec)
    · obtain ⟨f, hf, hrun⟩ := exec_watch_keepsOffMachine halu hchk
      obtain ⟨-, hnext⟩ := asDebug_next (hrun s ▸ hexec)
      cases hnext
      exact hf.frame s
  case others =>
    intro i s s' ths m l halu hchk hexec
    obtain ⟨f, hf, hrun⟩ := exec_watch_keepsOffMachine halu hchk
    obtain ⟨hissue, hnext⟩ := asDebug_next (hrun s ▸ hexec)
    cases hnext
    calc exec i (withMachine ths m l s)
        = .next (f (withMachine ths m l s)) := (hrun _).trans (asDebug_issues hissue)
      _ = .next (withMachine ths m l (f s)) := by rw [hf]
  case wchk =>
    intro s s' th th' ths m l u hth hth' hea hbytes hexec
    exact exec_wchk_withMachine l hth hth' hea (fun i hi hdis => hbytes i ⟨hi, hdis⟩) hexec

end Sys2Proof.Machine

/-! O8: a command that answers next ended with one status, or waits at Acquire; a status other than OK is `raise`, which
changes the issuing agent's answer alone (R220). -/

namespace Sys2Proof.Machine

/-- Agent `a`'s command ended: with OK, whatever state its effect left behind, or with another status by `raise` over the
state the command began in (R220). -/
def endsInStatus (a : Agent) (s s' : State) : Prop :=
  (∃ res s₁, s' = finish a (okWith res) s₁) ∨ ∃ st info, s' = raise a st info s

/-! ## Every command ends in a status or waits -/

/-- WADD ends with the index it stored at, or with WATCH_FULL (R172, R222). -/
theorem addEntry_endsInStatus (e : WatchEntry) (s : State) : endsInStatus .debug s (addEntry e s) := by
  unfold addEntry
  split
  next => exact .inl ⟨_, _, rfl⟩
  next =>
    split_ifs
    · exact .inr ⟨_, _, rfl⟩
    · exact .inl ⟨_, _, rfl⟩
    · exact .inl ⟨_, _, rfl⟩

/-- WDIS ends with OK, or with WATCH_INDEX (R188, R222). -/
theorem disableEntry_endsInStatus (idx : Index) (s : State) : endsInStatus .debug s (disableEntry idx s) := by
  unfold disableEntry
  split_ifs
  · exact .inr ⟨_, _, rfl⟩
  · exact .inl ⟨_, _, rfl⟩

/-- A WCHK that answers next ended with its index and OK, on the fast path as after step 3 (R180, R181, R223). -/
theorem exec_wchk_ends {s s' : State} (h : exec .wchk s = .next s') : ∃ r s₁, s' = endCheck r s₁ := by
  obtain ⟨-, ⟨-, hend⟩ | ⟨-, th, -, s₁, r, -, hend⟩⟩ := exec_wchk_next_iff.1 h
  · exact ⟨none, s, hend⟩
  · exact ⟨r, s₁, hend⟩

/-- An ALU command that answers next ended in a status, or waits at its Acquire (R113, R221). -/
theorem runAlu_endsInStatus {op : AluOp} {w : Width} {lock : Bool} {o : Oref} {s s' : State}
    (h : runAlu op w lock o s = .next s') :
    ∃ t th, threadIssues s t th ∧ (endsInStatus (.thread t) s s' ∨ ∃ f, s' = putFlight t f s) := by
  obtain ⟨t, th, hissue, hrun⟩ := runAlu_next h
  refine ⟨t, th, hissue, ?_⟩
  rcases executeUnaryAlu_cases hrun with ⟨-, hbad⟩ | ⟨-, -, -, hwait⟩ | ⟨-, -, v, -, hdone⟩
  · exact .inl (.inr ⟨_, _, hbad⟩)
  · exact .inr ⟨_, hwait⟩
  · exact .inl (.inl ⟨_, _, hdone⟩)

/-- What any command that answers next did: the idle debug agent's ended in a status, an idle thread's did or waits at its
Acquire (R61, R220, R231). -/
theorem exec_next_cases {i : Instr} {s s' : State} (h : exec i s = .next s') :
    (debugIssues s ∧ endsInStatus .debug s s') ∨
    ∃ t th, threadIssues s t th ∧ (endsInStatus (.thread t) s s' ∨ ∃ f, s' = putFlight t f s) := by
  cases i with
  | wadd e =>
    obtain ⟨hissue, hnext⟩ := asDebug_next h
    cases hnext
    exact .inl ⟨hissue, addEntry_endsInStatus e s⟩
  | wrem =>
    obtain ⟨hissue, hnext⟩ := asDebug_next h
    cases hnext
    exact .inl ⟨hissue, .inl ⟨_, _, removeLast_eq s⟩⟩
  | wchk =>
    obtain ⟨hissue, -⟩ := exec_wchk_next_iff.1 h
    obtain ⟨r, s₁, hend⟩ := exec_wchk_ends h
    exact .inl ⟨hissue, .inl ⟨_, _, hend⟩⟩
  | wdis idx =>
    obtain ⟨hissue, hnext⟩ := asDebug_next h
    cases hnext
    exact .inl ⟨hissue, disableEntry_endsInStatus idx s⟩
  | wrd idx =>
    obtain ⟨hissue, hnext⟩ := asDebug_next h
    cases hnext
    exact .inl ⟨hissue, .inl ⟨_, _, rfl⟩⟩
  | _ => exact .inr (runAlu_endsInStatus h)

/-! ## What an ended command leaves -/

/-- An idle debug agent whose command ended has one answer, and with a status other than OK nothing else differs (R220). -/
theorem endsInStatus.debug {s s' : State} (h : endsInStatus .debug s s') (hissue : debugIssues s) :
    ∃ r, s'.debugger.resp = some r ∧
      (r.status ≠ .ok → s' = { s with debugger := { s.debugger with resp := some r } }) := by
  rcases h with ⟨res, s₁, rfl⟩ | ⟨st, info, rfl⟩
  · exact ⟨okWith res, rfl, fun hne => absurd rfl hne⟩
  · refine ⟨failWith st info, rfl, fun _ => ?_⟩
    simp only [raise, finish, ← hissue.2]

/-- An idle thread whose command ended has one answer, and with a status other than OK nothing else differs (R220). -/
theorem endsInStatus.thread {s s' : State} {t : Nat} {th th' : Thread} (h : endsInStatus (.thread t) s s')
    (hissue : threadIssues s t th) (hth' : s'.threads[t]? = some th') :
    ∃ r, th'.resp = some r ∧
      (r.status ≠ .ok → s' = { s with threads := s.threads.set t { th with resp := some r } }) := by
  obtain ⟨-, hth, hidle⟩ := hissue
  rcases h with ⟨res, s₁, rfl⟩ | ⟨st, info, rfl⟩
  · obtain ⟨th₁, -, rfl⟩ : ∃ th₁, s₁.threads[t]? = some th₁ ∧ { th₁ with flight := none, resp := some (okWith res) } = th' := by
      simpa using hth'
    exact ⟨okWith res, rfl, fun hne => absurd rfl hne⟩
  · obtain rfl : { th with flight := none, resp := some (failWith st info) } = th' := by simpa [raise, hth] using hth'
    refine ⟨failWith st info, rfl, fun _ => ?_⟩
    simp only [raise, finish_thread, updThread, modify_eq_set _ hth, ← hidle]

/-- Settles O8: a command that waits is still in flight, and every other command that answers next ended in a status. -/
theorem nonOkStatusChangesNothing : Obligations.NonOkStatusChangesNothing := by
  refine ⟨?thread, ?debug⟩
  case thread =>
    intro i s s' t th th' hport hexec hth hth' hdone
    rcases exec_next_cases hexec with ⟨hissue, -⟩ | ⟨u, thu, hissue, hcases⟩
    · cases hport.symm.trans hissue.1
    · obtain rfl : t = u := by simpa [hport] using hissue.1
      obtain rfl : th = thu := by simpa [hth] using hissue.2.1
      rcases hcases with hend | ⟨f, rfl⟩
      · exact hend.thread hissue hth'
      · simp only [putFlight, updThread_self, hth, Option.map_some, Option.some.injEq] at hth'
        simp [← hth'] at hdone
  case debug =>
    intro i s s' hport hexec
    rcases exec_next_cases hexec with ⟨hissue, hend⟩ | ⟨u, thu, hissue, -⟩
    · exact hend.debug hissue
    · cases hport.symm.trans hissue.1

end Sys2Proof.Machine

/-! O45: step 3 of a WCHK, entry by entry. It passes over an entry that is disabled, or unmapped and not hit; so failures are
silent, and what it finds goes by the contents of the entries it reads (R180, R183, R186, R223). -/

namespace Sys2Proof.Machine

/-! ## What step 3 does with one entry -/

/-- Step 3 reports entry `e` by its address (R184). -/
def hits (ea : Option Word) (e : WatchEntry) : Prop := e.dis = false ∧ ea = some e.addr

/-- Step 3 reads the content at entry `e` (R183). -/
def reads (ea : Option Word) (s : State) (e : WatchEntry) : Prop :=
  e.dis = false ∧ ea ≠ some e.addr ∧ mapped s e.addr = true

/-- Step 3 goes on below entry `e` without a look at its content (R180, R183). -/
def passes (ea : Option Word) (s : State) (e : WatchEntry) : Prop :=
  e.dis = true ∨ ea ≠ some e.addr ∧ mapped s e.addr = false

/-- The word `v` at an entry differs from its prior (R183). -/
def changes (e : WatchEntry) (v : Word) : Prop := e.init = true ∧ v ≠ e.prior

/-- Entry `e` ends a WCHK that reaches it, its content being `v` (R180). -/
def triggers (ea : Option Word) (s : State) (e : WatchEntry) (v : Word) : Prop := hits ea e ∨ reads ea s e ∧ changes e v

theorem passes_or_hits_or_reads (ea : Option Word) (s : State) (e : WatchEntry) :
    passes ea s e ∨ hits ea e ∨ reads ea s e := by
  cases hdis : e.dis with
  | true => exact .inl (.inl hdis)
  | false =>
    by_cases hea : ea = some e.addr
    · exact .inr (.inl ⟨hdis, hea⟩)
    · cases hmap : mapped s e.addr with
      | true => exact .inr (.inr ⟨hdis, hea, hmap⟩)
      | false => exact .inl (.inr ⟨hea, hmap⟩)

theorem passes.not_reads {ea : Option Word} {s : State} {e : WatchEntry} (h : passes ea s e) : ¬ reads ea s e := by
  rintro ⟨hdis, -, hmap⟩
  rcases h with hdis' | ⟨-, hmap'⟩
  · simp [hdis] at hdis'
  · simp [hmap] at hmap'

theorem passes.not_triggers {ea : Option Word} {s : State} {e : WatchEntry} (h : passes ea s e) (v : Word) :
    ¬ triggers ea s e v := by
  rintro (⟨hdis, hea⟩ | ⟨hread, -⟩)
  · rcases h with hdis' | ⟨hea', -⟩
    · simp [hdis] at hdis'
    · exact hea' hea
  · exact h.not_reads hread

theorem checkEntries_of_passes {ea : Option Word} {s : State} {i : Nat} (h : passes ea s (entryAt s i)) :
    checkEntries ea (i + 1) s = checkEntries ea i s := by
  rcases h with hdis | ⟨hea, hmap⟩
  · simp [checkEntries, hdis]
  · simp [checkEntries, hea, hmap]

theorem checkEntries_of_hits {ea : Option Word} {s : State} {i : Nat} (h : hits ea (entryAt s i)) :
    checkEntries ea (i + 1) s = .ok (s, some i) := by
  obtain ⟨hdis, hea⟩ := h
  simp [checkEntries, hdis, hea]

/-- A content read that faults is the WCHK's fault (R251). -/
theorem checkEntries_of_error {ea : Option Word} {s : State} {i : Nat} {f : Fault} (h : reads ea s (entryAt s i))
    (hword : contentWord s (entryAt s i).addr 8 = .error f) : checkEntries ea (i + 1) s = .error f := by
  obtain ⟨hdis, hea, hmap⟩ := h
  simp [checkEntries, hdis, hea, hmap, hword]

/-- A content read notes the word, and ends the WCHK if it changed (R183). -/
theorem checkEntries_of_reads {ea : Option Word} {s : State} {i : Nat} {v : Word} (h : reads ea s (entryAt s i))
    (hword : contentWord s (entryAt s i).addr 8 = .ok v) :
    checkEntries ea (i + 1) s =
      if (noteContent i v (afterContentRead (entryAt s i).addr s)).2 = true
      then .ok ((noteContent i v (afterContentRead (entryAt s i).addr s)).1, some i)
      else checkEntries ea i (noteContent i v (afterContentRead (entryAt s i).addr s)).1 := by
  obtain ⟨hdis, hea, hmap⟩ := h
  simp only [checkEntries, hdis, hea, hmap, hword, if_true, if_false, Bool.false_eq_true]
  generalize noteContent i v (afterContentRead (entryAt s i).addr s) = noted
  obtain ⟨s₁, _ | _⟩ := noted <;> rfl

/-- Noting a content changes stored entries alone (R183). -/
theorem noteContent_frame (i : Nat) (v : Word) (s : State) : ∃ we, (noteContent i v s).1 = { s with we := we } := by
  simp only [noteContent]
  split_ifs <;> exact ⟨_, rfl⟩

theorem noteContent_triggers_iff (i : Nat) (v : Word) (s : State) :
    (noteContent i v s).2 = true ↔ changes (entryAt s i) v := by
  simp only [noteContent, changes]
  split_ifs <;> simp_all

/-- A noted entry holds the word and is initialised, whether it was seeded, changed or found unchanged (R183). -/
theorem entryAt_noteContent_self (i : Nat) (v : Word) (s : State) :
    entryAt (noteContent i v s).1 i = { entryAt s i with prior := v, init := true } := by
  cases he : entryAt s i with
  | mk addr prior init dis =>
    simp only [noteContent, he]
    split_ifs <;> simp_all [entryAt_putEntry]

/-- An entry is as before a WCHK's step 3 if that starts below it, or finds it disabled, hit or unmapped (R180, R223). -/
theorem entryAt_checkEntries_of_not_reads {ea : Option Word} {n : Nat} {s s' : State} {r : Option Nat} {j : Nat}
    (h : checkEntries ea n s = .ok (s', r)) (hj : n ≤ j ∨ ¬ reads ea s (entryAt s j)) :
    entryAt s' j = entryAt s j := by
  induction n generalizing s with
  | zero =>
    cases h
    rfl
  | succ i ih =>
    rcases passes_or_hits_or_reads ea s (entryAt s i) with hpass | hhit | hread
    · rw [checkEntries_of_passes hpass] at h
      exact ih h (hj.imp_left (by omega))
    · rw [checkEntries_of_hits hhit] at h
      cases h
      rfl
    · have hji : j ≠ i := by
        rintro rfl
        exact hj.elim (by omega) fun hnot => hnot hread
      cases hword : contentWord s (entryAt s i).addr 8 with
      | error f => simp [checkEntries_of_error hread hword] at h
      | ok v =>
        rw [checkEntries_of_reads hread hword] at h
        obtain ⟨d, hd⟩ := afterContentRead_eq (entryAt s i).addr s
        rw [hd] at h
        have hsame := entryAt_noteContent_of_ne hji v { s with draws := d }
        split_ifs at h
        · cases h
          exact hsame
        · obtain ⟨we, hwe⟩ := noteContent_frame i v { s with draws := d }
          refine (ih h (hj.imp (by omega) ?_)).trans hsame
          rw [hsame, hwe]
          exact id

/-! ## Step 3 over all entries at once -/

/-- A WCHK that passes over every entry finds nothing and changes nothing (R223). -/
theorem checkEntries_of_all_pass {ea : Option Word} {n : Nat} {s : State} (h : ∀ j, j < n → passes ea s (entryAt s j)) :
    checkEntries ea n s = .ok (s, none) := by
  induction n with
  | zero => rfl
  | succ i ih =>
    rw [checkEntries_of_passes (h i (by omega))]
    exact ih fun j hj => h j (by omega)

/-- Every entry below `n` whose content step 3 may read has a word, `vals` at its index, within its page (R58, R183). -/
def contentsAre (vals : Nat → Word) (ea : Option Word) (n : Nat) (s : State) : Prop :=
  ∀ j, j < n → reads ea s (entryAt s j) → withinPage s (entryAt s j).addr ∧ wordAt s (entryAt s j).addr (vals j)

/-- The outcome of comparing all entries below `n` at once: `r` is the highest that triggers, and every entry read from there
up holds its word (R186). -/
structure ParallelOutcome (vals : Nat → Word) (ea : Option Word) (n : Nat) (s s' : State) (r : Option Nat) : Prop where
  triggered : ∀ i, r = some i → i < n ∧ triggers ea s (entryAt s i) (vals i)
  highest : ∀ j, j < n → (∀ i, r = some i → i < j) → ¬ triggers ea s (entryAt s j) (vals j)
  noted : ∀ j, j < n → (∀ i, r = some i → i ≤ j) → reads ea s (entryAt s j) →
    entryAt s' j = { entryAt s j with prior := vals j, init := true }

/-- A content read that stays in its page gives the word there and uses up no draw (R58, R183). -/
theorem contentWord_of_wordAt {s : State} {a v : Word} (hpage : withinPage s a) (hword : wordAt s a v) :
    contentWord s a 8 = .ok v := by
  rw [contentWord_within hpage 8 (by omega)]
  exact (loadWord_of_memHolds hword).trans (congrArg _ (BitVec.setWidth_eq v))

/-- The entry on top triggers: the WCHK ends there. -/
theorem ParallelOutcome.of_triggers {vals : Nat → Word} {ea : Option Word} {i : Nat} {s s' : State}
    (h : triggers ea s (entryAt s i) (vals i))
    (hnote : reads ea s (entryAt s i) → entryAt s' i = { entryAt s i with prior := vals i, init := true }) :
    ParallelOutcome vals ea (i + 1) s s' (some i) where
  triggered j hj := by
    cases hj
    exact ⟨by omega, h⟩
  highest j hj habove := by
    have := habove i rfl
    omega
  noted j hj habove hread := by
    have := habove i rfl
    obtain rfl : j = i := by omega
    exact hnote hread

/-- The entry on top does not trigger: the WCHK's outcome is that of the entries below it, from a state `s₁` that differs at
most in the entry on top. -/
theorem ParallelOutcome.below {vals : Nat → Word} {ea : Option Word} {i : Nat} {s s₁ s' : State} {r : Option Nat}
    (h : ParallelOutcome vals ea i s₁ s' r) (hcollab : s₁.collab = s.collab)
    (hentry : ∀ j, j ≠ i → entryAt s₁ j = entryAt s j) (hnot : ¬ triggers ea s (entryAt s i) (vals i))
    (hnote : reads ea s (entryAt s i) → entryAt s' i = { entryAt s i with prior := vals i, init := true }) :
    ParallelOutcome vals ea (i + 1) s s' r := by
  have hreads : ∀ e, reads ea s₁ e ↔ reads ea s e := fun e => by simp [reads, mapped, hcollab]
  obtain ⟨htrig, hhigh, hnoted⟩ := h
  simp only [triggers, hreads] at htrig hhigh hnoted
  refine ⟨fun j hj => ?_, fun j hj habove => ?_, fun j hj habove hread => ?_⟩
  · obtain ⟨hlt, hj⟩ := htrig j hj
    rw [hentry j (by omega)] at hj
    exact ⟨by omega, hj⟩
  · by_cases hji : j = i
    · exact hji ▸ hnot
    · rw [← hentry j hji]
      exact hhigh j (by omega) habove
  · by_cases hji : j = i
    · subst hji
      exact hnote hread
    · have hbelow := hnoted j (by omega) habove
      rw [hentry j hji] at hbelow
      exact hbelow hread

/-- Step 3 of a WCHK whose contents are known runs to its end and gives what comparing all entries at once gives (R186). -/
theorem checkEntries_parallel {vals : Nat → Word} {ea : Option Word} {n : Nat} {s : State}
    (h : contentsAre vals ea n s) :
    ∃ s' r, checkEntries ea n s = .ok (s', r) ∧ ParallelOutcome vals ea n s s' r := by
  induction n generalizing s with
  | zero => exact ⟨s, none, rfl, by simp, by simp, by simp⟩
  | succ i ih =>
    have hbelow : contentsAre vals ea i s := fun j hj => h j (by omega)
    rcases passes_or_hits_or_reads ea s (entryAt s i) with hpass | hhit | hread
    · obtain ⟨s', r, hcheck, hout⟩ := ih hbelow
      refine ⟨s', r, (checkEntries_of_passes hpass).trans hcheck, ?_⟩
      exact hout.below rfl (fun _ _ => rfl) (hpass.not_triggers _) fun hread => absurd hread hpass.not_reads
    · exact ⟨s, some i, checkEntries_of_hits hhit,
        .of_triggers (.inl hhit) fun hread => absurd hhit.2 hread.2.1⟩
    · obtain ⟨hpage, hword⟩ := h i (by omega) hread
      have hcheck := checkEntries_of_reads hread (contentWord_of_wordAt hpage hword)
      rw [afterContentRead_within hpage] at hcheck
      have hself := entryAt_noteContent_self i (vals i) s
      by_cases hchg : changes (entryAt s i) (vals i)
      · rw [if_pos ((noteContent_triggers_iff i (vals i) s).2 hchg)] at hcheck
        exact ⟨_, some i, hcheck, .of_triggers (.inr ⟨hread, hchg⟩) fun _ => hself⟩
      · rw [if_neg (mt (noteContent_triggers_iff i (vals i) s).1 hchg)] at hcheck
        obtain ⟨we, hwe⟩ := noteContent_frame i (vals i) s
        have hentry : ∀ j, j ≠ i → entryAt (noteContent i (vals i) s).1 j = entryAt s j :=
          fun j hj => entryAt_noteContent_of_ne hj (vals i) s
        have hnoted : contentsAre vals ea i (noteContent i (vals i) s).1 := by
          intro j hj
          rw [hentry j (by omega), hwe]
          exact hbelow j hj
        obtain ⟨s', r, hrun, hout⟩ := ih hnoted
        refine ⟨s', r, hcheck.trans hrun, hout.below (by rw [hwe]) hentry ?_ fun _ => ?_⟩
        · rintro (hhit | ⟨-, hchg'⟩)
          · exact hread.2.1 hhit.2
          · exact hchg hchg'
        · exact (entryAt_checkEntries_of_not_reads hrun (.inl (le_refl i))).trans hself

/-! ## WCHK -/

@[simp] theorem entryAt_endCheck (r : Option Nat) (s : State) (i : Nat) : entryAt (endCheck r s) i = entryAt s i := rfl

/-- A WCHK of the idle debug agent whose step 3 runs to its end completes with what step 3 found; with WLEN = 0 that is
nothing (R180, R181). -/
theorem exec_wchk_of_check {s s₁ : State} {th : Thread} {r : Option Nat} (hissue : debugIssues s)
    (hth : s.threads[s.debugger.tdbg]? = some th) (h : checkEntries (checkAddress s th) s.wlen s = .ok (s₁, r)) :
    exec .wchk s = .next (endCheck r s₁) := by
  refine exec_wchk_next_iff.2 ⟨hissue, ?_⟩
  by_cases hzero : s.wlen = 0
  · rw [hzero] at h
    cases h
    exact .inl ⟨hzero, rfl⟩
  · exact .inr ⟨hzero, th, hth, s₁, r, h, rfl⟩

/-- A failed decode leaves no address to compare (R182, R223). -/
theorem checkAddress_of_failed_decode {s : State} {th : Thread} (h : (decodeNext s th).ok = false) :
    checkAddress s th = none := by
  simp [checkAddress, h]

/-- With no address to compare, an enabled mapped entry is read (R183, R223). -/
theorem reads_none_iff {s : State} {e : WatchEntry} : reads none s e ↔ e.dis = false ∧ mapped s e.addr = true := by
  simp [reads]

/-- With no address to compare, an entry triggers by content alone (R223). -/
theorem triggers_none_iff {s : State} {e : WatchEntry} {v : Word} :
    triggers none s e v ↔ e.dis = false ∧ mapped s e.addr = true ∧ e.init = true ∧ v ≠ e.prior := by
  simp [triggers, hits, reads_none_iff, changes, and_assoc]

/-- An entry whose address is unmapped is as before, whatever a WCHK does (R223). -/
theorem entryAt_exec_wchk_of_unmapped {s s' : State} {i : Nat} (h : exec .wchk s = .next s')
    (hmap : mapped s (entryAt s i).addr = false) : entryAt s' i = entryAt s i := by
  obtain ⟨-, ⟨-, rfl⟩ | ⟨-, th, -, s₁, r, hcheck, rfl⟩⟩ := exec_wchk_next_iff.1 h
  · rfl
  · rw [entryAt_endCheck]
    exact entryAt_checkEntries_of_not_reads hcheck (.inr fun hread => by simp [reads, hmap] at hread)

/-- A WCHK that passes over every enabled entry changes its answer alone (R223). -/
theorem exec_wchk_of_all_pass {s : State} {th : Thread} (hissue : debugIssues s)
    (hth : s.threads[s.debugger.tdbg]? = some th)
    (h : ∀ i, enabledAt s i → passes (checkAddress s th) s (entryAt s i)) :
    exec .wchk s = .next { s with debugger := { s.debugger with
      resp := some { status := .ok, info := .noInfo, result := .index (2 ^ s.params.idxw - 1) } } } := by
  have hpass : ∀ j, j < s.wlen → passes (checkAddress s th) s (entryAt s j) := fun j hj => by
    cases hdis : (entryAt s j).dis with
    | true => exact .inl hdis
    | false => exact h j ⟨hj, hdis⟩
  rw [exec_wchk_of_check hissue hth (checkEntries_of_all_pass hpass)]
  simp only [endCheck, finish, okWith, checkResult, notFound, ← hissue.2]

/-- Settles O45: a failed decode leaves content to compare and nothing else; an unmapped entry is passed over and never
read. -/
theorem wchkPassesOverFailuresSilently : Obligations.WchkPassesOverFailuresSilently := by
  refine ⟨?ends, ?failed, ?unmapped, ?kept⟩
  case ends =>
    intro s s' hexec
    obtain ⟨r, s₁, rfl⟩ := exec_wchk_ends hexec
    exact ⟨_, rfl⟩
  case failed =>
    intro s th vals hissue hth hfail hvals
    have hea := checkAddress_of_failed_decode hfail
    have hcontents : contentsAre vals none s.wlen s := fun j hj hread =>
      hvals j ⟨hj, hread.1⟩ hread.2.2
    obtain ⟨s₁, r, hcheck, htrig, hhigh, hnoted⟩ := checkEntries_parallel hcontents
    simp only [triggers_none_iff, reads_none_iff] at htrig hhigh hnoted
    refine ⟨endCheck r s₁, r, exec_wchk_of_check hissue hth (hea ▸ hcheck), ?answer, ?found, ?seeded⟩
    case answer =>
      obtain ⟨we, draws, rfl⟩ := checkEntries_frame _ _ hcheck
      cases r <;> rfl
    case found =>
      cases r with
      | none =>
        rintro j ⟨⟨hj, hdis⟩, hcontent⟩
        exact hhigh j hj (by simp) ⟨hdis, hcontent⟩
      | some i =>
        obtain ⟨hi, hdis, hmap, hinit, hne⟩ := htrig i rfl
        refine ⟨⟨⟨hi, hdis⟩, hmap, hinit, hne⟩, ?_, ?_⟩
        · rw [entryAt_endCheck, hnoted i hi (by simp) ⟨hdis, hmap⟩, ← hinit]
        · rintro j hij ⟨⟨hj, hdis⟩, hcontent⟩
          exact hhigh j hj (by simpa using hij) ⟨hdis, hcontent⟩
    case seeded =>
      rintro j habove ⟨hj, hdis⟩ hmap -
      exact hnoted j hj (fun i hi => (habove i hi).le) ⟨hdis, hmap⟩
  case unmapped =>
    intro s th hissue hth hall
    exact exec_wchk_of_all_pass hissue hth fun i hi => .inr (hall i hi).symm
  case kept =>
    intro s s' i hexec hmap
    exact entryAt_exec_wchk_of_unmapped hexec hmap

end Sys2Proof.Machine

/-! O49 to O53, O26, O27, O29: what a thread's turn and the debug agent's turn can do to the state, said once; the invariant
and the frames follow (R61 to R64, R110, R171). -/

namespace Sys2Proof.Machine

/-! ## One indivisible step of an ALU command in flight -/

/-- Where a command in flight can stand after one of its steps, `none` where it has ended (R62 to R64). -/
inductive FlightStep (f : Flight) : Option Flight → Prop
  | acquired : f.phase = .acquire → FlightStep f (some { f with phase := .load (allBytes f.width) 0 })
  | byteRead {todo : List Nat} {acc acc' : Word} {k : Nat} :
      f.phase = .load todo acc → k ∈ todo → FlightStep f (some { f with phase := .load (todo.erase k) acc' })
  | evaluated {todo : List Nat} {acc r : Word} :
      f.phase = .load todo acc → FlightStep f (some { f with phase := .store (allBytes f.width) r })
  | byteWritten {todo : List Nat} {r : Word} {k : Nat} :
      f.phase = .store todo r → k ∈ todo → FlightStep f (some { f with phase := .store (todo.erase k) r })
  | toRelease {todo : List Nat} {r : Word} :
      f.phase = .store todo r → f.path = .locked → FlightStep f (some { f with phase := .release })
  | stored {todo : List Nat} {r : Word} : f.phase = .store todo r → f.path ≠ .locked → FlightStep f none
  | released : f.phase = .release → FlightStep f none
  | casLoaded {v : Word} : f.phase = .casLoad → FlightStep f (some { f with phase := .casTry v })
  | casStored {e : Word} : f.phase = .casTry e → FlightStep f none
  | casFailed {e : Word} : f.phase = .casTry e → FlightStep f (some { f with phase := .casLoad })

/-- What a step leaves in the thread's registers and in memory: what was there, a register operand written, a memory operand
written, or one byte of one (R62, R115). -/
inductive OperandStep (f : Flight) (th : Thread) (m : Memory) : List Word → Memory → Prop
  | nothing : OperandStep f th m th.regs m
  | register {i : Nat} {boff : Bool} {r : Word} : f.oref = .reg i boff →
      OperandStep f th m (putAt th.regs i (regAfterWrite f.width (readReg th i) (regOffset boff) r) 0) m
  | memory {a r : Word} : f.oref = .mem a → OperandStep f th m th.regs (storeWord m a r (widthBytes f.width))
  | byte {a r : Word} {todo : List Nat} {k : Nat} : f.oref = .mem a → f.phase = .store todo r → k ∈ todo →
      OperandStep f th m th.regs (memWrite m (byteAddr a k).toNat (byteOf r k))

/-- A step writes FLAGS where it evaluates F on the operand's value: at the end of a read (R28, R111, R114). -/
def FlagStep (sem : FlagSem) (f : Flight) (th th' : Thread) : Prop :=
  (∃ v, th'.flags = flagsAfter sem f.op f.width v th.flags) ∧
  ((∃ todo acc, f.phase = .load todo acc) ∨ f.phase = .casLoad) ∧
  ∀ f' todo acc, th'.flight = some f' → f'.phase ≠ .load todo acc

/-- A step takes LK at Acquire, gives it back at Release, and keeps it elsewhere (R63). -/
def LockStep (t : Nat) (f : Flight) (l l' : Lock) : Prop :=
  (f.phase = .acquire ∧ l = .free ∧ l' = .held t) ∨ (f.phase = .release ∧ l' = .free) ∨
  (f.phase ≠ .acquire ∧ f.phase ≠ .release ∧ l' = l)

/-- What one indivisible step of thread `t`'s command in flight does, wherever it moves it: `th` becomes `th'`. -/
structure AluStep (t : Nat) (th th' : Thread) (f : Flight) (s s' : State) : Prop where
  state : s' = { s with threads := s.threads.set t th', mem := s'.mem, lk := s'.lk }
  pc : th'.pc = th.pc
  queue : th'.queue = th.queue
  flight : FlightStep f th'.flight
  operand : OperandStep f th s.mem th'.regs s'.mem
  flags : th'.flags = th.flags ∨ FlagStep s.params.flagSem f th th'
  lock : LockStep t f s.lk s'.lk

/-- Changing a thread of the machine puts the changed thread in its place. -/
theorem updThread_eq_set {s : State} {t : Nat} {th : Thread} (ht : s.threads[t]? = some th) (g : Thread → Thread) :
    updThread t g s = { s with threads := s.threads.set t (g th) } := by
  simp only [updThread, modify_eq_set g ht]

theorem goPhase_eq_set {s : State} {t : Nat} {th : Thread} (ht : s.threads[t]? = some th) (f : Flight) (p : Phase) :
    goPhase t f p s = { s with threads := s.threads.set t { th with flight := some { f with phase := p } } } :=
  updThread_eq_set ht _

theorem finish_eq_set {s : State} {t : Nat} {th : Thread} (ht : s.threads[t]? = some th) (r : Response) :
    finish (.thread t) r s = { s with threads := s.threads.set t { th with flight := none, resp := some r } } :=
  updThread_eq_set ht _

/-- A thread put in its own place is no change. -/
theorem threads_set_self {s : State} {t : Nat} {th : Thread} (ht : s.threads[t]? = some th) : s.threads.set t th = s.threads := by
  obtain ⟨hlt, rfl⟩ := List.getElem?_eq_some_iff.1 ht
  exact List.set_getElem_self hlt

/-- The thread of a list of threads after it was set. -/
theorem getElem?_set_of_some {l : List Thread} {t : Nat} {th : Thread} (ht : l[t]? = some th) (th' : Thread) :
    (l.set t th')[t]? = some th' := by
  obtain ⟨hlt, -⟩ := List.getElem?_eq_some_iff.1 ht
  simp [hlt]

/-- The flags an evaluation of F leaves, and nothing else of the state (R116 to R119). -/
theorem putFlags_eq_set {s : State} {t : Nat} {th : Thread} (ht : s.threads[t]? = some th) (op : AluOp) (w : Width)
    (v : Word) : putFlags t op w v s =
      { s with threads := s.threads.set t { th with flags := flagsAfter s.params.flagSem op w v th.flags } } :=
  updThread_eq_set ht _

/-- A step that evaluates F and moves the command in flight on is a change of that thread alone (R62, R64). -/
theorem goPhase_putFlags_eq_set {s : State} {t : Nat} {th : Thread} (ht : s.threads[t]? = some th) (f : Flight) (p : Phase)
    (v : Word) : goPhase t f p (putFlags t f.op f.width v s) = { s with threads := s.threads.set t { th with
      flags := flagsAfter s.params.flagSem f.op f.width v th.flags, flight := some { f with phase := p } } } := by
  rw [goPhase, putFlight, putFlags, updThread_updThread, updThread_eq_set ht]
  rfl

/-- What the write of a whole operand leaves in its thread's registers and in memory (R115). -/
theorem storeOperand_eq_set {s : State} {t : Nat} {th : Thread} (ht : s.threads[t]? = some th) (f : Flight) (r : Word) :
    ∃ rs m, OperandStep f th s.mem rs m ∧
      storeOperand t f.width f.oref r s = { s with threads := s.threads.set t { th with regs := rs }, mem := m } := by
  cases ho : f.oref with
  | reg i boff => exact ⟨_, _, .register ho, updThread_eq_set ht _⟩
  | mem a => exact ⟨_, _, .memory ho, by simp only [threads_set_self ht]; rfl⟩

/-- The last byte of a LOCKED command's store leaves its Release to do, another command's ends it (R62, R63). -/
theorem stored_locked {f : Flight} (h : f.path = .locked) (t : Nat) (s : State) : stored t f s = goPhase t f .release s := by
  simp [stored, h]

theorem stored_unlocked {f : Flight} (h : f.path ≠ .locked) (t : Nat) (s : State) :
    stored t f s = finish (.thread t) (okWith .noResult) s := by
  cases hp : f.path <;> simp_all [stored]

/-- A step that leaves LK to the Acquire and the Release, as every step but those does (R63). -/
theorem AluStep.inside {t : Nat} {th th' : Thread} {f : Flight} {s : State} {m : Memory}
    (hacquire : f.phase ≠ .acquire) (hrelease : f.phase ≠ .release) (hpc : th'.pc = th.pc) (hqueue : th'.queue = th.queue)
    (hflight : FlightStep f th'.flight) (hoperand : OperandStep f th s.mem th'.regs m)
    (hflags : th'.flags = th.flags ∨ FlagStep s.params.flagSem f th th') :
    AluStep t th th' f s { s with threads := s.threads.set t th', mem := m } :=
  ⟨rfl, hpc, hqueue, hflight, hoperand, hflags, .inr (.inr ⟨hacquire, hrelease, rfl⟩)⟩

/-- Everything one indivisible step of a command in flight can do: wait at its Acquire while LK is HELD, or an `AluStep`
(R62 to R64, R113). -/
theorem advanceThread_cases {t : Nat} {th : Thread} {f : Flight} {pick : Nat} {s s' : State} (ht : s.threads[t]? = some th)
    (h : advanceThread t th f pick s = .next s') :
    (f.phase = .acquire ∧ (∃ u, s.lk = .held u) ∧ s' = s) ∨ ∃ th', AluStep t th th' f s s' := by
  cases hp : f.phase with
  | acquire =>
    simp only [advanceThread, hp, acquireStep] at h
    cases hl : s.lk with
    | held u =>
      simp only [hl, Host.Outcome.next.injEq] at h
      exact .inl ⟨rfl, ⟨u, rfl⟩, h.symm⟩
    | free =>
      simp only [hl, goPhase_eq_set (s := acquire t s) ht] at h
      cases h
      exact .inr ⟨_, rfl, rfl, rfl, .acquired hp, .nothing, .inl rfl, .inl ⟨hp, hl, rfl⟩⟩
  | load todo acc =>
    simp only [advanceThread, hp] at h
    rcases loadStep_cases h with ⟨v, rfl⟩ | ⟨k, acc', hk, rfl⟩
    · rw [transformed, goPhase_putFlags_eq_set ht]
      refine .inr ⟨_, .inside (by simp [hp]) (by simp [hp]) rfl rfl (.evaluated hp) .nothing
        (.inr ⟨⟨v, rfl⟩, .inl ⟨_, _, hp⟩, ?_⟩)⟩
      rintro f' todo' acc' ⟨⟩ ⟨⟩
    · rw [goPhase_eq_set ht]
      exact .inr ⟨_, .inside (by simp [hp]) (by simp [hp]) rfl rfl (.byteRead hp hk) .nothing (.inl rfl)⟩
  | store todo r =>
    simp only [advanceThread, hp, Host.Outcome.next.injEq] at h
    subst h
    obtain ⟨s₁, hwrite, hmove⟩ := storeStep_cases t f todo r pick s
    obtain ⟨rs, m, hoperand, rfl⟩ : ∃ rs m, OperandStep f th s.mem rs m ∧
        s₁ = { s with threads := s.threads.set t { th with regs := rs }, mem := m } := by
      rcases hwrite with rfl | rfl | ⟨a, k, ho, hk, rfl⟩
      · exact ⟨_, _, .nothing, by simp only [threads_set_self ht]⟩
      · exact storeOperand_eq_set ht f r
      · exact ⟨_, _, .byte ho hp hk, by simp only [threads_set_self ht]⟩
    have ht₁ := getElem?_set_of_some ht { th with regs := rs }
    refine .inr ?_
    rcases hmove with hmove | ⟨k, hk, hmove⟩
    · rw [hmove]
      by_cases hpath : f.path = .locked
      · rw [stored_locked hpath, goPhase_eq_set ht₁, List.set_set]
        exact ⟨_, .inside (by simp [hp]) (by simp [hp]) rfl rfl (.toRelease hp hpath) hoperand (.inl rfl)⟩
      · rw [stored_unlocked hpath, finish_eq_set ht₁, List.set_set]
        exact ⟨_, .inside (by simp [hp]) (by simp [hp]) rfl rfl (.stored hp hpath) hoperand (.inl rfl)⟩
    · rw [hmove, goPhase_eq_set ht₁, List.set_set]
      exact ⟨_, .inside (by simp [hp]) (by simp [hp]) rfl rfl (.byteWritten hp hk) hoperand (.inl rfl)⟩
  | release =>
    simp only [advanceThread, hp, Host.Outcome.next.injEq] at h
    rw [← h, finish_eq_set (s := release s) ht]
    exact .inr ⟨_, rfl, rfl, rfl, .released hp, .nothing, .inl rfl, .inr (.inl ⟨hp, rfl⟩)⟩
  | casLoad =>
    simp only [advanceThread, hp] at h
    obtain ⟨v, -, rfl⟩ := casLoadStep_next h
    rw [goPhase_putFlags_eq_set ht]
    refine .inr ⟨_, .inside (by simp [hp]) (by simp [hp]) rfl rfl (.casLoaded hp) .nothing
      (.inr ⟨⟨v, rfl⟩, .inr hp, ?_⟩)⟩
    rintro f' todo' acc' ⟨⟩ ⟨⟩
  | casTry e =>
    simp only [advanceThread, hp] at h
    refine .inr ?_
    obtain ⟨cur, -, ⟨-, rfl⟩ | ⟨-, rfl⟩⟩ := casTryStep_next h
    · obtain ⟨rs, m, hoperand, hstore⟩ := storeOperand_eq_set ht f (aluResult f.op f.width e)
      rw [hstore, finish_eq_set (getElem?_set_of_some ht _), List.set_set]
      exact ⟨_, .inside (by simp [hp]) (by simp [hp]) rfl rfl (.casStored hp) hoperand (.inl rfl)⟩
    · rw [goPhase_eq_set ht]
      exact ⟨_, .inside (by simp [hp]) (by simp [hp]) rfl rfl (.casFailed hp) .nothing (.inl rfl)⟩

/-! ## What a step of a command in flight keeps -/

theorem FlightStep.kept {f f' : Flight} {fl : Option Flight} (h : FlightStep f fl) (hf : fl = some f') :
    f'.path = f.path ∧ f'.oref = f.oref ∧ f'.phase ≠ .acquire := by
  cases h <;> cases hf <;> simp

theorem FlightStep.of_acquire {f : Flight} {fl : Option Flight} (h : FlightStep f fl) (hp : f.phase = .acquire) :
    fl = some { f with phase := .load (allBytes f.width) 0 } := by
  cases h <;> simp_all

theorem FlightStep.of_release {f : Flight} {fl : Option Flight} (h : FlightStep f fl) (hp : f.phase = .release) :
    fl = none := by
  cases h <;> simp_all

/-- A LOCKED command ends by its Release (R63). -/
theorem FlightStep.ended {f : Flight} (h : FlightStep f none) (hwf : flightWf f) (hpath : f.path = .locked) :
    f.phase = .release := by
  cases h with
  | stored _ hne => exact absurd hpath hne
  | released hp => exact hp
  | casStored hp => simp [flightWf, hp, hpath] at hwf

/-- A step keeps a command in flight well formed (R62 to R64). -/
theorem FlightStep.wf {f f' : Flight} {fl : Option Flight} (h : FlightStep f fl) (hwf : flightWf f) (hf : fl = some f') :
    flightWf f' := by
  have hall : ∀ k ∈ allBytes f.width, k < widthBytes f.width := by simp [allBytes]
  cases h <;> cases hf <;> simp only [flightWf, *] at hwf ⊢
  case acquired => exact ⟨by simp [hwf], hall⟩
  case byteRead => exact ⟨hwf.1, fun k hk => hwf.2 k (List.mem_of_mem_erase hk)⟩
  case evaluated => exact ⟨hwf.1, hall⟩
  case byteWritten => exact ⟨hwf.1, fun k hk => hwf.2 k (List.mem_of_mem_erase hk)⟩
  case casLoaded => exact hwf
  case casFailed => exact hwf

/-- A step leaves the command in flight otherwise than it was. -/
theorem FlightStep.ne {f : Flight} {fl : Option Flight} (h : FlightStep f fl) : fl ≠ some f := by
  intro he
  have hphase : ∀ f' ∈ fl, f'.phase = f.phase := fun f' hf' => by rw [Option.some.inj (hf'.symm.trans he)]
  cases h with
  | stored | released | casStored => cases he
  | byteRead hp hk => simp [hp, List.erase_eq_self_iff, hk] at hphase
  | byteWritten hp hk => simp [hp, List.erase_eq_self_iff, hk] at hphase
  | _ hp => simp [hp] at hphase

/-- A step whose register operand is one of the thread's keeps the number of registers (R20). -/
theorem OperandStep.registers {f : Flight} {th : Thread} {m m' : Memory} {rs : List Word} (h : OperandStep f th m rs m')
    (hreg : ∀ i boff, f.oref = .reg i boff → i < th.regs.length) : rs.length = th.regs.length := by
  cases h with
  | register ho => exact length_putAt (hreg _ _ ho) ..
  | _ => rfl

/-- A step keeps memory's canonical form. -/
theorem OperandStep.memoryWf {f : Flight} {th : Thread} {m m' : Memory} {rs : List Word} (h : OperandStep f th m rs m')
    (hwf : memoryWf m) : memoryWf m' := by
  cases h with
  | memory => exact memoryWf_storeWord hwf ..
  | byte => exact memoryWf_memWrite hwf (BitVec.isLt _) _
  | _ => exact hwf

/-! ## A thread's turn -/

/-- Thread `th` is between the Acquire and the Release of a LOCKED command (R63). -/
def insideLocked (th : Thread) : Prop := ∃ f, th.flight = some f ∧ inCritical f

theorem critical_iff {s : State} {t : Nat} : critical s t ↔ ∃ th, s.threads[t]? = some th ∧ insideLocked th := by
  simp [critical, insideLocked]

/-- What the invariant says of one thread: NREG registers, and a well-formed command in flight (R20, R88). -/
def threadOk (p : Params) (th : Thread) : Prop :=
  th.regs.length = p.nreg ∧
  ∀ f, th.flight = some f → flightWf f ∧ ∀ i boff, f.oref = .reg i boff → i < p.nreg

/-- Thread `t`, before `th` and then `th'`, and LK, before `l` and then `l'`, keep together: LK is taken and given back with
the entry into a critical section and the exit from it (R63, R113). -/
def lockMoves (t : Nat) (th th' : Thread) (l l' : Lock) : Prop :=
  (l' = l ∧ (insideLocked th' ↔ insideLocked th)) ∨ (l = .free ∧ l' = .held t ∧ insideLocked th') ∨
  (insideLocked th ∧ l' = .free ∧ ¬ insideLocked th')

/-- What thread `t`'s turn does to the state, `th` becoming `th'`: nothing but that thread, memory, LK and the issue latch
differs, its pc is as before, and what the invariant says of it is kept (R110, R140). -/
structure ThreadMove (t : Nat) (th th' : Thread) (s s' : State) : Prop where
  state : s' = { s with threads := s.threads.set t th', mem := s'.mem, lk := s'.lk, port := s'.port }
  pc : th'.pc = th.pc
  memory : memoryWf s.mem → memoryWf s'.mem
  thread : threadOk s.params th → threadOk s.params th' ∧ lockMoves t th th' s.lk s'.lk

theorem lockMoves.of_same {t : Nat} {th th' : Thread} (l : Lock) (h : insideLocked th' ↔ insideLocked th) :
    lockMoves t th th' l l := .inl ⟨rfl, h⟩

theorem not_insideLocked_of_idle {th : Thread} (h : th.flight = none) : ¬ insideLocked th := by
  simp [insideLocked, h]

/-- LK moves with the step of a well-formed command in flight (R63). -/
theorem LockStep.moves {t : Nat} {th th' : Thread} {f : Flight} {l l' : Lock} (h : LockStep t f l l')
    (hf : th.flight = some f) (hwf : flightWf f) (hstep : FlightStep f th'.flight) : lockMoves t th th' l l' := by
  have hin : insideLocked th ↔ inCritical f := by simp [insideLocked, hf]
  rcases h with ⟨hp, hl, hl'⟩ | ⟨hp, hl'⟩ | ⟨hacquire, hrelease, hl'⟩
  · have hpath : f.path = .locked := by simpa [flightWf, hp] using hwf
    exact .inr (.inl ⟨hl, hl', _, hstep.of_acquire hp, hpath, by simp⟩)
  · have hpath : f.path = .locked := by simpa [flightWf, hp] using hwf
    exact .inr (.inr ⟨hin.2 ⟨hpath, by simp [hp]⟩, hl', not_insideLocked_of_idle (hstep.of_release hp)⟩)
  · refine .inl ⟨hl', ?_⟩
    rw [hin]
    cases hf' : th'.flight with
    | none =>
      refine iff_of_false (not_insideLocked_of_idle hf') fun hc => hrelease ?_
      exact (hf' ▸ hstep).ended hwf hc.1
    | some f' =>
      obtain ⟨hpath, -, hphase⟩ := hstep.kept hf'
      simp [insideLocked, hf', inCritical, hpath, hphase, hacquire]

/-- A step of a command in flight is a move of its thread. -/
theorem AluStep.move {t : Nat} {th th' : Thread} {f : Flight} {s s' : State} (h : AluStep t th th' f s s')
    (hf : th.flight = some f) : ThreadMove t th th' s s' where
  state := by rw [h.state]
  pc := h.pc
  memory := h.operand.memoryWf
  thread := by
    rintro ⟨hregs, hflight⟩
    obtain ⟨hwf, hreg⟩ := hflight f hf
    refine ⟨⟨?_, fun f' hf' => ⟨h.flight.wf hwf hf', ?_⟩⟩, h.lock.moves hf hwf h.flight⟩
    · exact (h.operand.registers (hregs ▸ hreg)).trans hregs
    · rwa [(h.flight.kept hf').2.1]

/-! ## Commands by class: ALU commands from threads, watch commands from the debug agent -/

theorem aluInstr_of_aluParts {i : Instr} {op : AluOp} {w : Width} {lock : Bool} {o : Oref}
    (h : aluParts i = some (op, w, lock, o)) : aluInstr op w lock o = i := by
  cases i <;> cases h <;> rfl

theorem aluParts_aluInstr (op : AluOp) (w : Width) (lock : Bool) (o : Oref) :
    aluParts (aluInstr op w lock o) = some (op, w, lock, o) := by
  cases op <;> cases w <;> rfl

/-- A command is an ALU command, named by its parts, or a watch command (R82, R86). -/
theorem aluInstr_or_watch (i : Instr) : (∃ op w lock o, i = aluInstr op w lock o) ∨ aluParts i = none := by
  cases h : aluParts i with
  | none => exact .inr rfl
  | some parts =>
    obtain ⟨op, w, lock, o⟩ := parts
    exact .inl ⟨op, w, lock, o, (aluInstr_of_aluParts h).symm⟩

theorem beginInstr_aluInstr (op : AluOp) (w : Width) (lock : Bool) (o : Oref) (s : State) :
    beginInstr (aluInstr op w lock o) s = beginAlu op w lock o s := by
  simp only [beginInstr, aluParts_aluInstr]

/-- A watch command but WCHK is one indivisible step (R170). -/
theorem beginInstr_watch {i : Instr} (halu : aluParts i = none) (hchk : i ≠ .wchk) (s : State) :
    beginInstr i s = exec i s := by
  cases i <;> simp_all [beginInstr, aluParts]

/-- A watch command, whole or begun, is asked of the debug agent first (R170, R231). -/
theorem exec_watch {i : Instr} (h : aluParts i = none) (s : State) : ∃ k, exec i s = asDebug s k := by
  cases i with
  | wadd | wrem | wchk | wdis | wrd => exact ⟨_, rfl⟩
  | _ => simp [aluParts] at h

theorem beginInstr_wchk (s : State) :
    beginInstr .wchk s = asDebug s (startCheck s fun ea =>
      .next (putCheck { thread := s.debugger.tdbg, left := s.wlen, ea := ea, todo := contentBytes, acc := 0 } s)) := rfl

/-- How an agent's turn runs its next command: whole, or from its first indivisible step on (log 13). -/
def runsCommands (k : Instr → State → Host.Outcome State Fault Refusal) : Prop := k = exec ∨ k = beginInstr

/-- No watch command of a thread answers next (R231). -/
theorem runsCommands.watch_debug {k : Instr → State → Host.Outcome State Fault Refusal} (hk : runsCommands k) {i : Instr}
    {s s' : State} (hi : aluParts i = none) (h : k i s = .next s') : debugIssues s := by
  obtain ⟨k', hexec⟩ := exec_watch hi s
  rcases hk with rfl | rfl
  · exact (asDebug_next (hexec ▸ h)).1
  · by_cases hchk : i = .wchk
    · subst hchk
      exact (asDebug_next (beginInstr_wchk s ▸ h)).1
    · rw [beginInstr_watch hi hchk, hexec] at h
      exact (asDebug_next h).1

/-! ## A thread's next command -/

/-- An idle thread's command writes registers and memory as the operand asks, and leaves the thread with nothing in flight or
with a well-formed command that is not inside a critical section: a move of its thread. -/
theorem ThreadMove.of_idle {t : Nat} {th th' : Thread} {s : State} {m : Memory} (hidle : th.flight = none)
    (hpc : th'.pc = th.pc) (hmem : memoryWf s.mem → memoryWf m)
    (hregs : th.regs.length = s.params.nreg → th'.regs.length = s.params.nreg)
    (hflight : ∀ f, th'.flight = some f → ¬ inCritical f ∧ flightWf f ∧ ∀ i boff, f.oref = .reg i boff → i < s.params.nreg) :
    ThreadMove t th th' s { s with threads := s.threads.set t th', mem := m } where
  state := rfl
  pc := hpc
  memory := hmem
  thread hok := by
    refine ⟨⟨hregs hok.1, fun f hf => (hflight f hf).2⟩, .of_same _ (iff_of_false ?_ (not_insideLocked_of_idle hidle))⟩
    rintro ⟨f, hf, hc⟩
    exact (hflight f hf).1 hc

/-- One move of a thread after another is a move of that thread. -/
theorem ThreadMove.trans_of_idle {t : Nat} {th th₁ th' : Thread} {s s₁ s' : State} (h : ThreadMove t th th₁ s s₁)
    (h' : ThreadMove t th₁ th' s₁ s') (hlk : s₁.lk = s.lk) (hidle : th₁.flight = th.flight) : ThreadMove t th th' s s' where
  state := by
    rw [h'.state, h.state]
    simp
  pc := h'.pc.trans h.pc
  memory hm := h'.memory (h.memory hm)
  thread hok := by
    have hparams : s₁.params = s.params := by rw [h.state]
    have hsame : insideLocked th₁ ↔ insideLocked th := by simp [insideLocked, hidle]
    obtain ⟨hok', hmoves⟩ := h'.thread (hparams ▸ (h.thread hok).1)
    rw [hparams] at hok'
    rw [lockMoves, hlk, hsame] at hmoves
    exact ⟨hok', hmoves⟩

/-- The well-formed register operand is one of the NREG (R88). -/
theorem orefOk_reg {s : State} {w : Width} {o : Oref} (h : orefOk s w o = true) (i : Nat) (boff : Bool)
    (ho : o = .reg i boff) : i < s.params.nreg := by
  subst ho
  simp only [orefOk, Bool.and_eq_true, decide_eq_true_eq] at h
  exact h.1

/-- A malformed operand's status is a move of its thread (R221). -/
theorem raise_move {t : Nat} {th : Thread} {s : State} (ht : s.threads[t]? = some th) (hidle : th.flight = none)
    (st : Status) (info : Info) : ∃ th', ThreadMove t th th' s (raise (.thread t) st info s) := by
  rw [raise, finish_eq_set ht]
  exact ⟨_, .of_idle hidle rfl id id (by simp)⟩

/-- A command that goes into flight outside a critical section is a move of its thread (R61). -/
theorem putFlight_move {t : Nat} {th : Thread} {s : State} {f : Flight} (ht : s.threads[t]? = some th)
    (hidle : th.flight = none) (hcrit : ¬ inCritical f) (hwf : flightWf f)
    (hreg : ∀ i boff, f.oref = .reg i boff → i < s.params.nreg) : ∃ th', ThreadMove t th th' s (putFlight t f s) := by
  rw [putFlight, updThread_eq_set ht]
  refine ⟨_, .of_idle hidle rfl id id ?_⟩
  rintro f' ⟨⟩
  exact ⟨hcrit, hwf, hreg⟩

/-- An ALU command run whole is a move of its thread (R110, R111). -/
theorem executeUnaryAlu_move {t : Nat} {th : Thread} {op : AluOp} {w : Width} {lock : Bool} {o : Oref} {s s' : State}
    (ht : s.threads[t]? = some th) (hidle : th.flight = none) (h : executeUnaryAlu t th op w lock o s = .next s') :
    ∃ th', ThreadMove t th th' s s' := by
  rcases executeUnaryAlu_cases h with ⟨-, rfl⟩ | ⟨hok, -, -, rfl⟩ | ⟨hok, -, v, -, rfl⟩
  · exact raise_move ht hidle _ _
  · exact putFlight_move ht hidle (by simp [inCritical]) rfl (orefOk_reg hok)
  · rw [putFlags_eq_set ht]
    have ht₁ := getElem?_set_of_some ht { th with flags := flagsAfter s.params.flagSem op w v th.flags }
    obtain ⟨rs, m, hoperand, hstore⟩ := storeOperand_eq_set
      (s := { s with threads := s.threads.set t { th with flags := flagsAfter s.params.flagSem op w v th.flags } }) ht₁
      { op := op, width := w, oref := o, path := .plain, phase := .load [] v } (aluResult op w v)
    rw [hstore, finish_eq_set (getElem?_set_of_some ht₁ _), List.set_set, List.set_set]
    refine ⟨_, .of_idle hidle rfl hoperand.memoryWf (fun hn => ?_) (by simp)⟩
    exact (hoperand.registers fun i boff ho => hn ▸ orefOk_reg hok i boff ho).trans hn

/-- The first phase of a path belongs to it, and is outside a critical section (R62 to R64). -/
theorem firstPhase_wf (op : AluOp) (w : Width) (o : Oref) (p : Path) :
    let f : Flight := { op := op, width := w, oref := o, path := p, phase := firstPhase w p }
    ¬ inCritical f ∧ flightWf f := by
  cases p <;> simp [inCritical, flightWf, firstPhase, allBytes]

/-- A thread's command, whole or begun, is a move of that thread (R61, R110). -/
theorem runsCommands.thread_move {k : Instr → State → Host.Outcome State Fault Refusal} (hk : runsCommands k) {i : Instr}
    {t : Nat} {th : Thread} {s s' : State} (hissue : threadIssues s t th) (h : k i s = .next s') :
    ∃ th', ThreadMove t th th' s s' := by
  have hport := hissue.1
  rcases aluInstr_or_watch i with ⟨op, w, lock, o, rfl⟩ | hi
  · rcases hk with rfl | rfl
    · rw [exec_aluInstr, runAlu_issues hissue] at h
      exact executeUnaryAlu_move hissue.2.1 hissue.2.2 h
    · rw [beginInstr_aluInstr] at h
      obtain ⟨u, thu, hu, hcases⟩ := beginAlu_next h
      obtain rfl : t = u := by simpa [hport] using hu.1
      rcases hcases with ⟨hok, rfl⟩ | ⟨-, rfl⟩
      · obtain ⟨hcrit, hwf⟩ := firstPhase_wf op w o (pathOf s.params w lock o)
        exact putFlight_move hissue.2.1 hissue.2.2 hcrit hwf (orefOk_reg hok)
      · exact raise_move hissue.2.1 hissue.2.2 _ _
  · cases hport.symm.trans (hk.watch_debug hi h).1

/-- The turn of an idle thread issues its next command, unless a WCHK in flight is checking it (R61, R191). -/
theorem turn_idle {s : State} {t : Nat} (h : ∀ th, s.threads[t]? = some th → th.flight = none) (pick : Nat)
    (k : Instr → State → Host.Outcome State Fault Refusal) :
    turn (.thread t) pick k s = if blocked t s then .next s else issue (.thread t) k s := by
  have hnone : flightOf s t = none := by
    rw [flightOf]
    split
    next => rfl
    next th ht => simp [h th ht]
  simp only [turn, hnone]

/-- The thread of a number is idle if the one that stands there is. -/
theorem idle_of_getElem? {s : State} {t : Nat} {th : Thread} (ht : s.threads[t]? = some th) (hidle : th.flight = none) :
    ∀ th', s.threads[t]? = some th' → th'.flight = none := fun th' ht' => by
  obtain rfl : th = th' := by simpa [ht] using ht'
  exact hidle

/-- A thread has a command in flight, or is idle or no thread at all (R19, R61). -/
theorem inFlight_or_idle (s : State) (t : Nat) :
    (∃ th f, s.threads[t]? = some th ∧ th.flight = some f) ∨ ∀ th, s.threads[t]? = some th → th.flight = none := by
  by_cases hflying : ∃ th f, s.threads[t]? = some th ∧ th.flight = some f
  · exact .inl hflying
  · exact .inr fun th ht => Option.eq_none_iff_forall_not_mem.2 fun f hf => hflying ⟨th, f, ht, hf⟩

/-- Taking a command from its stream is a move of a thread (R80). -/
theorem takeCommand_move {t : Nat} {s s₁ : State} {p : PortWord} (h : takeCommand (.thread t) s = some (p, s₁)) :
    ∃ th th₁, s.threads[t]? = some th ∧ s₁.threads[t]? = some th₁ ∧ th₁.flight = th.flight ∧ s₁.port.agent = .thread t ∧
      s₁.lk = s.lk ∧ ThreadMove t th th₁ s s₁ := by
  obtain ⟨th, rest, ht, -, rfl⟩ := takeCommand_thread h
  exact ⟨th, _, ht, getElem?_set_of_some ht { th with queue := rest }, rfl, rfl, rfl,
    rfl, rfl, id, fun hok => ⟨hok, .of_same _ Iff.rfl⟩⟩

/-- A thread's turn that answers next is a move of that thread, or nothing at all (R61, R110, R191). -/
theorem thread_turn_move {k : Instr → State → Host.Outcome State Fault Refusal} (hk : runsCommands k) {t pick : Nat}
    {s s' : State} (h : turn (.thread t) pick k s = .next s') :
    s' = s ∨ ∃ th th', s.threads[t]? = some th ∧ ThreadMove t th th' s s' := by
  rcases inFlight_or_idle s t with ⟨th, f, ht, hf⟩ | hidle
  · rw [turn_inFlight ht hf] at h
    rcases advanceThread_cases ht h with ⟨-, -, rfl⟩ | ⟨th', hstep⟩
    · exact .inl rfl
    · exact .inr ⟨th, th', ht, hstep.move hf⟩
  · rw [turn_idle hidle] at h
    split at h
    · cases h
      exact .inl rfl
    rcases issue_cases h with rfl | ⟨p, s₁, htake, hrun⟩
    · exact .inl rfl
    obtain ⟨th, th₁, ht, ht₁, hsame, hport, hlk, htaken⟩ := takeCommand_move htake
    have hnone : th₁.flight = none := hsame.trans (hidle th ht)
    obtain ⟨th', hmove⟩ : ∃ th', ThreadMove t th₁ th' s₁ s' := by
      rcases hrun with ⟨i, -, hrun⟩ | ⟨-, rfl⟩
      · exact hk.thread_move ⟨hport, ht₁, hnone⟩ hrun
      · exact hport ▸ raise_move ht₁ hnone _ _
    exact .inr ⟨th, th', ht, htaken.trans_of_idle hmove hlk hsame⟩

/-! ## The debug agent's turn -/

/-- WLEN is at most WCAP, and WCAP at most WMAX (R32). -/
def countersOk (p : Params) (wlen wcap : Nat) : Prop := wlen ≤ wcap ∧ wcap ≤ watchBound p

/-- A WCHK in flight has only live entries before it, and bytes of an entry's content to read (R34, R183). -/
def checkOk (s : State) : Prop := ∀ c, s.debugger.flight = some c → c.left ≤ s.wlen ∧ ∀ k ∈ c.todo, k < 8

/-- What the debug agent's turn does to the state: nothing but the watch state, the debug agent and the issue latch differs,
the capacity does not go down, and what the invariant says of the watch state is kept (R32, R171). -/
structure DebugMove (s s' : State) : Prop where
  state : s' = { s with wlen := s'.wlen, wcap := s'.wcap, we := s'.we, debugger := s'.debugger, port := s'.port, draws := s'.draws }
  counters : countersOk s.params s.wlen s.wcap → countersOk s.params s'.wlen s'.wcap ∧ s.wcap ≤ s'.wcap
  check : checkOk s → checkOk s'

/-- One move of the debug agent after another is a move of the debug agent. -/
theorem DebugMove.trans {s s₁ s' : State} (h : DebugMove s s₁) (h' : DebugMove s₁ s') : DebugMove s s' where
  state := by
    rw [h'.state, h.state]
  counters hc := by
    have hparams : s₁.params = s.params := by rw [h.state]
    obtain ⟨hc₁, hle⟩ := h.counters hc
    obtain ⟨hc', hle'⟩ := h'.counters (hparams ▸ hc₁)
    exact ⟨hparams ▸ hc', hle.trans hle'⟩
  check hc := h'.check (h.check hc)

/-- A watch command that ends, whatever it did to entries and draws, is a move of the debug agent if the counters allow it. -/
theorem DebugMove.of_ended {s : State} {wlen wcap : Index} {we : List WatchEntry} {d : Nat} (r : Response)
    (h : countersOk s.params s.wlen s.wcap → countersOk s.params wlen wcap ∧ s.wcap ≤ wcap) :
    DebugMove s (finish .debug r { s with wlen := wlen, wcap := wcap, we := we, draws := d }) where
  state := rfl
  counters := h
  check _ := by simp [checkOk]

/-- A command that ends with the counters as they were (R176 alone lowers WLEN, R173 alone raises WCAP). -/
theorem DebugMove.of_finish {s : State} {we : List WatchEntry} {d : Nat} (r : Response) :
    DebugMove s (finish .debug r { s with we := we, draws := d }) :=
  .of_ended r fun h => ⟨h, le_refl _⟩

/-- A WCHK that goes on is a move of the debug agent. -/
theorem DebugMove.of_putCheck {s : State} {we : List WatchEntry} {d : Nat} {c : CheckFlight}
    (h : checkOk s → c.left ≤ s.wlen ∧ ∀ k ∈ c.todo, k < 8) :
    DebugMove s (putCheck c { s with we := we, draws := d }) where
  state := rfl
  counters h := ⟨h, le_refl _⟩
  check hc := by
    rintro c' ⟨⟩
    exact h hc

/-- WADD keeps WLEN at most WCAP at most WMAX, and never lowers WCAP (R32, R173). -/
theorem addEntry_move (e : WatchEntry) (s : State) : DebugMove s (addEntry e s) := by
  unfold addEntry
  split
  next i => exact .of_finish _
  next =>
    split_ifs with hfull hmax
    · exact .of_finish _
    · refine .of_ended _ fun ⟨hle, hbound⟩ => ?_
      obtain ⟨hroom, hmost⟩ := grownCapacity_bounds (lt_of_le_of_ne (hle.trans hbound) hmax)
      exact ⟨⟨hroom, hmost⟩, hfull ▸ hroom.le⟩
    · exact .of_ended _ fun ⟨hle, hbound⟩ => ⟨⟨lt_of_le_of_ne hle hfull, hbound⟩, le_refl _⟩

/-- WREM lowers WLEN alone (R176). -/
theorem removeLast_move (s : State) : DebugMove s (removeLast s) := by
  rw [removeLast_eq]
  exact .of_ended _ fun ⟨hle, hbound⟩ => ⟨⟨(Nat.sub_le ..).trans hle, hbound⟩, le_refl _⟩

/-- WDIS changes one entry, or its answer alone (R188). -/
theorem disableEntry_move (idx : Index) (s : State) : DebugMove s (disableEntry idx s) := by
  unfold disableEntry
  split_ifs
  · exact .of_finish _
  · exact .of_finish _

/-- A WCHK that ends, its entries and draws changed by step 3 (R180). -/
theorem exec_wchk_move {s s' : State} (h : exec .wchk s = .next s') : DebugMove s s' := by
  obtain ⟨-, ⟨-, rfl⟩ | ⟨-, th, -, s₁, r, hcheck, rfl⟩⟩ := exec_wchk_next_iff.1 h
  · exact .of_finish _
  · obtain ⟨we, d, rfl⟩ := checkEntries_frame _ _ hcheck
    exact .of_finish _

/-- A watch command run whole is a move of the debug agent (R171). -/
theorem exec_watch_move {i : Instr} {s s' : State} (hi : aluParts i = none) (h : exec i s = .next s') : DebugMove s s' := by
  cases i with
  | wadd e =>
    cases (asDebug_next h).2
    exact addEntry_move e s
  | wrem =>
    cases (asDebug_next h).2
    exact removeLast_move s
  | wchk => exact exec_wchk_move h
  | wdis idx =>
    cases (asDebug_next h).2
    exact disableEntry_move idx s
  | wrd idx =>
    cases (asDebug_next h).2
    exact .of_finish _
  | _ => simp [aluParts] at hi

/-- A WCHK that begins ends at once, or has every live entry before it (R180, R181). -/
theorem beginInstr_wchk_move {s s' : State} (h : beginInstr .wchk s = .next s') : DebugMove s s' := by
  rw [beginInstr_wchk] at h
  rcases startCheck_next_iff.1 (asDebug_next h).2 with ⟨-, rfl⟩ | ⟨-, th, -, hbegin⟩
  · exact .of_finish _
  · cases hbegin
    exact .of_putCheck fun _ => ⟨le_refl _, by simp [contentBytes]⟩

/-- The debug agent's command, whole or begun, is a move of the debug agent (R61, R171, R231). -/
theorem runsCommands.debug_move {k : Instr → State → Host.Outcome State Fault Refusal} (hk : runsCommands k) {i : Instr}
    {s s' : State} (hport : s.port.agent = .debug) (h : k i s = .next s') : DebugMove s s' := by
  rcases aluInstr_or_watch i with ⟨op, w, lock, o, rfl⟩ | hi
  · exfalso
    rcases hk with rfl | rfl
    · rw [exec_aluInstr] at h
      obtain ⟨t, th, hissue, -⟩ := runAlu_next h
      cases hport.symm.trans hissue.1
    · rw [beginInstr_aluInstr] at h
      obtain ⟨t, th, hissue, -⟩ := beginAlu_next h
      cases hport.symm.trans hissue.1
  · rcases hk with rfl | rfl
    · exact exec_watch_move hi h
    · by_cases hchk : i = .wchk
      · subst hchk
        exact beginInstr_wchk_move h
      · exact exec_watch_move hi (beginInstr_watch hi hchk s ▸ h)

/-- Noting an entry's content ends the WCHK or goes on below the entry (R183, R184). -/
theorem checked_cases (i : Nat) (c : CheckFlight) (v : Word) (s : State) :
    ∃ we d, checked i c v s = endCheck (some i) { s with we := we, draws := d } ∨
      checked i c v s = putCheck (belowEntry i c) { s with we := we, draws := d } := by
  obtain ⟨d, hd⟩ := afterContentRead_eq (entryAt s i).addr s
  obtain ⟨we, hwe⟩ := noteContent_frame i v { s with draws := d }
  refine ⟨we, d, ?_⟩
  rw [checked, hd]
  split
  next s₁ hnote => exact .inl (congrArg _ ((congrArg Prod.fst hnote).symm.trans hwe))
  next s₁ hnote => exact .inr (congrArg _ ((congrArg Prod.fst hnote).symm.trans hwe))

/-- A WCHK in flight goes on, or ends, by a move of the debug agent (R58, R180). -/
theorem advanceCheck_move {c : CheckFlight} {pick : Nat} {s s' : State} (hc : s.debugger.flight = some c)
    (h : advanceCheck c pick s = .next s') : DebugMove s s' := by
  rcases advanceCheck_next h with ⟨-, rfl⟩ | ⟨i, hi, hstep⟩
  · exact .of_finish _
  have hbelow : ∀ we d, DebugMove s (putCheck (belowEntry i c) { s with we := we, draws := d }) := fun we d =>
    .of_putCheck fun hok => by
      have hleft := (hok c hc).1
      exact ⟨show i ≤ s.wlen by omega, by simp [belowEntry, contentBytes]⟩
  rcases hstep with rfl | rfl | hstep
  · exact hbelow _ _
  · exact .of_finish _
  rcases contentStep_next hstep with ⟨v, rfl⟩ | ⟨k, acc, hk, rfl⟩
  · obtain ⟨we, d, hend | hgo⟩ := checked_cases i c v s
    · exact hend ▸ .of_finish _
    · exact hgo ▸ hbelow _ _
  · exact .of_putCheck fun hok => ⟨(hok c hc).1, fun j hj => (hok c hc).2 j (List.mem_of_mem_erase hj)⟩

/-- Taking a command from the debug agent's stream is a move of the debug agent (R80). -/
theorem takeCommand_debug_move {s s₁ : State} {p : PortWord} (h : takeCommand .debug s = some (p, s₁)) :
    DebugMove s s₁ ∧ s₁.port.agent = .debug := by
  obtain ⟨rest, -, rfl⟩ := takeCommand_debug h
  exact ⟨⟨rfl, fun hc => ⟨hc, le_refl _⟩, id⟩, rfl⟩

/-- The debug agent's turn that answers next is a move of the debug agent (R61, R171). -/
theorem debug_turn_move {k : Instr → State → Host.Outcome State Fault Refusal} (hk : runsCommands k) {pick : Nat}
    {s s' : State} (h : turn .debug pick k s = .next s') : DebugMove s s' := by
  have hself : DebugMove s s := ⟨rfl, fun hc => ⟨hc, le_refl _⟩, id⟩
  rcases turn_cases h with rfl | ⟨t, th, f, ⟨⟩, -⟩ | ⟨c, -, hc, hadv⟩ | hissue
  · exact hself
  · exact advanceCheck_move hc hadv
  · rcases issue_cases hissue with rfl | ⟨p, s₁, htake, hrun⟩
    · exact hself
    obtain ⟨htaken, hport⟩ := takeCommand_debug_move htake
    rcases hrun with ⟨i, -, hrun⟩ | ⟨-, rfl⟩
    · exact htaken.trans (hk.debug_move hport hrun)
    · rw [hport]
      exact htaken.trans (.of_finish _)

/-! ## The invariant -/

/-- A thread of the machine is as the invariant says (R20, R88). -/
theorem Inv.thread {s : State} (h : Inv s) {t : Nat} {th : Thread} (ht : s.threads[t]? = some th) : threadOk s.params th :=
  ⟨h.registers th (List.mem_of_getElem? ht), fun f hf => h.flights t th f ht hf⟩

/-- The invariant, thread by thread. -/
theorem Inv.of_threads {s : State} (hmem : memoryWf s.mem) (hlock : ∀ t, s.lk = .held t ↔ critical s t)
    (hthreads : ∀ (t : Nat) (th : Thread), s.threads[t]? = some th → threadOk s.params th)
    (hcounters : countersOk s.params s.wlen s.wcap) (hcheck : checkOk s) : Inv s where
  memory := hmem
  lock := hlock
  registers th hth := by
    obtain ⟨t, ht⟩ := List.mem_iff_getElem?.1 hth
    exact (hthreads t th ht).1
  lengths := hcounters
  flights t th f ht hf := (hthreads t th ht).2 f hf
  check := hcheck

/-- A thread's place after a move of thread `t` holds the moved thread, or what it held. -/
theorem ThreadMove.getElem? {t : Nat} {th th' : Thread} {s s' : State} (h : ThreadMove t th th' s s')
    (ht : s.threads[t]? = some th) (u : Nat) :
    s'.threads[u]? = if u = t then some th' else s.threads[u]? := by
  rw [h.state]
  split
  next hu => exact hu ▸ getElem?_set_of_some ht th'
  next hu => exact List.getElem?_set_ne (Ne.symm hu)

/-- LK is HELD by exactly the thread inside a critical section after a move of thread `t`, as it was before (R63). -/
theorem ThreadMove.lock {t : Nat} {th th' : Thread} {s s' : State} (h : ThreadMove t th th' s s') (hinv : Inv s)
    (ht : s.threads[t]? = some th) (u : Nat) : s'.lk = .held u ↔ critical s' u := by
  have hbefore := hinv.lock
  obtain ⟨-, hmoves⟩ := h.thread (hinv.thread ht)
  have hself : critical s t ↔ insideLocked th := by simp [critical_iff, ht]
  have hafter : critical s' u ↔ if u = t then insideLocked th' else critical s u := by
    rw [critical_iff, h.getElem? ht]
    split
    next => simp
    next => rw [critical_iff]
  rw [hafter]
  rcases hmoves with ⟨hlk, hin⟩ | ⟨hfree, hheld, hin⟩ | ⟨hin, hfree, hout⟩
  · rw [hlk, hbefore u]
    split
    next hu => rw [hu, hself, hin]
    next => rfl
  · have hnone : ¬ critical s u := fun hc => by simpa [hfree] using (hbefore u).2 hc
    rw [hheld]
    split
    next hu => simp [hu, hin]
    next hu => simp [hnone, Ne.symm hu]
  · rw [hfree]
    have hheld := (hbefore t).2 (hself.2 hin)
    split
    next => simp [hout]
    next hu => simp [← hbefore u, hheld, Ne.symm hu]

/-- A move of a thread keeps the invariant. -/
theorem ThreadMove.inv {t : Nat} {th th' : Thread} {s s' : State} (h : ThreadMove t th th' s s') (hinv : Inv s)
    (ht : s.threads[t]? = some th) : Inv s' := by
  have hparams : s'.params = s.params := by rw [h.state]
  refine .of_threads (h.memory hinv.memory) (h.lock hinv ht) (fun u thu hu => ?_) ?_ ?_
  · rw [h.getElem? ht] at hu
    rw [hparams]
    split at hu
    next =>
      cases hu
      exact (h.thread (hinv.thread ht)).1
    next => exact hinv.thread hu
  · rw [h.state]
    exact hinv.lengths
  · rw [h.state]
    exact hinv.check

/-- A move of the debug agent keeps the invariant. -/
theorem DebugMove.inv {s s' : State} (h : DebugMove s s') (hinv : Inv s) : Inv s' := by
  have hthreads : s'.threads = s.threads := by rw [h.state]
  have hparams : s'.params = s.params := by rw [h.state]
  have hlk : s'.lk = s.lk := by rw [h.state]
  have hmem : s'.mem = s.mem := by rw [h.state]
  refine .of_threads (hmem ▸ hinv.memory) (fun t => ?_) (fun t th ht => ?_) ?_ (h.check hinv.check)
  · simp only [critical, hlk, hthreads]
    exact hinv.lock t
  · rw [hparams]
    exact hinv.thread (hthreads ▸ ht)
  · rw [hparams]
    exact (h.counters hinv.lengths).1

/-- What the outside changes of a thread (registers by number, FLAGS, pc, stream) is a move of that thread (log 25). -/
theorem updThread_inv {s : State} (hinv : Inv s) (t : Nat) {g : Thread → Thread}
    (hg : ∀ th, (g th).flight = th.flight ∧ (th.regs.length = s.params.nreg → (g th).regs.length = s.params.nreg)) :
    Inv (updThread t g s) := by
  refine .of_threads hinv.memory (fun u => ?_) (fun u th hu => ?_) hinv.lengths hinv.check
  · have hsame : critical (updThread t g s) u ↔ critical s u := by
      simp only [critical, updThread_getElem?]
      split
      next => simp [hg]
      next => rfl
    rw [hsame]
    exact hinv.lock u
  · rw [updThread_getElem?] at hu
    split at hu
    next =>
      obtain ⟨th₀, hth₀, rfl⟩ := Option.map_eq_some_iff.1 hu
      obtain ⟨hregs, hflight⟩ := hinv.thread hth₀
      exact ⟨(hg th₀).2 hregs, by rwa [(hg th₀).1]⟩
    next => exact hinv.thread hu

/-- An event of the outside keeps the invariant (log 25). -/
theorem applyEnv_inv {s : State} (hinv : Inv s) (e : EnvEvent) : Inv (applyEnv e s) := by
  have hkept : ∀ g : Thread → Thread, (∀ th, (g th).flight = th.flight ∧ (g th).regs = th.regs) →
      ∀ t, Inv (updThread t g s) := fun g hg t =>
    updThread_inv hinv t fun th => ⟨(hg th).1, fun hlen => by rw [(hg th).2, hlen]⟩
  have hother : ∀ s', s'.params = s.params → s'.threads = s.threads → memoryWf s'.mem → s'.lk = s.lk → s'.wlen = s.wlen →
      s'.wcap = s.wcap → s'.debugger.flight = s.debugger.flight → Inv s' := by
    intro s' hparams hthreads hmem hlk hwlen hwcap hflight
    obtain ⟨-, hlock, hregs, hlen, hfl, hcheck⟩ := hinv
    refine ⟨hmem, ?_, ?_, ?_, ?_, ?_⟩
    all_goals simpa only [critical, hparams, hthreads, hlk, hwlen, hwcap, hflight]
  cases e with
  | setReg t i v =>
    simp only [applyEnv]
    split_ifs with hi
    · exact updThread_inv hinv t fun th => ⟨rfl, fun hlen => (length_putAt (hlen ▸ hi) v 0).trans hlen⟩
    · exact hinv
  | setFlags t v => exact hkept (fun th => { th with flags := v }) (fun _ => ⟨rfl, rfl⟩) t
  | setPc t v => exact hkept (fun th => { th with pc := v }) (fun _ => ⟨rfl, rfl⟩) t
  | storeByte a b => exact hother _ rfl rfl (memoryWf_memWrite hinv.memory a.isLt b) rfl rfl rfl rfl
  | setUnmapped | setUnresolved | pinDecode | pinAddr | attach => exact hother _ rfl rfl hinv.memory rfl rfl rfl rfl
  | submit a p =>
    cases a with
    | thread t => exact hkept (fun th => { th with queue := th.queue ++ [p] }) (fun _ => ⟨rfl, rfl⟩) t
    | debug => exact hother _ rfl rfl hinv.memory rfl rfl rfl rfl

/-- What one step is: nothing, a thread's turn, the debug agent's turn, or an event of the outside, with the schedule moved
on (log 1). -/
theorem step_cases {s s' : State} (h : step s = .next s') :
    s' = s ∨ ∃ e rest, s.schedule = e :: rest ∧
      ((∃ a pick k, (e = .whole a ∨ e = .micro a pick) ∧ runsCommands k ∧ turn a pick k { s with schedule := rest } = .next s') ∨
        ∃ v, e = .env v ∧ s' = applyEnv v { s with schedule := rest }) := by
  unfold step at h
  split at h
  next =>
    cases h
    exact .inl rfl
  next e rest hsched =>
    refine .inr ⟨e, rest, hsched, ?_⟩
    cases e with
    | whole a => exact .inl ⟨a, 0, exec, .inl rfl, .inl rfl, h⟩
    | micro a pick => exact .inl ⟨a, pick, beginInstr, .inr rfl, .inr rfl, h⟩
    | env v =>
      cases h
      exact .inr ⟨v, rfl, rfl⟩

/-- The schedule is nothing to the invariant. -/
theorem Inv.schedule {s : State} (h : Inv s) (rest : List Event) : Inv { s with schedule := rest } :=
  ⟨h.memory, h.lock, h.registers, h.lengths, h.flights, h.check⟩

/-- Settles O49: a turn is a move of its agent, and every move and every event of the outside keeps the invariant. -/
theorem stepKeepsInvariant : Obligations.StepKeepsInvariant := by
  intro s s' hinv hstep
  rcases step_cases hstep with rfl | ⟨e, rest, -, ⟨a, pick, k, -, hk, hturn⟩ | ⟨v, -, rfl⟩⟩
  · exact hinv
  · have hinv' := hinv.schedule rest
    cases a with
    | thread t =>
      rcases thread_turn_move hk hturn with rfl | ⟨th, th', ht, hmove⟩
      · exact hinv'
      · exact hmove.inv hinv' ht
    | debug => exact (debug_turn_move hk hturn).inv hinv'
  · exact applyEnv_inv (hinv.schedule rest) v

/-- A run of one step more: the step, and the run from where it leads. -/
theorem run_succ (n : Nat) {s s₁ : State} (h : step s = .next s₁) : Sys2Proof.core.run (n + 1) s = Sys2Proof.core.run n s₁ := by
  simp only [Host.Core.run, show Sys2Proof.core.step s = .next s₁ from h]

/-- A run that answers next begins with a step that does. -/
theorem step_of_run {n : Nat} {s s' : State} (h : Sys2Proof.core.run (n + 1) s = .next s') :
    ∃ s₁, step s = .next s₁ ∧ Sys2Proof.core.run n s₁ = .next s' := by
  simp only [Host.Core.run] at h
  split at h
  next s₁ hstep => exact ⟨s₁, hstep, h⟩
  next => cases h
  next => cases h

/-- A run keeps the invariant. -/
theorem run_inv {n : Nat} {s s' : State} (hinv : Inv s) (h : Sys2Proof.core.run n s = .next s') : Inv s' := by
  induction n generalizing s with
  | zero =>
    cases h
    exact hinv
  | succ n ih =>
    obtain ⟨s₁, hstep, hrun⟩ := step_of_run h
    exact ih (stepKeepsInvariant s s₁ hinv hstep) hrun

/-- Settles O50: after any run LK is HELD by each thread inside a critical section, and LK has one holder. -/
theorem criticalSectionsNeverOverlap : Obligations.CriticalSectionsNeverOverlap := by
  intro n s s' t u hinv hrun ht hu
  have hlock := (run_inv hinv hrun).lock
  have hheld := ((hlock t).2 ht).symm.trans ((hlock u).2 hu)
  cases hheld
  rfl

/-- Settles O51: the debug agent's moves alone change WCAP, and none lowers it. -/
theorem capacityNeverDecreases : Obligations.CapacityNeverDecreases := by
  intro s s' hinv hstep
  refine ⟨?_, (stepKeepsInvariant s s' hinv hstep).lengths.1⟩
  rcases step_cases hstep with rfl | ⟨e, rest, -, ⟨a, pick, k, -, hk, hturn⟩ | ⟨v, -, rfl⟩⟩
  · exact le_refl _
  · cases a with
    | thread t =>
      rcases thread_turn_move hk hturn with rfl | ⟨th, th', -, hmove⟩
      · exact le_refl _
      · rw [hmove.state]
    | debug => exact ((debug_turn_move hk hturn).counters hinv.lengths).2
  · cases v with
    | setReg t i v => simp only [applyEnv]; split_ifs <;> exact le_refl _
    | submit a p => cases a <;> exact le_refl _
    | _ => exact le_refl _

/-- An agent's scheduled turn that answers next is a turn of that agent. -/
theorem step_turn {s s' : State} {a : Agent} {e : Event} {rest : List Event} (hsched : s.schedule = e :: rest)
    (he : e = .whole a ∨ ∃ k, e = .micro a k) (h : step s = .next s') :
    ∃ pick k, runsCommands k ∧ turn a pick k { s with schedule := rest } = .next s' := by
  simp only [step, hsched] at h
  rcases he with rfl | ⟨pick, rfl⟩
  · exact ⟨0, exec, .inl rfl, h⟩
  · exact ⟨pick, beginInstr, .inr rfl, h⟩

/-- Settles O52: a thread's turn is a move of that thread, and the debug agent's changes no thread. -/
theorem turnsMoveNoPcAndKeepOtherThreads : Obligations.TurnsMoveNoPcAndKeepOtherThreads := by
  intro s s' a e rest hsched he hstep u th hu
  obtain ⟨pick, k, hk, hturn⟩ := step_turn hsched he hstep
  cases a with
  | thread t =>
    rcases thread_turn_move hk hturn with rfl | ⟨tht, tht', ht, hmove⟩
    · exact ⟨th, hu, rfl, fun _ => rfl⟩
    · rw [hmove.getElem? ht]
      split
      next htu =>
        subst htu
        obtain rfl : th = tht := by simpa [hu] using ht
        exact ⟨tht', rfl, hmove.pc, fun hne => absurd rfl hne⟩
      next => exact ⟨th, hu, rfl, fun _ => rfl⟩
  | debug =>
    rw [(debug_turn_move hk hturn).state]
    exact ⟨th, hu, rfl, fun _ => rfl⟩

/-- Settles O53: the fields a move of a thread, or of the debug agent, leaves as they were. -/
theorem agentsKeepToTheirOwnState : Obligations.AgentsKeepToTheirOwnState := by
  intro s s' a e rest hsched he hstep
  obtain ⟨pick, k, hk, hturn⟩ := step_turn hsched he hstep
  cases a with
  | thread t =>
    rcases thread_turn_move hk hturn with rfl | ⟨th, th', -, hmove⟩
    · simp
    · rw [hmove.state]
      simp
  | debug =>
    rw [(debug_turn_move hk hturn).state]
    simp

end Sys2Proof.Machine

/-! O57: every turn of a thread that issues nothing but LOCK INC.Q on one word answers next, and takes one command off what
is still to end exactly where it adds one to the word (R64, R67). -/

namespace Sys2Proof.Machine

/-- A turn answers next, in a state that is still counting, and the word and the commands still to end add up as before. -/
def counts (a v : Word) (s : State) (r : Host.Outcome State Fault Refusal) : Prop :=
  ∃ (s' : State) (v' : Word), r = .next s' ∧ Counting a s' ∧ memHolds s'.mem a .w64 v' ∧
    v' + BitVec.ofNat 64 (pending s') = v + BitVec.ofNat 64 (pending s)

/-- Setting one thread changes the commands still to end by that thread's (R67). -/
theorem sum_pendingOf_set {l : List Thread} {t : Nat} {th : Thread} (ht : l[t]? = some th) (th' : Thread) :
    ((l.set t th').map pendingOf).sum + pendingOf th = (l.map pendingOf).sum + pendingOf th' := by
  induction l generalizing t with
  | nil => cases ht
  | cons x xs ih =>
    cases t with
    | zero =>
      cases ht
      simp only [List.set_cons_zero, List.map_cons, List.sum_cons]
      omega
    | succ t =>
      have hrest := ih (t := t) (by simpa using ht)
      simp only [List.set_cons_succ, List.map_cons, List.sum_cons]
      omega

/-- A turn that changes one counting thread, memory and the latch counts if the word and that thread's commands still to end
add up as before. -/
theorem counts.of_thread {a v v' : Word} {s : State} {t : Nat} {th th' : Thread} {m : Memory} {p : Latch}
    (hs : Counting a s) (ht : s.threads[t]? = some th) (hqueue : ∀ p ∈ th'.queue, p ∈ th.queue)
    (hflight : ∀ f, th'.flight = some f → countingFlight a f) (hm : memHolds m a .w64 v')
    (hsum : v' + BitVec.ofNat 64 (pendingOf th') = v + BitVec.ofNat 64 (pendingOf th)) :
    counts a v s (.next { s with threads := s.threads.set t th', mem := m, port := p }) := by
  have hmem : th ∈ s.threads := List.mem_of_getElem? ht
  refine ⟨_, v', rfl, ⟨hs.atomic64, hs.aligned, hs.resolved, ⟨v', hm⟩, ?_, ?_, hs.turns⟩, hm, ?_⟩
  · intro u hu q hq
    rcases List.mem_or_eq_of_mem_set hu with hu | rfl
    · exact hs.queues u hu q hq
    · exact hs.queues th hmem q (hqueue q hq)
  · intro u hu
    rcases List.mem_or_eq_of_mem_set hu with hu | rfl
    · exact hs.flights u hu
    · exact hflight
  · have hset := congrArg (BitVec.ofNat 64) (sum_pendingOf_set ht th')
    simp only [BitVec.ofNat_add] at hset
    simp only [pending]
    linear_combination hsum + hset

/-- The word of a counting state loads as it is (R111). -/
theorem loadOperand_word {s : State} {a v : Word} (hv : memHolds s.mem a .w64 v) (th : Thread) :
    loadOperand s th .w64 (.mem a) = .ok v :=
  (loadWord_of_memHolds hv).trans (congrArg _ (BitVec.setWidth_eq v))

/-- INC.Q's result is the value plus one (R118). -/
theorem aluResult_inc_w64 (v : Word) : aluResult .inc .w64 v = v + 1 := by
  calc aluResult .inc .w64 v
      = aluResult .inc .w64 (v.setWidth 64) := by rw [BitVec.setWidth_eq]
    _ = (aluFn .inc v).setWidth 64 := aluResult_setWidth .inc .w64 v
    _ = v + 1 := BitVec.setWidth_eq _

/-- One added to the word makes up for one command less (R67). -/
theorem inc_add_ofNat (v : Word) (n : Nat) : v + 1 + BitVec.ofNat 64 n = v + BitVec.ofNat 64 (n + 1) := by
  rw [BitVec.ofNat_add, BitVec.add_assoc, BitVec.add_comm 1 (BitVec.ofNat 64 n)]
  rfl

/-- A stored value reads back (R50). -/
theorem memHolds_storeWord (m : Memory) (a : Word) {w : Width} (r : BitVec (widthBits w)) :
    memHolds (storeWord m a (r.setWidth 64) (widthBytes w)) a w r := by
  intro k hk
  rw [memRead_storeWord (widthBytes_le w) hk, ← extractLsb'_setWidth_eq_byteOf _ hk,
    BitVec.setWidth_setWidth_of_le _ (widthBits_le w), BitVec.setWidth_eq]

/-- A stored word reads back (R50). -/
theorem memHolds_storeWord_w64 (m : Memory) (a v : Word) : memHolds (storeWord m a v (widthBytes .w64)) a .w64 v :=
  (BitVec.setWidth_eq v) ▸ memHolds_storeWord m a (w := .w64) v

/-- A command in flight counts: it takes one off what is still to end where its conditional write adds one to the word, and
nothing else does either (R64, R67). -/
theorem counts_advanceThread {a v : Word} {s : State} {t pick : Nat} {th : Thread} {f : Flight} (hs : Counting a s)
    (hv : memHolds s.mem a .w64 v) (ht : s.threads[t]? = some th) (hf : th.flight = some f) :
    counts a v s (advanceThread t th f pick s) := by
  obtain ⟨hop, hw, ho, hpath, hphase⟩ := hs.flights th (List.mem_of_getElem? ht) f hf
  have hload : loadOperand s th f.width f.oref = .ok v := by rw [hw, ho, loadOperand_word hv]
  rcases hphase with hp | ⟨e, hp⟩
  · simp only [advanceThread, hp, casLoadStep, hload, goPhase_putFlags_eq_set ht]
    refine .of_thread hs ht (fun _ => id) ?_ hv (by simp [pendingOf, hf])
    rintro f' ⟨⟩
    exact ⟨hop, hw, ho, hpath, .inr ⟨v, rfl⟩⟩
  · simp only [advanceThread, hp, casTryStep, hload]
    split_ifs with he
    · subst he
      rw [hop, hw, ho, aluResult_inc_w64, finish_eq_set (s := storeOperand t .w64 (.mem a) (v + 1) s) ht]
      refine .of_thread hs ht (fun _ => id) (by simp) (memHolds_storeWord_w64 s.mem a (v + 1)) ?_
      simpa [pendingOf, hf] using inc_add_ofNat v th.queue.length
    · rw [goPhase_eq_set ht]
      refine .of_thread hs ht (fun _ => id) ?_ hv (by simp [pendingOf, hf])
      rintro f' ⟨⟩
      exact ⟨hop, hw, ho, hpath, .inl rfl⟩

/-- Memory operand `a` takes a LOCK INC.Q on the CAS path (R88, R112). -/
def takesIncQ (a : Word) (s : State) : Prop := orefOk s .w64 (.mem a) = true ∧ pathOf s.params .w64 true (.mem a) = .cas

theorem Counting.takesIncQ {a : Word} {s : State} (hs : Counting a s) : takesIncQ a s := by
  obtain ⟨h64, haligned, hresolved, -⟩ := hs
  have hal : Machine.aligned s.params (.mem a) 8 = true := haligned
  exact ⟨by simpa [orefOk, allResolved] using hresolved, by simp [pathOf, hal, h64]⟩

/-- LOCK INC.Q run whole by an idle thread adds one to the word and has ended (R111, R118). -/
theorem exec_incQ {a v : Word} {s : State} {t : Nat} {th : Thread} (htakes : takesIncQ a s) (hissue : threadIssues s t th)
    (hv : memHolds s.mem a .w64 v) : exec (.incQ true (.mem a)) s = .next { s with
      threads := s.threads.set t { th with
        flags := flagsAfter s.params.flagSem .inc .w64 v th.flags, flight := none, resp := some (okWith .noResult) }
      mem := storeWord s.mem a (v + 1) (widthBytes .w64) } := by
  obtain ⟨hok, hpath⟩ := htakes
  have hlock : lockAvailable s .w64 true (.mem a) := fun h => by cases hpath.symm.trans h
  have hrun : exec (.incQ true (.mem a)) s = _ := (exec_aluInstr .inc .w64 true (.mem a) s).trans (runAlu_issues hissue)
  have hflags := getElem?_set_of_some hissue.2.1 { th with flags := flagsAfter s.params.flagSem .inc .w64 v th.flags }
  rw [hrun, executeUnaryAlu_ok hok hlock, transformOperand_of_load (loadOperand_word hv th), aluResult_inc_w64,
    putFlags_eq_set hissue.2.1, finish_eq_set (s := storeOperand ..) hflags]
  simp only [storeOperand, List.set_set]

/-- LOCK INC.Q begun by an idle thread is in flight before its LoadAcq (R64). -/
theorem beginInstr_incQ {a : Word} {s : State} {t : Nat} {th : Thread} (htakes : takesIncQ a s)
    (hissue : threadIssues s t th) : beginInstr (.incQ true (.mem a)) s = .next { s with
      threads := s.threads.set t { th with
        flight := some { op := .inc, width := .w64, oref := .mem a, path := .cas, phase := .casLoad } } } := by
  obtain ⟨hok, hpath⟩ := htakes
  obtain ⟨hport, ht, hidle⟩ := hissue
  have hbegin : beginInstr (.incQ true (.mem a)) s = _ := beginInstr_aluInstr .inc .w64 true (.mem a) s
  rw [hbegin]
  simp only [beginAlu, asThread, hport, ht, hidle, hok, hpath, if_true, firstPhase, putFlight, updThread_eq_set ht]

/-- The state in which a thread's next command runs: its word taken from the stream and latched (R61, R80). -/
abbrev taken (t : Nat) (th : Thread) (p : PortWord) (q : List PortWord) (s : State) : State :=
  { s with threads := s.threads.set t { th with queue := q }, port := { agent := .thread t, cmd := p.cmd } }

/-- The next command of an idle thread counts: run whole it has added one to the word, begun it is in flight (R67). -/
theorem counts_runsCommands {k : Instr → State → Host.Outcome State Fault Refusal} (hk : runsCommands k) {a v : Word}
    {s : State} {t : Nat} {th : Thread} {p : PortWord} {q : List PortWord} (hs : Counting a s)
    (hv : memHolds s.mem a .w64 v) (ht : s.threads[t]? = some th) (hidle : th.flight = none) (hq : th.queue = p :: q) :
    counts a v s (k (.incQ true (.mem a)) (taken t th p q s)) := by
  have ht₁ := getElem?_set_of_some ht { th with queue := q }
  have hqueue : ∀ r ∈ q, r ∈ th.queue := fun r hr => hq ▸ List.mem_cons_of_mem p hr
  rcases hk with rfl | rfl
  · rw [exec_incQ (s := taken t th p q s) hs.takesIncQ ⟨rfl, ht₁, hidle⟩ hv, List.set_set]
    refine .of_thread hs ht hqueue (by simp) (memHolds_storeWord_w64 s.mem a (v + 1)) ?_
    simpa [pendingOf, hidle, hq] using inc_add_ofNat v q.length
  · rw [beginInstr_incQ (s := taken t th p q s) hs.takesIncQ ⟨rfl, ht₁, hidle⟩, List.set_set]
    refine .of_thread hs ht hqueue ?_ hv (by simp [pendingOf, hidle, hq])
    rintro f ⟨⟩
    exact ⟨rfl, rfl, rfl, rfl, .inl rfl⟩

/-- Issuing the next command of a thread runs it with its word taken from the stream (R61, R80). -/
theorem issue_thread {s : State} {t : Nat} {th : Thread} {p : PortWord} {q : List PortWord}
    (ht : s.threads[t]? = some th) (hq : th.queue = p :: q) (k : Instr → State → Host.Outcome State Fault Refusal) :
    issue (.thread t) k s = runCommand p k (taken t th p q s) := by
  simp only [issue, takeCommand, ht, hq, updThread_eq_set ht]

/-- A thread with nothing in its stream, and a number that is no thread's, issue nothing (R61). -/
theorem issue_thread_empty {s : State} {t : Nat} (h : ∀ th, s.threads[t]? = some th → th.queue = [])
    (k : Instr → State → Host.Outcome State Fault Refusal) : issue (.thread t) k s = .next s := by
  cases ht : s.threads[t]? with
  | none => simp only [issue, takeCommand, ht]
  | some th => simp only [issue, takeCommand, ht, h th ht]

/-- A turn of a counting thread counts (R67). -/
theorem counts_turn {k : Instr → State → Host.Outcome State Fault Refusal} (hk : runsCommands k) {a v : Word}
    {s : State} (t pick : Nat) (hs : Counting a s) (hv : memHolds s.mem a .w64 v) :
    counts a v s (turn (.thread t) pick k s) := by
  have hself : counts a v s (.next s) := ⟨s, v, rfl, hs, hv, rfl⟩
  rcases inFlight_or_idle s t with ⟨th, f, ht, hf⟩ | hidle
  · rw [turn_inFlight ht hf]
    exact counts_advanceThread hs hv ht hf
  rw [turn_idle hidle]
  split_ifs
  · exact hself
  by_cases hqueued : ∃ th p q, s.threads[t]? = some th ∧ th.queue = p :: q
  · obtain ⟨th, p, q, ht, hq⟩ := hqueued
    have hdecode : decode p = .ok (.incQ true (.mem a)) :=
      hs.queues th (List.mem_of_getElem? ht) p (hq ▸ List.mem_cons_self)
    rw [issue_thread ht hq, runCommand, hdecode]
    exact counts_runsCommands hk hs hv ht (hidle th ht) hq
  · rw [issue_thread_empty]
    · exact hself
    · intro th ht
      cases hq : th.queue with
      | nil => rfl
      | cons p q => exact absurd ⟨th, p, q, ht, hq⟩ hqueued

/-- A step of a counting state counts: its schedule holds only turns of threads (R67). -/
theorem counts_step {a v : Word} {s : State} (hs : Counting a s) (hv : memHolds s.mem a .w64 v) :
    counts a v s (step s) := by
  cases hsched : s.schedule with
  | nil =>
    rw [show step s = .next s by simp only [step, hsched]]
    exact ⟨s, v, rfl, hs, hv, rfl⟩
  | cons e rest =>
    have hrest : Counting a { s with schedule := rest } :=
      ⟨hs.atomic64, hs.aligned, hs.resolved, hs.value, hs.queues, hs.flights,
        fun e he => hs.turns e (hsched ▸ List.mem_cons_of_mem _ he)⟩
    rcases hs.turns e (hsched ▸ List.mem_cons_self) with ⟨t, rfl⟩ | ⟨t, pick, rfl⟩
    · rw [show step s = turn (.thread t) 0 exec { s with schedule := rest } by simp only [step, hsched, runEvent]]
      exact counts_turn (.inl rfl) t 0 hrest hv
    · rw [show step s = turn (.thread t) pick beginInstr { s with schedule := rest } by simp only [step, hsched, runEvent]]
      exact counts_turn (.inr rfl) t pick hrest hv

/-- Settles O57: every step of a counting state counts, and the sums of a run are equal one by one. -/
theorem lockedIncrementsAllCount : Obligations.LockedIncrementsAllCount := by
  intro n a v s hs hv
  induction n generalizing s v with
  | zero => exact ⟨s, v, rfl, hs, hv, rfl⟩
  | succ n ih =>
    obtain ⟨s₁, v₁, hstep, hs₁, hv₁, hsum₁⟩ := counts_step hs hv
    obtain ⟨s', v', hrun, hs', hv', hsum'⟩ := ih v₁ s₁ hs₁ hv₁
    exact ⟨s', v', (run_succ n hstep).trans hrun, hs', hv', hsum'.trans hsum₁⟩

end Sys2Proof.Machine

/-! O1 to O5, O7: the command port, by the command word's number and by the encoder (R81 to R94). -/

namespace Sys2Proof.Machine

/-! ## The encoder's words decode -/

section
variable (op : AluOp) (w : Width) (lock : Bool) (o : Oref)

/-- The canonical ALU word carries its operation, width and lock bit, and has CLASS 00 (R82 to R85, R93). -/
theorem aluWord_bits :
    let c := lockCode lock ||| widthCode w ||| opCode op
    opOfCommand c = op ∧ widthOfCommand c = w ∧ c.getLsbD 5 = lock ∧ c.getLsbD 6 = false ∧ c.getLsbD 7 = false := by
  cases op <;> cases w <;> cases lock <;> decide

theorem encode_aluInstr : encode (aluInstr op w lock o) = encodeAlu op w lock o := by
  cases op <;> cases w <;> rfl

end

/-- An OREF whose register number fits the port's field comes back from the bundle (R88). -/
theorem orefOfBundle_bundleOfOref {o : Oref} (h : ∀ i boff, o = .reg i boff → i < 16) :
    orefOfBundle (bundleOfOref o) = o := by
  cases o with
  | mem a => rfl
  | reg i boff =>
    have hi : i % 16 = i := Nat.mod_eq_of_lt (h i boff rfl)
    cases boff <;> simp [orefOfBundle, bundleOfOref, zeroBundle, bit1, hi]

/-- A command decodes from its encoding if its register number, where it has one, fits the port's field (R88, R93). -/
theorem decode_encode_aluInstr (op : AluOp) (w : Width) (lock : Bool) {o : Oref}
    (h : ∀ i boff, o = .reg i boff → i < 16) :
    decode (encode (aluInstr op w lock o)) = .ok (aluInstr op w lock o) := by
  obtain ⟨hop, hw, hlock, hsix, hseven⟩ := aluWord_bits op w lock
  rw [encode_aluInstr]
  simp only [decode, encodeAlu, hop, hw, hlock, hsix, hseven, orefOfBundle_bundleOfOref h]

/-- A watch command decodes from its encoding, whatever its bundle (R87, R89, R90). -/
theorem decode_encode_watch {i : Instr} (h : aluParts i = none) : decode (encode i) = .ok i := by
  cases i with
  | wadd e =>
    obtain ⟨addr, prior, init, dis⟩ := e
    cases init <;> cases dis <;> simp [encode, decode, decodeWatch, entryOfBundle, bit1]
  | wrem | wchk | wdis | wrd => simp [encode, decode, decodeWatch]
  | _ => simp [aluParts] at h

/-- Settles O1: a well-formed register number fits the port's field. -/
theorem decodeOfEncodeIsIdentity : Obligations.DecodeOfEncodeIsIdentity := by
  intro i hwf
  rcases aluInstr_or_watch i with ⟨op, w, lock, o, rfl⟩ | hwatch
  · refine decode_encode_aluInstr op w lock fun i boff ho => ?_
    subst ho
    have hreg : Oref.wf w (.reg i boff) = true := by cases op <;> cases w <;> exact hwf
    simp only [Oref.wf, Bool.and_eq_true, decide_eq_true_eq] at hreg
    exact hreg.1
  · exact decode_encode_watch hwatch

/-! ## The decoder by the number of the command word -/

/-- A bit of a command word, by its number. -/
theorem getLsbD_eq_decide (c : CommandWord) (k : Nat) : c.getLsbD k = decide (c.toNat / 2 ^ k % 2 = 1) := by
  rw [BitVec.getLsbD, Nat.testBit_eq_decide_div_mod_eq]

/-- A command word below 0x40 has CLASS 00: an ALU command (R82). -/
theorem decode_alu {p : PortWord} (h : p.cmd.toNat < 0x40) :
    decode p = .ok (aluInstr (opOfCommand p.cmd) (widthOfCommand p.cmd) (p.cmd.getLsbD 5) (orefOfBundle p.ops)) := by
  have hseven : p.cmd.getLsbD 7 = false := by rw [getLsbD_eq_decide]; simp; omega
  have hsix : p.cmd.getLsbD 6 = false := by rw [getLsbD_eq_decide]; simp; omega
  simp only [decode, hseven, hsix]

/-- The watch command of a command word from 0x40 to 0x44 (R86, R87). -/
def watchInstr (c : CommandWord) (b : Bundle) : Instr :=
  match c.toNat with
  | 0x40 => .wadd (entryOfBundle b)
  | 0x41 => .wrem
  | 0x42 => .wchk
  | 0x43 => .wdis b.idx
  | _ => .wrd b.idx

theorem decode_watch {p : PortWord} (h : 0x40 ≤ p.cmd.toNat) (h' : p.cmd.toNat < 0x45) :
    decode p = .ok (watchInstr p.cmd p.ops) ∧ (encode (watchInstr p.cmd p.ops)).cmd = p.cmd ∧
      aluParts (watchInstr p.cmd p.ops) = none := by
  obtain ⟨cmd, b⟩ := p
  obtain ⟨n, hn, rfl⟩ : ∃ n, n < 0x45 ∧ cmd = BitVec.ofNat 8 n := ⟨cmd.toNat, h', by simp⟩
  have hlow : 0x40 ≤ n := by simpa [Nat.mod_eq_of_lt (show n < 256 by omega)] using h
  interval_cases n <;> exact ⟨by simp [decode, decodeWatch, watchInstr], rfl, rfl⟩

/-- A command word from 0x45 on is reserved: CLASS 10 or 11 from 0x80 on, RSV not 000 from 0x48 on, and three WOPs below
(R94). -/
theorem decode_reserved {p : PortWord} (h : 0x45 ≤ p.cmd.toNat) : ∃ e, decode p = .error e := by
  have hlt : p.cmd.toNat < 256 := p.cmd.isLt
  by_cases hclass : 0x80 ≤ p.cmd.toNat
  · have hseven : p.cmd.getLsbD 7 = true := by
      rw [getLsbD_eq_decide, decide_eq_true_eq]
      omega
    refine ⟨.reservedClass, ?_⟩
    cases hsix : p.cmd.getLsbD 6 <;> simp only [decode, hseven, hsix]
  by_cases hrsv : 0x48 ≤ p.cmd.toNat
  · have hseven : p.cmd.getLsbD 7 = false := by
      rw [getLsbD_eq_decide, decide_eq_false_iff_not]
      omega
    have hsix : p.cmd.getLsbD 6 = true := by
      rw [getLsbD_eq_decide, decide_eq_true_eq]
      omega
    have hfield : p.cmd.extractLsb' 3 3 ≠ 0#3 := fun hzero => by
      have hdigits : p.cmd.toNat / 8 % 8 = 0 := by
        simpa [Nat.shiftRight_eq_div_pow] using congrArg BitVec.toNat hzero
      omega
    exact ⟨.reservedField, by simp only [decode, hseven, hsix, decodeWatch, if_neg hfield]⟩
  · obtain ⟨cmd, b⟩ := p
    obtain ⟨n, hn, rfl⟩ : ∃ n, n < 0x48 ∧ cmd = BitVec.ofNat 8 n := ⟨cmd.toNat, by simpa using hrsv, by simp⟩
    have hlow : 0x45 ≤ n := by simpa [Nat.mod_eq_of_lt (show n < 256 by omega)] using h
    refine ⟨.reservedOperation, ?_⟩
    interval_cases n <;> simp [decode, decodeWatch]

/-- Settles O3: the words below 0x45 are the ALU class and the five watch commands. -/
theorem exactlyReservedWordsRejected : Obligations.ExactlyReservedWordsRejected := by
  refine fun p => ⟨?_, decode_reserved⟩
  rintro ⟨e, he⟩
  by_contra hlow
  by_cases halu : p.cmd.toNat < 0x40
  · simp [decode_alu halu] at he
  · simp [(decode_watch (p := p) (by omega) (by omega)).1] at he

/-- Settles O2: an ALU word's register number is four bits wide, and a watch command has one word. -/
theorem decodedCommandsReencode : Obligations.DecodedCommandsReencode := by
  intro p i hdecode
  by_cases halu : p.cmd.toNat < 0x40
  · obtain rfl := Except.ok.inj ((decode_alu halu).symm.trans hdecode)
    refine ⟨decode_encode_aluInstr _ _ _ fun i boff ho => ?_, by simp [aluParts_aluInstr]⟩
    unfold orefOfBundle at ho
    split at ho
    next => cases ho
    next =>
      cases ho
      exact p.ops.reg.isLt
  · by_cases hwatch : p.cmd.toNat < 0x45
    · obtain ⟨hok, hcmd, hparts⟩ := decode_watch (p := p) (by omega) hwatch
      obtain rfl := Except.ok.inj (hok.symm.trans hdecode)
      exact ⟨decode_encode_watch hparts, fun _ => hcmd⟩
    · obtain ⟨e, he⟩ := decode_reserved (p := p) (by omega)
      cases he.symm.trans hdecode

/-- CMD[1:0] as a number (R83). -/
theorem opOfCommand_eq (c : CommandWord) :
    opOfCommand c = (match c.toNat % 4 with | 0 => AluOp.not | 1 => .neg | 2 => .inc | _ => .dec) := by
  have hcases : c.toNat % 4 = 0 ∨ c.toNat % 4 = 1 ∨ c.toNat % 4 = 2 ∨ c.toNat % 4 = 3 := by omega
  have hone : c.getLsbD 1 = decide (2 ≤ c.toNat % 4) := by
    rw [getLsbD_eq_decide, decide_eq_decide]
    omega
  have hzero : c.getLsbD 0 = decide (c.toNat % 4 % 2 = 1) := by
    rw [getLsbD_eq_decide, decide_eq_decide]
    omega
  rw [opOfCommand, hone, hzero]
  rcases hcases with h | h | h | h <;> rw [h] <;> rfl

/-- The B, W and S markers as numbers (R84). -/
theorem widthOfCommand_eq (c : CommandWord) :
    widthOfCommand c = (if c.toNat / 4 % 2 = 1 then Width.w8 else if c.toNat / 8 % 2 = 1 then .w64
      else if c.toNat / 16 % 2 = 1 then .w16 else .w32) := by
  simp only [widthOfCommand, getLsbD_eq_decide, decide_eq_true_eq]
  norm_num

/-- Settles O4: the decoder's bits are the command word's digits. -/
theorem aluWordsDecodeByTheirBits : Obligations.AluWordsDecodeByTheirBits := by
  intro p h
  have hlock : p.cmd.getLsbD 5 = decide (0x20 ≤ p.cmd.toNat) := by
    rw [getLsbD_eq_decide, decide_eq_decide]
    omega
  exact ⟨_, _, _, hlock ▸ decode_alu h, opOfCommand_eq _, widthOfCommand_eq _, rfl⟩

/-- Settles O5: each listed word is an ALU word with its bits, or a watch command's. -/
theorem listedWordsDecode : Obligations.ListedWordsDecode := by
  intro r
  simp [decode, decodeWatch, opOfCommand, widthOfCommand, aluInstr, orefOfBundle, entryOfBundle, zeroBundle]

end Sys2Proof.Machine

/-! O6, O7, O9, O10, O22, O30, O47, O48, O54, O58: one turn from the schedule, the tables of numbers and paths, the reset
state, and words in memory. -/

namespace Sys2Proof.Machine

/-! ## A scheduled turn -/

/-- A thread no WCHK in flight is checking is not held up (R170). -/
theorem blocked_eq_false {s : State} {t : Nat} (h : ∀ c, s.debugger.flight = some c → c.thread ≠ t) :
    blocked t s = false := by
  cases hc : s.debugger.flight with
  | none => simp only [blocked, hc]
  | some c => simpa [blocked, hc] using h c hc

/-- The whole turn of an idle thread with a word in its stream runs that word (R61, R80; log 1). -/
theorem step_whole_thread {s : State} {t : Nat} {th : Thread} {rest : List Event} {p : PortWord} {q : List PortWord}
    (hsched : s.schedule = .whole (.thread t) :: rest) (ht : s.threads[t]? = some th) (hidle : th.flight = none)
    (hq : th.queue = p :: q) (hcheck : ∀ c, s.debugger.flight = some c → c.thread ≠ t) :
    step s = runCommand p exec (taken t th p q { s with schedule := rest }) := by
  simp only [step, hsched, runEvent]
  rw [turn_idle (s := { s with schedule := rest }) (idle_of_getElem? ht hidle),
    blocked_eq_false (s := { s with schedule := rest }) hcheck]
  exact issue_thread (s := { s with schedule := rest }) ht hq exec

/-- The state in which the debug agent's next command runs: its word taken from the stream and latched (R61, R80). -/
abbrev takenDebug (p : PortWord) (q : List PortWord) (s : State) : State :=
  { s with debugger := { s.debugger with queue := q }, port := { agent := .debug, cmd := p.cmd } }

/-- The whole turn of the idle debug agent with a word in its stream runs that word (R61, R80; log 1). -/
theorem step_whole_debug {s : State} {rest : List Event} {p : PortWord} {q : List PortWord}
    (hsched : s.schedule = .whole .debug :: rest) (hidle : s.debugger.flight = none) (hq : s.debugger.queue = p :: q) :
    step s = runCommand p exec (takenDebug p q { s with schedule := rest }) := by
  simp only [step, hsched, runEvent, turn, hidle]
  simp only [issue, takeCommand, hq]

/-- Settles O6: the turn takes the word from the stream and runs what it decodes to. -/
theorem stepRunsTheDecodedCommand : Obligations.StepRunsTheDecodedCommand := by
  refine ⟨?thread, ?debug⟩
  case thread =>
    intro s t th rest p q i hsched ht hidle hq hcheck hdecode
    rw [step_whole_thread hsched ht hidle hq hcheck, runCommand, hdecode]
  case debug =>
    intro s rest p q i hsched hidle hq hdecode
    rw [step_whole_debug hsched hidle hq, runCommand, hdecode]

/-- Settles O7: a word from 0x45 on decodes to nothing, and `raise` changes the agent's answer alone. -/
theorem reservedWordEndsWithUndef : Obligations.ReservedWordEndsWithUndef := by
  refine ⟨?thread, ?debug⟩
  case thread =>
    intro s t th p rest q hsched ht hidle hq hcheck hreserved
    obtain ⟨e, he⟩ := decode_reserved hreserved
    rw [step_whole_thread hsched ht hidle hq hcheck, runCommand, he]
    simp only [raise, failWith]
    rw [finish_eq_set (getElem?_set_of_some ht _), List.set_set]
    simp only [← hidle]
  case debug =>
    intro s p rest q hsched hidle hq hreserved
    obtain ⟨e, he⟩ := decode_reserved hreserved
    rw [step_whole_debug hsched hidle hq, runCommand, he]
    simp only [raise, finish, failWith, ← hidle]

/-- Settles O54: an idle thread's turn issues nothing while a WCHK in flight is checking it. -/
theorem checkedThreadIssuesNothing : Obligations.CheckedThreadIssuesNothing := by
  intro s t pick th c k ht hidle hc hthread
  have hblocked : blocked t s = true := by simp [blocked, hc, hthread]
  rw [turn_idle (idle_of_getElem? ht hidle), if_pos hblocked]

/-- Settles O10: an ALU command asks for a thread first, a watch command for the debug agent. -/
theorem wrongAgentIsRefused : Obligations.WrongAgentIsRefused := by
  refine fun i s => ⟨fun halu hport => ?_, fun t hwatch hport => ?_⟩
  · rcases aluInstr_or_watch i with ⟨op, w, lock, o, rfl⟩ | hwatch
    · simp [runAlu, asThread, hport]
    · exact absurd hwatch halu
  · obtain ⟨k, hk⟩ := exec_watch hwatch s
    simp [hk, asDebug, hport]

/-! ## Tables -/

/-- Settles O9: the tables of R225, row by row. -/
theorem statusCodesAreAsListed : Obligations.StatusCodesAreAsListed :=
  ⟨fun st => by cases st <;> rfl, fun i => by cases i <;> rfl⟩

/-- Settles O22: the rows of R112 by lock bit, alignment and host support. -/
theorem pathSelectionTable : Obligations.PathSelectionTable := by
  intro p lock o
  refine ⟨rfl, rfl, ?w32, ?w64, fun _ _ _ => rfl, ?default⟩
  case w32 => simp [pathOf]
  case w64 => cases lock <;> simp [pathOf, and_comm]
  case default =>
    intro hnone a n
    rw [aligned, hostAligned, hnone]
    rfl

/-! ## Reset -/

/-- A thread of the reset state is a reset thread. -/
theorem reset_thread {th : Thread} (h : th ∈ State.reset.threads) : th = resetThread := List.eq_of_mem_replicate h

/-- Settles O47: the fields of the reset state. -/
theorem resetStateIsAsStated : Obligations.ResetStateIsAsStated := by
  refine ⟨rfl, rfl, rfl, rfl, fun th hth => ?_, fun _ => rfl⟩
  obtain rfl := reset_thread hth
  exact ⟨rfl, rfl, rfl, fun i => (List.getD_eq_getElem?_getD ..).trans (List.getElem?_getD_replicate_default_eq ..)⟩

/-- Settles O48: nothing is in flight at reset and every counter is 0. -/
theorem resetMeetsInvariant : Obligations.ResetMeetsInvariant := by
  have hthread : ∀ (t : Nat) th, State.reset.threads[t]? = some th → th = resetThread := fun t th ht =>
    reset_thread (List.mem_of_getElem? ht)
  refine .of_threads memoryWf_reset (fun t => iff_of_false (by simp [State.reset]) ?_) (fun t th ht => ?_)
    ⟨le_refl _, Nat.zero_le _⟩ (by simp [checkOk, State.reset])
  · rintro ⟨th, f, ht, hf, -⟩
    simp [hthread t th ht, resetThread] at hf
  · rw [hthread t th ht]
    simp [threadOk, resetThread, State.reset, Config.defaults]

/-! ## Words in memory -/

/-- Settles O30: the stored bytes read back, and a load puts the low ones together. -/
theorem narrowReadAfterWideWrite : Obligations.NarrowReadAfterWideWrite := by
  intro m a v n k hkn hn8
  refine ⟨?_, fun b hb => memRead_storeWord_outside hb⟩
  rw [loadWord_eq (v := v) (by omega) fun j hj => memRead_storeWord hn8 (by omega)]
  congr 1
  exact BitVec.eq_of_toNat_eq (by simp)

/-! ## Interleavings -/

/-- Settles O58: both schedules of the six steps run to their ends. -/
theorem plainUpdatesCanBeLost : Obligations.PlainUpdatesCanBeLost :=
  ⟨⟨_, rfl, rfl⟩, _, rfl, rfl⟩

end Sys2Proof.Machine

/-! O12 to O18, O23 to O25: what an ALU command run whole leaves in its operand and in FLAGS, and how it ends where it does
not complete (R111 to R119, R221, R251). -/

namespace Sys2Proof.Machine

/-! ## The operation functions on numbers -/

section
variable {n : Nat} (v : BitVec n)

theorem aluFn_neg_eq : aluFn .neg v = BitVec.ofNat n (2 ^ n - v.toNat) :=
  BitVec.eq_of_toNat_eq (by simp [aluFn])

theorem aluFn_inc_eq : aluFn .inc v = BitVec.ofNat n (v.toNat + 1) :=
  BitVec.eq_of_toNat_eq (by simp [aluFn])

theorem aluFn_dec_eq (hn : 0 < n) : aluFn .dec v = BitVec.ofNat n (v.toNat + (2 ^ n - 1)) := by
  have hone : 1 % 2 ^ n = 1 := Nat.mod_eq_of_lt (Nat.one_lt_two_pow hn.ne')
  exact BitVec.eq_of_toNat_eq (by simp [aluFn, BitVec.toNat_sub, hone, Nat.add_comm])

end

theorem widthBits_pos (w : Width) : 0 < widthBits w := Nat.mul_pos (by omega) (widthBytes_pos w)

/-! ## FLAGS -/

/-- An evaluation of F leaves every bit but the six arithmetic flags, whatever FLAGSEM is (R27). -/
theorem getLsbD_flagsAfter_of_other (sem : FlagSem) (op : AluOp) (w : Width) (v fl : Word) {k : Nat}
    (h0 : k ≠ 0) (h2 : k ≠ 2) (h4 : k ≠ 4) (h6 : k ≠ 6) (h7 : k ≠ 7) (h11 : k ≠ 11) :
    (flagsAfter sem op w v fl).getLsbD k = fl.getLsbD k := by
  have hwrite : ∀ f, (writeFlags fl f).getLsbD k = fl.getLsbD k := fun f => by
    simp [getLsbD_writeFlags, h0, h2, h4, h6, h7, h11]
  cases op with
  | not => rfl
  | _ => cases sem <;> exact hwrite _

/-- Completed commands, with the result as a number and what FLAGS keep (R110, R111, R115). -/
theorem exec_aluInstr_writes {s : State} {t : Nat} {th : Thread} {op : AluOp} {w : Width} {lock : Bool} {o : Oref}
    {v r : BitVec (widthBits w)} (hr : aluFn op v = r) (hissue : threadIssues s t th) (hv : operandHolds s th w o v)
    (hlock : lockAvailable s w lock o) :
    ∃ s' th', exec (aluInstr op w lock o) s = .next s' ∧ s'.threads[t]? = some th' ∧ operandWritten s s' th th' w o r ∧
      (∀ k, k ≠ 0 → k ≠ 2 → k ≠ 4 → k ≠ 6 → k ≠ 7 → k ≠ 11 → th'.flags.getLsbD k = th.flags.getLsbD k) ∧
      sameBesidesThread t s s' ∧ threadEnded th th' := by
  obtain ⟨s', th', hexec, hth', hwritten, hflags, hsame, hended⟩ := exec_aluInstr_completes (op := op) hissue hv hlock
  refine ⟨s', th', hexec, hth', hr ▸ hwritten, fun k h0 h2 h4 h6 h7 h11 => ?_, hsame, hended⟩
  rw [hflags, getLsbD_flagsAfter_of_other _ _ _ _ _ h0 h2 h4 h6 h7 h11]

/-- Settles O12: F is the negation, 2^w less the value. -/
theorem negWritesTwosComplement : Obligations.NegWritesTwosComplement := by
  intro s t th w lock o v hissue hv hlock
  exact exec_aluInstr_writes (aluFn_neg_eq v) hissue hv hlock

/-- Settles O13: F is the value plus one. -/
theorem incWritesSuccessor : Obligations.IncWritesSuccessor := by
  intro s t th w lock o v hissue hv hlock
  exact exec_aluInstr_writes (aluFn_inc_eq v) hissue hv hlock

/-- Settles O14: F is the value less one, 2^w - 1 more on numbers. -/
theorem decWritesPredecessor : Obligations.DecWritesPredecessor := by
  intro s t th w lock o v hissue hv hlock
  exact exec_aluInstr_writes (aluFn_dec_eq v (widthBits_pos w)) hissue hv hlock

/-- A fold of exclusive ors counts modulo 2. -/
theorem foldl_xor_eq_countP (p : Nat → Bool) (l : List Nat) (b : Bool) :
    l.foldl (fun acc i => acc ^^ p i) b = (b ^^ (l.countP p % 2 == 1)) := by
  induction l generalizing b with
  | nil => simp
  | cons i l ih =>
    rw [List.foldl_cons, ih, List.countP_cons]
    cases hp : p i
    · simp
    · rcases Nat.mod_two_eq_zero_or_one (l.countP p) with h | h <;> cases b <;> simp [Nat.add_mod, h]

/-- The parity flag is the evenness of the number of one bits (R117). -/
theorem evenParity_eq_evenOnes {n : Nat} (r : BitVec n) : evenParity r = evenOnes r := by
  simp only [evenParity, foldl_xor_eq_countP, Bool.false_xor, evenOnes]
  rcases Nat.mod_two_eq_zero_or_one ((List.range 8).countP fun k => r.getLsbD k) with h | h <;> simp [h]

/-- The low four bits of a value as a number (R117 to R119). -/
theorem setWidth_four_eq_iff {n : Nat} (v : BitVec n) {c : Nat} (hc : c < 16) :
    v.setWidth 4 = BitVec.ofNat 4 c ↔ v.toNat % 16 = c := by
  rw [← BitVec.toNat_inj]
  simp [Nat.mod_eq_of_lt hc]

/-- A value is the pattern of a number exactly if it is that number. -/
theorem eq_ofNat_iff {n : Nat} (v : BitVec n) {x : Nat} (hx : x < 2 ^ n) : v = BitVec.ofNat n x ↔ v.toNat = x := by
  rw [← BitVec.toNat_inj]
  simp [Nat.mod_eq_of_lt hx]

/-- FLAGS after NEG, INC and DEC under FLAGSEM = X86: the formulas of the operation, on the operand's value (R117 to R119). -/
theorem exec_aluInstr_x86Flags {s : State} {t : Nat} {th : Thread} {op : AluOp} {w : Width} {lock : Bool} {o : Oref}
    {v r : BitVec (widthBits w)} (hop : op ≠ .not) (hr : aluFn op v = r) (hissue : threadIssues s t th)
    (hv : operandHolds s th w o v) (hlock : lockAvailable s w lock o) (hsem : s.params.flagSem = .x86) :
    ∃ s' th', exec (aluInstr op w lock o) s = .next s' ∧ s'.threads[t]? = some th' ∧
      th'.flags.getLsbD 0 = carryAfter op v (th.flags.getLsbD 0) ∧ th'.flags.getLsbD 11 = overflowAfter op v ∧
      th'.flags.getLsbD 4 = auxAfter op v ∧ resultFlags th th' r := by
  obtain ⟨s', th', hexec, hth', -, hflags, -, -⟩ := exec_aluInstr_completes (op := op) hissue hv hlock
  have hwidth : (v.setWidth 64).setWidth (widthBits w) = v := by
    rw [BitVec.setWidth_setWidth_of_le _ (widthBits_le w), BitVec.setWidth_eq]
  have hwrite : th'.flags = writeFlags th.flags (x86Flags op v (th.flags.getLsbD 0)) := by
    rw [hflags, hsem]
    cases op with
    | not => exact absurd rfl hop
    | _ => simp only [flagsAfter, hwidth, flagOf, cfBit]
  subst hr
  refine ⟨s', th', hexec, hth', ?_⟩
  simp only [resultFlags, hwrite, getLsbD_writeFlags, x86Flags, ← evenParity_eq_evenOnes]
  simp +contextual

theorem eq_minPattern_iff {w : Width} (v : BitVec (widthBits w)) :
    v = minPattern (widthBits w) ↔ v.toNat = 2 ^ (widthBits w - 1) :=
  eq_ofNat_iff v (Nat.pow_lt_pow_right (by omega) (Nat.sub_lt (widthBits_pos w) (by omega)))

theorem eq_maxPattern_iff {w : Width} (v : BitVec (widthBits w)) :
    v = maxPattern (widthBits w) ↔ v.toNat = 2 ^ (widthBits w - 1) - 1 :=
  eq_ofNat_iff v ((Nat.sub_le ..).trans_lt
    (Nat.pow_lt_pow_right (by omega) (Nat.sub_lt (widthBits_pos w) (by omega))))

/-- Settles O15: CF, OF and AF of NEG compare the value with 0, with the most negative one, and its low digit with 0. -/
theorem negFlagsByFormula : Obligations.NegFlagsByFormula := by
  intro s t th w lock o v hissue hv hlock hsem
  obtain ⟨s', th', hexec, hth', hcf, hof, haf, hrest⟩ :=
    exec_aluInstr_x86Flags (by simp) (aluFn_neg_eq v) hissue hv hlock hsem
  refine ⟨s', th', hexec, hth', hcf.trans ?_, hof.trans ?_, haf.trans ?_, hrest⟩
  · exact decide_eq_decide.2 (not_congr (eq_ofNat_iff v (Nat.two_pow_pos _)))
  · exact decide_eq_decide.2 (eq_minPattern_iff v)
  · exact decide_eq_decide.2 (not_congr (setWidth_four_eq_iff v (by omega)))

/-- Settles O16: OF and AF of INC compare the value with the most positive one, and its low digit with 15. -/
theorem incFlagsByFormula : Obligations.IncFlagsByFormula := by
  intro s t th w lock o v hissue hv hlock hsem
  obtain ⟨s', th', hexec, hth', hcf, hof, haf, hrest⟩ :=
    exec_aluInstr_x86Flags (by simp) (aluFn_inc_eq v) hissue hv hlock hsem
  refine ⟨s', th', hexec, hth', hcf, hof.trans ?_, haf.trans ?_, hrest⟩
  · exact decide_eq_decide.2 (eq_maxPattern_iff v)
  · exact decide_eq_decide.2 (setWidth_four_eq_iff v (by omega))

/-- Settles O17: OF and AF of DEC compare the value with the most negative one, and its low digit with 0. -/
theorem decFlagsByFormula : Obligations.DecFlagsByFormula := by
  intro s t th w lock o v hissue hv hlock hsem
  obtain ⟨s', th', hexec, hth', hcf, hof, haf, hrest⟩ :=
    exec_aluInstr_x86Flags (by simp) (aluFn_dec_eq v (widthBits_pos w)) hissue hv hlock hsem
  refine ⟨s', th', hexec, hth', hcf, hof.trans ?_, haf.trans ?_, hrest⟩
  · exact decide_eq_decide.2 (eq_minPattern_iff v)
  · exact decide_eq_decide.2 (setWidth_four_eq_iff v (by omega))

/-- Settles O18: the six flags are the free function's, at the operand's value in the low bits of a word. -/
theorem drawnFlagsDependOnValueAndCarryOnly : Obligations.DrawnFlagsDependOnValueAndCarryOnly := by
  refine ⟨fun op w x cf => Config.freeFlags op w (BitVec.ofNat 64 x) cf, ?_⟩
  intro s t th op w lock o v hissue hv hlock hsem hop
  obtain ⟨s', th', hexec, hth', -, hflags, -, -⟩ := exec_aluInstr_completes (op := op) hissue hv hlock
  have hwidth : ((v.setWidth 64).setWidth (widthBits w)).setWidth 64 = BitVec.ofNat 64 v.toNat := by
    rw [BitVec.setWidth_setWidth_of_le _ (widthBits_le w), BitVec.setWidth_eq, BitVec.ofNat_toNat]
  have hwrite : th'.flags =
      writeFlags th.flags (Config.freeFlags op w (BitVec.ofNat 64 v.toNat) (th.flags.getLsbD 0)) := by
    rw [hflags, hsem]
    cases op with
    | not => exact absurd rfl hop
    | _ => simp only [flagsAfter, hwidth, flagOf, cfBit]
  refine ⟨s', th', hexec, hth', ?_⟩
  simp only [hwrite, getLsbD_writeFlags]
  simp +contextual

/-! ## Commands that do not complete -/

/-- Settles O23: the three malformed forms are those the OREF check refuses, and `raise` changes the answer alone. -/
theorem malformedOperandEndsWithUndef : Obligations.MalformedOperandEndsWithUndef := by
  intro s t th op w lock o hissue hbad
  have hrefused : orefOk s w o = false := by
    cases o with
    | reg i boff =>
      rcases hbad with hi | ⟨rfl, hw⟩
      · simp [orefOk, Nat.not_lt.2 hi]
      · simp [orefOk, hw]
    | mem a => simpa [orefOk] using hbad
  have ⟨_, ht, hidle⟩ := hissue
  rw [exec_aluInstr, runAlu_issues hissue, executeUnaryAlu, hrefused]
  simp only [Bool.false_eq_true, if_false, raise, finish_eq_set ht, failWith, ← hidle]

/-- A load whose bytes all have values succeeds (R12). -/
theorem loadWord_isOk {m : Memory} {a : Word} {n : Nat} (h : ∀ j, j < n → memRead m (byteAddr a j).toNat ≠ none) :
    ∃ v, loadWord m a n = .ok v := by
  induction n with
  | zero => exact ⟨0, rfl⟩
  | succ n ih =>
    obtain ⟨v, hv⟩ := ih fun j hj => h j (by omega)
    obtain ⟨b, hb⟩ := Option.ne_none_iff_exists'.1 (h n (by omega))
    exact ⟨_, by simp only [loadWord, hv, loadByte, hb]; rfl⟩

/-- A load faults at the lowest byte without a value (R251, U6). -/
theorem loadWord_error {m : Memory} {a : Word} {n k : Nat} (hk : k < n)
    (hnone : memRead m (byteAddr a k).toNat = none) (hbelow : ∀ j, j < k → memRead m (byteAddr a j).toNat ≠ none) :
    loadWord m a n = .error (.memoryNoValue (byteAddr a k)) := by
  induction n with
  | zero => omega
  | succ n ih =>
    by_cases hkn : k = n
    · subst hkn
      obtain ⟨v, hv⟩ := loadWord_isOk hbelow
      simp only [loadWord, hv, loadByte, hnone]
    · simp only [loadWord, ih (by omega)]

/-- Settles O24: the operand is well formed and its lock available, so the command reaches its load, which faults. -/
theorem loadOfValuelessByteFaults : Obligations.LoadOfValuelessByteFaults := by
  intro s t th op w lock a k hissue hresolved hlock hk hnone hbelow
  have hok : orefOk s w (.mem a) = true := by simpa [orefOk] using hresolved
  have hload : loadOperand s th w (.mem a) = .error (.memoryNoValue (byteAddr a k)) := loadWord_error hk hnone hbelow
  rw [exec_aluInstr, runAlu_issues hissue, executeUnaryAlu_ok hok hlock, transformOperand, hload]

/-- A command before its Acquire waits while LK is HELD: its turn changes nothing (R113). -/
theorem turn_waits {s : State} {t u : Nat} {th : Thread} {f : Flight} (ht : s.threads[t]? = some th)
    (hf : th.flight = some f) (hphase : f.phase = .acquire) (hlk : s.lk = .held u) (pick : Nat)
    (k : Instr → State → Host.Outcome State Fault Refusal) : turn (.thread t) pick k s = .next s := by
  rw [turn_inFlight ht hf]
  simp only [advanceThread, hphase, acquireStep, hlk]

/-- Settles O25: the LOCKED path with LK HELD puts the command before its Acquire, where it waits. -/
theorem lockedCommandWaitsWhileHeld : Obligations.LockedCommandWaitsWhileHeld := by
  intro s t u th op w lock o hissue hok hpath hlk
  have ⟨_, ht, _⟩ := hissue
  let f : Flight := { op := op, width := w, oref := o, path := .locked, phase := .acquire }
  have hwaiting : (putFlight t f s).threads[t]? = some { th with flight := some f } := by simp [putFlight, ht]
  refine ⟨putFlight t f s, ?_, updThread_eq_set ht _, fun pick k => turn_waits hwaiting rfl rfl hlk pick k⟩
  rw [exec_aluInstr, runAlu_issues hissue]
  simp only [executeUnaryAlu, hok, if_true, hpath, lockedTransform, hlk]
  rfl

end Sys2Proof.Machine

/-! O26 to O29: the indivisible steps of an ALU command in flight, by what `AluStep` says of them (R62 to R64, R110). -/

namespace Sys2Proof.Machine

/-! ## The LOCKED path and the lock -/

/-- In a state with the invariant, a LOCKED command in flight is before its Acquire, or LK is HELD by its thread (R63). -/
theorem Inv.held_of_locked {s : State} (hinv : Inv s) {t : Nat} {th : Thread} {f : Flight} (ht : s.threads[t]? = some th)
    (hf : th.flight = some f) (hpath : f.path = .locked) (hphase : f.phase ≠ .acquire) : s.lk = .held t :=
  (hinv.lock t).2 ⟨th, f, ht, hf, hpath, hphase⟩

/-- A command before its Acquire is not the one that holds LK (R63). -/
theorem Inv.holder_ne {s : State} (hinv : Inv s) {t u : Nat} {th : Thread} {f : Flight} (ht : s.threads[t]? = some th)
    (hf : th.flight = some f) (hphase : f.phase = .acquire) (hlk : s.lk = .held u) : u ≠ t := by
  rintro rfl
  obtain ⟨th', f', ht', hf', -, hphase'⟩ := (hinv.lock u).1 hlk
  obtain rfl : th = th' := by simpa [ht] using ht'
  obtain rfl : f = f' := by simpa [hf] using hf'
  exact hphase' hphase

/-- The thread a step moved, in its place. -/
theorem AluStep.getElem?_self {t : Nat} {th th' : Thread} {f : Flight} {s s' : State} (h : AluStep t th th' f s s')
    (ht : s.threads[t]? = some th) : s'.threads[t]? = some th' := by
  rw [h.state]
  exact getElem?_set_of_some ht th'

/-- Settles O26: LK is taken at the Acquire, kept while the command is in flight, and given back as it ends. -/
theorem lockedPathHoldsLockUntilItEnds : Obligations.LockedPathHoldsLockUntilItEnds := by
  intro s s' t th f pick hinv ht hf hpath hadv
  rcases advanceThread_cases ht hadv with ⟨hphase, ⟨u, hlk⟩, rfl⟩ | ⟨th', hstep⟩
  · exact ⟨th, ht, .inr ⟨f, hf, hpath, .inl ⟨hphase, rfl, u, hinv.holder_ne ht hf hphase hlk, hlk⟩⟩⟩
  obtain ⟨hwf, -⟩ := hinv.flights t th f ht hf
  have hmoves := hstep.flight
  refine ⟨th', hstep.getElem?_self ht, ?_⟩
  cases hf' : th'.flight with
  | none =>
    rw [hf'] at hmoves
    have hrelease := hmoves.ended hwf hpath
    rcases hstep.lock with ⟨hacquire, -⟩ | ⟨-, hfree⟩ | ⟨-, hnot, -⟩
    · cases hrelease.symm.trans hacquire
    · exact .inl ⟨rfl, hfree⟩
    · exact absurd hrelease hnot
  | some f' =>
    obtain ⟨hpath', -, hphase'⟩ := hmoves.kept hf'
    refine .inr ⟨f', rfl, hpath'.trans hpath, .inr ⟨hphase', ?_⟩⟩
    rcases hstep.lock with ⟨-, -, hheld⟩ | ⟨hrelease, -⟩ | ⟨hacquire, -, hsame⟩
    · exact hheld
    · simp [hmoves.of_release hrelease] at hf'
    · exact hsame.trans (hinv.held_of_locked ht hf hpath hacquire)

/-- No step of a command in flight is refused (R61). -/
theorem advanceThread_ne_refused (t : Nat) (th : Thread) (f : Flight) (pick : Nat) (s : State) (r : Refusal) :
    advanceThread t th f pick s ≠ .refused r := by
  cases hp : f.phase with
  | load todo acc =>
    simp only [advanceThread, hp, loadStep]
    split_ifs
    · split <;> simp
    · split
      next =>
        split
        next => simp
        next => split <;> simp
      next => simp
  | casLoad =>
    simp only [advanceThread, hp, casLoadStep]
    split <;> simp
  | casTry e =>
    simp only [advanceThread, hp, casTryStep]
    split
    next => simp
    next => split_ifs <;> simp
  | _ => simp [advanceThread, hp]

/-- Settles O27: the holder of LK has a command in flight past its Acquire, and each of its steps moves that command on. -/
theorem lockHolderAlwaysGoesOn : Obligations.LockHolderAlwaysGoesOn := by
  intro s t pick k hinv hlk
  obtain ⟨th, f, ht, hf, -, hphase⟩ := (hinv.lock t).1 hlk
  rw [turn_inFlight ht hf]
  refine ⟨advanceThread_ne_refused t th f pick s, ?_⟩
  rintro s' hadv rfl
  rcases advanceThread_cases ht hadv with ⟨hacquire, -⟩ | ⟨th', hstep⟩
  · exact hphase hacquire
  · obtain rfl : th = th' := by simpa [ht] using hstep.getElem?_self ht
    exact hstep.flight.ne hf

/-! ## The conditional write of a CAS attempt -/

/-- A value of a width is known by the word it loads as (R111). -/
theorem setWidth_inj {w : Width} {u v : BitVec (widthBits w)} : u.setWidth 64 = v.setWidth 64 ↔ u = v := by
  refine ⟨fun h => ?_, fun h => h ▸ rfl⟩
  have htrunc := congrArg (BitVec.setWidth (widthBits w)) h
  simpa [BitVec.setWidth_setWidth_of_le _ (widthBits_le w)] using htrunc

/-- NOT's evaluation writes no flag (R116). -/
theorem putFlags_not {s : State} {t : Nat} {th : Thread} (ht : s.threads[t]? = some th) (w : Width) (v : Word) :
    putFlags t .not w v s = s := by
  rw [putFlags_eq_set ht]
  exact congrArg (fun ths => ({ s with threads := ths } : State)) (threads_set_self ht)

/-- A store that ends its command writes the operand back and leaves FLAGS and the rest of the state (R115). -/
theorem written_of_store {s : State} {t : Nat} {th : Thread} {w : Width} {o : Oref} {r : BitVec (widthBits w)}
    (ht : s.threads[t]? = some th) (hboff : ∀ i boff, o = .reg i boff → boff = true → w = .w8) :
    let s' := finish (.thread t) (okWith .noResult) (storeOperand t w o (r.setWidth 64) s)
    ∃ th', s'.threads[t]? = some th' ∧ sameBesidesThread t s s' ∧ th'.flags = th.flags ∧
      operandWritten s s' th th' w o r ∧ threadEnded th th' := by
  intro s'
  have hs' : finish (.thread t) (okWith .noResult) (storeOperand t w o (r.setWidth 64) (putFlags t .not w 0 s)) = s' := by
    rw [putFlags_not ht]
  have hmem := mem_after (t := t) (op := .not) (w := w) (o := o) (s := s) (v := 0) (r := r.setWidth 64)
  have hth' := threads_after (op := .not) (w := w) (o := o) (v := 0) (r := r.setWidth 64) ht
  have hsame := sameBesidesThread_after t .not w o s 0 (r.setWidth 64)
  rw [hs'] at hmem hth' hsame
  refine ⟨_, hth', hsame, rfl, ?_, rfl, rfl, rfl, rfl⟩
  cases o with
  | reg i boff =>
    obtain ⟨hholds, hbytes, hothers⟩ := regWritten (th := th) (r := r) (fl := th.flags) (q := some (okWith .noResult))
      (hboff i boff rfl)
    exact ⟨hholds, hbytes, hothers, hmem⟩
  | mem a =>
    exact ⟨hmem ▸ memHolds_storeWord s.mem a r, fun b hb => hmem ▸ memRead_storeWord_outside hb, rfl⟩

/-- Settles O28: the operand loads as `cur`, which is compared with `e` as words, and the write-back is that of R115. -/
theorem casAttemptIsAtomic : Obligations.CasAttemptIsAtomic := by
  intro s t th op w o e cur pick f ht hf hcur
  have hload : loadOperand s th w o = .ok (cur.setWidth 64) := by
    cases o with
    | reg i boff => exact loadOperand_reg hcur.2
    | mem a => exact loadWord_of_memHolds hcur
  have hboff : ∀ i boff, o = .reg i boff → boff = true → w = .w8 := by
    rintro i boff rfl
    exact hcur.1
  have hstep : advanceThread t th f pick s = casTryStep t th f (e.setWidth 64) s := rfl
  rw [hstep]
  simp only [casTryStep, show f.width = w from rfl, show f.oref = o from rfl, show f.op = op from rfl, hload, setWidth_inj,
    aluResult_setWidth]
  split_ifs
  · obtain ⟨th', hth', hsame, hflags, hwritten, hended⟩ := written_of_store (r := aluFn op e) ht hboff
    refine ⟨_, th', rfl, hth', hsame, hflags, ?_, hended⟩
    cases op <;> exact hwritten
  · rw [goPhase_eq_set ht]
    refine ⟨_, _, rfl, getElem?_set_of_some ht _, ?_, rfl, rfl, rfl⟩
    simp +contextual [sameBesidesThread, List.getElem?_set_ne, eq_comm]

/-! ## What a step leaves alone -/

/-- A register byte outside the operand is as before a write-back, but at width 32 (R115). -/
theorem regByte_of_outside {th th' : Thread} {w : Width} {i k : Nat} {boff : Bool} {r : Word}
    (hregs : th'.regs = putAt th.regs i (regAfterWrite w (readReg th i) (regOffset boff) r) 0)
    (hboff : boff = true → w = .w8) (hw : w ≠ .w32) (hk : k < 8)
    (hout : k < regOffset boff ∨ regOffset boff + widthBytes w ≤ k) : regByte th' i k = regByte th i k := by
  have hread : th'.regs.getD i 0 = regAfterWrite w (readReg th i) (regOffset boff) r := by
    rw [hregs, getD_putAt, if_pos rfl]
  refine BitVec.eq_of_getLsbD_eq fun j hj => ?_
  simp only [regByte, hread, BitVec.getLsbD_extractLsb', hj, decide_true, Bool.true_and]
  rw [getLsbD_regAfterWrite w _ _ hboff (by omega), if_neg (by omega), if_neg hw, readReg]

/-- A step writes no register but the operand's (R110). -/
theorem OperandStep.getD_of_other {f : Flight} {th : Thread} {m m' : Memory} {rs : List Word}
    (h : OperandStep f th m rs m') {i : Nat} (hi : ∀ boff, f.oref ≠ .reg i boff) : rs.getD i 0 = th.regs.getD i 0 := by
  cases h with
  | register ho => exact (getD_putAt ..).trans (if_neg fun hji => hi _ (hji ▸ ho))
  | _ => rfl

/-- A step writes no register byte outside the operand, but at width 32 (R115). -/
theorem OperandStep.regByte_of_outside {f : Flight} {th th' : Thread} {m m' : Memory} {rs : List Word}
    (h : OperandStep f th m rs m') (hrs : th'.regs = rs) {i k : Nat} {boff : Bool} (ho : f.oref = .reg i boff)
    (hboff : boff = true → f.width = .w8) (hw : f.width ≠ .w32) (hk : k < 8)
    (hout : k < regOffset boff ∨ regOffset boff + widthBytes f.width ≤ k) : regByte th' i k = regByte th i k := by
  cases h with
  | register ho' =>
    cases ho.symm.trans ho'
    exact Machine.regByte_of_outside hrs hboff hw hk hout
  | _ => simp only [regByte, hrs]

/-- A step writes no memory byte outside the operand (R55). -/
theorem OperandStep.memRead_of_outside {f : Flight} {th : Thread} {m m' : Memory} {rs : List Word}
    (h : OperandStep f th m rs m') (hwf : flightWf f) {b : Word}
    (hb : ∀ a, f.oref = .mem a → outside a (widthBytes f.width) b) : memRead m' b.toNat = memRead m b.toNat := by
  cases h with
  | memory ho => exact memRead_storeWord_outside (hb _ ho)
  | byte ho hphase hk =>
    simp only [flightWf, hphase] at hwf
    rw [memRead_memWrite, if_neg fun he => hb _ ho _ (hwf.2 _ hk) (BitVec.eq_of_toNat_eq he)]
  | _ => rfl

/-- What a step that writes FLAGS leaves of them (R27, R116). -/
theorem FlagStep.kept {sem : FlagSem} {f : Flight} {th th' : Thread} (h : FlagStep sem f th th') :
    (∀ k, k ≠ 0 → k ≠ 2 → k ≠ 4 → k ≠ 6 → k ≠ 7 → k ≠ 11 → th'.flags.getLsbD k = th.flags.getLsbD k) ∧
    (f.op = .not → th'.flags = th.flags) := by
  obtain ⟨⟨v, hv⟩, -, -⟩ := h
  refine ⟨fun k h0 h2 h4 h6 h7 h11 => ?_, fun hop => ?_⟩
  · rw [hv, getLsbD_flagsAfter_of_other _ _ _ _ _ h0 h2 h4 h6 h7 h11]
  · rw [hv, hop, flagsAfter]

/-- A step of a command that is not LOCKED leaves LK (R63). -/
theorem LockStep.of_unlocked {t : Nat} {f : Flight} {l l' : Lock} (h : LockStep t f l l') (hwf : flightWf f)
    (hpath : f.path ≠ .locked) : l' = l := by
  rcases h with ⟨hphase, -⟩ | ⟨hphase, -⟩ | ⟨-, -, hsame⟩
  · simp [flightWf, hphase, hpath] at hwf
  · simp [flightWf, hphase, hpath] at hwf
  · exact hsame

/-- Settles O29: the parts of an `AluStep`, each outside what it writes; a command that waits changes nothing. -/
theorem aluStepsTouchOnlyTheirOperand : Obligations.AluStepsTouchOnlyTheirOperand := by
  intro s s' t th f pick ht hf hwf hadv
  rcases advanceThread_cases ht hadv with ⟨-, -, rfl⟩ | ⟨th', hstep⟩
  · refine ⟨⟨th, ht, ?_⟩, ?_⟩ <;> simp
  have hoperand := hstep.operand
  have hrest := hstep.state
  refine ⟨⟨th', hstep.getElem?_self ht, hstep.pc, hstep.queue, fun i => hoperand.getD_of_other,
    fun i boff k => hoperand.regByte_of_outside rfl, ?flags⟩, fun u hu => ?others, fun b => hoperand.memRead_of_outside hwf,
    hstep.lock.of_unlocked hwf, fun hacquire hrelease => ?lock, ?_⟩
  case flags =>
    rcases hstep.flags with hsame | hwrite
    · simp [hsame]
    · obtain ⟨hbits, hnot⟩ := hwrite.kept
      obtain ⟨-, hphase, hgone⟩ := hwrite
      refine ⟨hbits, hnot, fun hload hcas => ?_, fun f' todo acc hf' hload => absurd hload (hgone f' todo acc hf')⟩
      rcases hphase with ⟨todo, acc, hphase⟩ | hphase
      · exact absurd hphase (hload todo acc)
      · exact absurd hphase hcas
  case others =>
    rw [hrest]
    exact List.getElem?_set_ne (Ne.symm hu)
  case lock =>
    rcases hstep.lock with ⟨hphase, -⟩ | ⟨hphase, -⟩ | ⟨-, -, hsame⟩
    · exact absurd hphase hacquire
    · exact absurd hphase hrelease
    · exact hsame
  · rw [hrest]
    simp

end Sys2Proof.Machine

/-! O31 to O33, O35 to O44: the watch commands of the idle debug agent (R172 to R190). -/

namespace Sys2Proof.Machine

/-! ## WADD, WDIS and WRD -/

@[simp] theorem entryAt_finish_debug (r : Response) (s : State) (i : Nat) : entryAt (finish .debug r s) i = entryAt s i := rfl

/-- Ending the idle debug agent's command changes its answer alone (R220). -/
theorem finish_debug_of_idle {s : State} (h : s.debugger.flight = none) (r : Response) :
    finish .debug r s = { s with debugger := { s.debugger with resp := some r } } := by
  simp only [finish, ← h]

/-- WADD of the idle debug agent answers next with its effect (R172). -/
theorem exec_wadd_issues {s : State} (h : debugIssues s) (e : WatchEntry) : exec (.wadd e) s = .next (addEntry e s) :=
  asDebug_issues h

/-- WADD over a disabled live entry stores in the lowest one (R172, R174). -/
theorem addEntry_of_disabled {s : State} {e : WatchEntry} {i : Nat} (h : firstDisabled s = some i) :
    addEntry e s = addedAt i (putEntry i e s) := by
  simp only [addEntry, h]

/-- WADD with every live entry enabled appends where there is room (R172). -/
theorem addEntry_of_room {s : State} {e : WatchEntry} (h : firstDisabled s = none) (hroom : s.wlen ≠ s.wcap) :
    addEntry e s = addedAt s.wlen (appendEntry e s) := by
  simp only [addEntry, h, if_neg hroom]

/-- WADD with every live entry enabled and no room grows the capacity below WMAX (R173). -/
theorem addEntry_of_growth {s : State} {e : WatchEntry} (h : firstDisabled s = none) (hfull : s.wlen = s.wcap)
    (hmax : s.wlen ≠ watchBound s.params) :
    addEntry e s = addedAt s.wlen (appendEntry e { s with wcap := grownCapacity s.wlen (watchBound s.params) }) := by
  simp only [addEntry, h, if_pos hfull, if_neg hmax]

/-- WADD with every live entry enabled and the capacity at WMAX is refused by its status (R173, R222). -/
theorem addEntry_of_full {s : State} {e : WatchEntry} (h : firstDisabled s = none) (hfull : s.wlen = s.wcap)
    (hmax : s.wlen = watchBound s.params) : addEntry e s = raise .debug .watchFull .noInfo s := by
  simp only [addEntry, h, if_pos hfull, if_pos hmax]

/-- Settles O31: the scan finds the lowest disabled live entry, and WADD stores there. -/
theorem waddReusesLowestDisabledSlot : Obligations.WaddReusesLowestDisabledSlot := by
  intro s e i hissue hlive hdis hlow
  refine ⟨_, exec_wadd_issues hissue e, ?_⟩
  rw [addEntry_of_disabled (firstDisabled_eq_some hlive hdis hlow)]
  simp [debugEnded, sameBesidesWatch, addedAt, okWith, entryAt_putEntry, eq_comm]

/-- Settles O32: the scan finds nothing, and the entry goes to WLEN, after growth where WLEN is WCAP. -/
theorem waddAppendsAndGrows : Obligations.WaddAppendsAndGrows := by
  intro s e hissue henabled hle hbound hmax
  have hnone := firstDisabled_eq_none henabled
  refine ⟨_, exec_wadd_issues hissue e, ?_⟩
  have happended : ∀ (u : State) (j : Nat), entryAt (appendEntry e u) j = if j = u.wlen then e else entryAt u j :=
    fun u j => (entryAt_putEntry ..).trans (by simp only [eq_comm])
  by_cases hfull : s.wlen = s.wcap
  · rw [addEntry_of_growth hnone hfull hmax, if_pos hfull]
    exact ⟨⟨rfl, rfl, rfl, rfl⟩, happended { s with wcap := _ }, rfl, rfl, rfl, rfl, rfl, rfl, rfl, rfl, rfl, rfl⟩
  · rw [addEntry_of_room hnone hfull, if_neg hfull]
    exact ⟨⟨rfl, rfl, rfl, rfl⟩, happended s, rfl, rfl, rfl, rfl, rfl, rfl, rfl, rfl, rfl, rfl⟩

/-- Settles O33: the scan finds nothing and the capacity may not grow, so WADD ends by `raise`. -/
theorem waddReportsFull : Obligations.WaddReportsFull := by
  intro s e hissue henabled hfull hmax
  rw [exec_wadd_issues hissue, addEntry_of_full (firstDisabled_eq_none henabled) hfull hmax, raise,
    finish_debug_of_idle hissue.2]
  rfl

/-- Settles O35: a live index has its `dis` bit set, another ends by `raise`. -/
theorem wdisDisablesOneLiveEntry : Obligations.WdisDisablesOneLiveEntry := by
  intro s idx hissue
  have hexec : exec (.wdis idx) s = .next (disableEntry idx s) := asDebug_issues hissue
  refine ⟨fun hlive => ⟨_, hexec, ?_⟩, fun hdead => ?_⟩
  · rw [disableEntry, if_neg (Nat.not_le.2 hlive)]
    refine ⟨⟨rfl, rfl, rfl, rfl⟩, fun j => ?_, rfl, rfl, rfl, rfl, rfl, rfl, rfl, rfl, rfl, rfl⟩
    rw [entryAt_finish_debug, entryAt_putEntry]
    by_cases hj : idx = j
    · simp [hj]
    · simp [hj, Ne.symm hj]
  · rw [hexec, disableEntry, if_pos (Nat.not_lt.1 hdead), raise, finish_debug_of_idle hissue.2]
    rfl

/-- Settles O36: the two cases of WRD's result. -/
theorem wrdReturnsEntryAndCounters : Obligations.WrdReturnsEntryAndCounters := by
  intro s idx hissue
  have hexec : exec (.wrd idx) s = .next (finish .debug (okWith (.read (readEntry idx s))) s) := asDebug_issues hissue
  refine ⟨readEntry idx s, by rw [hexec, finish_debug_of_idle hissue.2]; rfl, ?_⟩
  by_cases hlive : idx < s.wlen <;> simp [readEntry, hlive]

/-! ## WCHK: nothing to visit, and the address check -/

/-- A WCHK whose step 3 runs to its end without a change ends with its result alone changed (R180). -/
theorem exec_wchk_unchanged {s : State} {th : Thread} {r : Option Nat} (hissue : debugIssues s)
    (hth : s.threads[s.debugger.tdbg]? = some th) (h : checkEntries (checkAddress s th) s.wlen s = .ok (s, r)) :
    exec .wchk s = .next { s with debugger := { s.debugger with resp := some (okWith (.index (checkResult s.params r))) } } := by
  rw [exec_wchk_of_check hissue hth h, endCheck, finish_debug_of_idle hissue.2]

/-- Settles O37: the fast path at WLEN = 0, and a step 3 that passes over every entry. -/
theorem wchkWithNothingToVisitFindsNothing : Obligations.WchkWithNothingToVisitFindsNothing := by
  rintro s hissue (hzero | ⟨hdis, th, hth⟩)
  · rw [exec_wchk_next_iff.2 ⟨hissue, .inl ⟨hzero, rfl⟩⟩, endCheck, finish_debug_of_idle hissue.2]
    rfl
  · exact exec_wchk_unchanged hissue hth (checkEntries_disabled _ s s.wlen hdis)

/-- Step 3 comes to the highest enabled live entry (R180). -/
theorem checkEntries_from_highest {s : State} {i : Nat} (ea : Option Word) (hlive : enabledAt s i)
    (habove : ∀ j, i < j → j < s.wlen → (entryAt s j).dis = true) :
    checkEntries ea s.wlen s = checkEntries ea (i + 1) s := checkEntries_skip ea s hlive.1 habove

/-- Settles O38: step 3 comes to the entry first and reports it by its address. -/
theorem addressHitReturnsIndexUnseeded : Obligations.AddressHitReturnsIndexUnseeded := by
  intro s th i hissue hth hlive habove hea
  refine exec_wchk_unchanged (r := some i) hissue hth ?_
  rw [checkEntries_from_highest _ hlive habove]
  exact checkEntries_of_hits ⟨hlive.2, hea⟩

/-- Settles O39: pinned answers are the ones taken, and pc + len is computed modulo 2^64. -/
theorem addressCheckReadsAdvancedPc : Obligations.AddressCheckReadsAdvancedPc := by
  intro s th r ea ds as hdecode haddr
  have hpc : th.pc + BitVec.ofNat 64 r.len = BitVec.ofNat 64 (th.pc.toNat + r.len) := by
    rw [BitVec.ofNat_add, BitVec.ofNat_toNat, BitVec.setWidth_eq]
  have hr : decodeNext s th = r := by simp [decodeNext, hdecode]
  have hea : effectiveAddress s th.regs (BitVec.ofNat 64 (th.pc.toNat + r.len)) r.d = ea := by
    simp [effectiveAddress, haddr]
  simp only [checkAddress, hr, hpc, hea, Bool.and_eq_true]

/-! ## WCHK: all entries at once -/

/-- What step 3 does with the entry on top where it runs to its end: pass over it, report it by its address, or read and note
its content and then report it or go on (R180, R183). -/
theorem checkEntries_succ_cases {ea : Option Word} {i : Nat} {s s' : State} {r : Option Nat}
    (h : checkEntries ea (i + 1) s = .ok (s', r)) :
    (passes ea s (entryAt s i) ∧ checkEntries ea i s = .ok (s', r)) ∨
    (hits ea (entryAt s i) ∧ s' = s ∧ r = some i) ∨
    (reads ea s (entryAt s i) ∧ ∃ v s₁, s₁ = (noteContent i v (afterContentRead (entryAt s i).addr s)).1 ∧
      (s' = s₁ ∧ r = some i ∨ checkEntries ea i s₁ = .ok (s', r))) := by
  rcases passes_or_hits_or_reads ea s (entryAt s i) with hpass | hhit | hread
  · exact .inl ⟨hpass, checkEntries_of_passes hpass ▸ h⟩
  · rw [checkEntries_of_hits hhit] at h
    cases h
    exact .inr (.inl ⟨hhit, rfl, rfl⟩)
  · cases hword : contentWord s (entryAt s i).addr 8 with
    | error f => simp [checkEntries_of_error hread hword] at h
    | ok v =>
      rw [checkEntries_of_reads hread hword] at h
      refine .inr (.inr ⟨hread, v, _, rfl, ?_⟩)
      split_ifs at h
      · cases h
        exact .inl ⟨rfl, rfl⟩
      · exact .inr h

/-- Noting the entry read leaves the others, whether or not its read used up a draw (R183). -/
theorem entryAt_noted_of_ne {i j : Nat} (h : j ≠ i) (v a : Word) (s : State) :
    entryAt (noteContent i v (afterContentRead a s)).1 j = entryAt s j := by
  obtain ⟨d, hd⟩ := afterContentRead_eq a s
  rw [hd]
  exact entryAt_noteContent_of_ne h v _

/-- Step 3 started below `n` reports an entry below `n`, and leaves every entry below that one (R180). -/
theorem entryAt_checkEntries_below {ea : Option Word} {n i : Nat} {s s' : State}
    (h : checkEntries ea n s = .ok (s', some i)) : i < n ∧ ∀ j, j < i → entryAt s' j = entryAt s j := by
  induction n generalizing s with
  | zero => cases h
  | succ k ih =>
    rcases checkEntries_succ_cases h with ⟨-, hrun⟩ | ⟨-, rfl, ⟨⟩⟩ | ⟨-, v, s₁, rfl, ⟨rfl, ⟨⟩⟩ | hrun⟩
    · obtain ⟨hi, hsame⟩ := ih hrun
      exact ⟨by omega, hsame⟩
    · exact ⟨by omega, fun _ _ => rfl⟩
    · exact ⟨by omega, fun j hj => entryAt_noted_of_ne hj.ne v _ s⟩
    · obtain ⟨hi, hsame⟩ := ih hrun
      exact ⟨by omega, fun j hj => (hsame j hj).trans (entryAt_noted_of_ne (by omega) v _ s)⟩

/-- Step 3 uses up no draw where the content reads stay within their pages (log 14). -/
theorem draws_checkEntries_of_within {ea : Option Word} {n : Nat} {s s' : State} {r : Option Nat}
    (h : checkEntries ea n s = .ok (s', r)) (hpage : ∀ j, j < n → reads ea s (entryAt s j) → withinPage s (entryAt s j).addr) :
    s'.draws = s.draws := by
  induction n generalizing s with
  | zero =>
    cases h
    rfl
  | succ k ih =>
    have hbelow : ∀ j, j < k → reads ea s (entryAt s j) → withinPage s (entryAt s j).addr := fun j hj => hpage j (by omega)
    rcases checkEntries_succ_cases h with ⟨-, hrun⟩ | ⟨-, rfl, -⟩ | ⟨hread, v, s₁, rfl, hrun⟩
    · exact ih hrun hbelow
    · rfl
    rw [afterContentRead_within (hpage k (by omega) hread)] at hrun
    obtain ⟨we, hwe⟩ := noteContent_frame k v s
    rcases hrun with ⟨rfl, -⟩ | hrun
    · rw [hwe]
    · refine (ih hrun fun j hj => ?_).trans (by rw [hwe])
      rw [entryAt_noteContent_of_ne (by omega) v s, hwe]
      exact hbelow j hj

/-- An entry triggers by its address or by its content (R180, R186). -/
theorem triggers_iff {ea : Option Word} {s : State} {e : WatchEntry} {v : Word} :
    triggers ea s e v ↔ e.dis = false ∧ (ea = some e.addr ∨ mapped s e.addr = true ∧ e.init = true ∧ v ≠ e.prior) := by
  simp only [triggers, hits, reads, changes]
  tauto

/-- Settles O40: step 3 gives the parallel outcome; it notes every entry it reads, and nothing below its result. -/
theorem wchkEqualsTheParallelView : Obligations.WchkEqualsTheParallelView := by
  intro s th vals hissue hpos hth hvals hit chg
  have hcontents : contentsAre vals (checkAddress s th) s.wlen s := fun j hj hread => hvals j ⟨hj, hread.1⟩ hread.2.2
  obtain ⟨s₁, r, hcheck, htrig, hhigh, hnoted⟩ := checkEntries_parallel hcontents
  have hdraws := draws_checkEntries_of_within hcheck fun j hj hread => (hcontents j hj hread).1
  have hiff : ∀ j, hit j ∨ chg j ↔ j < s.wlen ∧ triggers (checkAddress s th) s (entryAt s j) (vals j) := fun j => by
    simp only [hit, chg, triggers_iff]
    tauto
  have hnot : ∀ j, (∀ i, r = some i → i < j) → ¬ hit j ∧ ¬ chg j := fun j habove => by
    rw [← not_or, hiff]
    exact fun ⟨hj, htriggers⟩ => hhigh j hj habove htriggers
  refine ⟨endCheck r s₁, r, exec_wchk_of_check hissue hth hcheck, ?answer, ?found, fun j => ⟨?changed, ?hit, ?seeded, ?above,
    ?below⟩, ?rest⟩
  case found =>
    cases r with
    | none => exact fun j => hnot j (by simp)
    | some i => exact ⟨(hiff i).2 (htrig i rfl), fun j hij => hnot j (by simpa using hij)⟩
  case changed =>
    intro hr hmiss
    obtain ⟨⟨hj, hdis⟩, hmap, hinit, -⟩ := ((hiff j).2 (htrig j hr)).resolve_left hmiss
    have hread : reads (checkAddress s th) s (entryAt s j) := ⟨hdis, fun hea => hmiss ⟨⟨hj, hdis⟩, hea⟩, hmap⟩
    rw [entryAt_endCheck, hnoted j hj (by simp [hr]) hread, ← hinit]
  case hit =>
    rintro - ⟨-, hea⟩
    rw [entryAt_endCheck]
    exact entryAt_checkEntries_of_not_reads hcheck (.inr fun hread => hread.2.1 hea)
  case seeded =>
    intro habove hlive hmap hinit
    have hmiss := (hnot j habove).1
    exact hnoted j hlive.1 (fun i hi => (habove i hi).le) ⟨hlive.2, fun hea => hmiss ⟨hlive, hea⟩, hmap⟩
  case above =>
    intro habove hkept
    by_cases hread : j < s.wlen ∧ reads (checkAddress s th) s (entryAt s j)
    · obtain ⟨hj, hread⟩ := hread
      have hlive : enabledAt s j := ⟨hj, hread.1⟩
      have hinit : (entryAt s j).init = true := by simpa [hlive, hread.2.2] using hkept
      have hsame : vals j = (entryAt s j).prior := by
        by_contra hne
        exact (hnot j habove).2 ⟨hlive, hread.2.2, hinit, hne⟩
      rw [entryAt_endCheck, hnoted j hj (fun i hi => (habove i hi).le) hread, hsame, ← hinit]
    · rw [entryAt_endCheck]
      exact entryAt_checkEntries_of_not_reads hcheck ((not_and_or.1 hread).imp_left Nat.not_lt.1)
  case below =>
    rintro ⟨i, rfl, hj⟩
    exact (entryAt_checkEntries_below hcheck).2 j hj
  all_goals obtain ⟨we, draws, rfl⟩ := checkEntries_frame _ _ hcheck
  case answer => cases r <;> exact ⟨rfl, rfl, rfl, rfl⟩
  case rest => exact ⟨rfl, rfl, hdraws, rfl, rfl, rfl, rfl, rfl, rfl, rfl⟩

/-! ## WCHK: content reads across a page end -/

/-- Bytes make up a word (R12). -/
theorem exists_byteOf_eq (c : Nat → Byte) {n : Nat} (hn : n ≤ 8) : ∃ v : Word, ∀ k, k < n → byteOf v k = c k := by
  induction n with
  | zero => exact ⟨0, by simp⟩
  | succ n ih =>
    obtain ⟨v, hv⟩ := ih (by omega)
    refine ⟨_, fun k hk => (byteOf_or_placeByte v (c n) (n := n) (by omega) (by omega)).trans ?_⟩
    split
    next hkn => rw [hkn]
    next hkn => exact hv k (by omega)

/-- A content read whose bytes are those of `v` gives the low bytes of `v`, zeros above (R183). -/
theorem contentWord_eq {s : State} {a v : Word} {n : Nat} (h : ∀ k, k < n → contentByte s a k = .ok (byteOf v k)) :
    contentWord s a n = .ok ((v.setWidth (8 * n)).setWidth 64) := by
  induction n with
  | zero => simp [contentWord, BitVec.of_length_zero]
  | succ n ih =>
    simp only [contentWord, ih fun k hk => h k (by omega), h n (by omega)]
    rw [or_placeByte_low v n]

/-- A content read faults at its first byte that does (R183, R251, U1). -/
theorem contentWord_error {s : State} {a : Word} {n k : Nat} {f : Fault} {c : Nat → Byte} (hn : n ≤ 8) (hk : k < n)
    (hfault : contentByte s a k = .error f) (hbelow : ∀ j, j < k → contentByte s a j = .ok (c j)) :
    contentWord s a n = .error f := by
  induction n with
  | zero => omega
  | succ n ih =>
    by_cases hkn : k = n
    · subst hkn
      obtain ⟨v, hv⟩ := exists_byteOf_eq c (n := k) (by omega)
      have hread := contentWord_eq (v := v) fun j hj => (hv j hj).symm ▸ hbelow j hj
      simp only [contentWord, hread, hfault]
    · simp only [contentWord, ih (by omega) (by omega)]

section
variable {s : State} {a : Word} {k : Nat}

theorem contentByte_of_value {b : Byte} (hin : a.toNat % s.params.pageSize + k < s.params.pageSize)
    (h : memRead s.mem (byteAddr a k).toNat = some b) : contentByte s a k = .ok b := by
  simp [contentByte, beyondPage, Nat.not_le.2 hin, loadByte, h]

theorem contentByte_of_valueless (hin : a.toNat % s.params.pageSize + k < s.params.pageSize)
    (h : memRead s.mem (byteAddr a k).toNat = none) : contentByte s a k = .error (.memoryNoValue (byteAddr a k)) := by
  simp [contentByte, beyondPage, Nat.not_le.2 hin, loadByte, h]

theorem contentByte_beyond (hout : s.params.pageSize ≤ a.toNat % s.params.pageSize + k)
    (h : mapped s (byteAddr a k) = true ∨ Config.freeFault s.draws = false) :
    contentByte s a k = .ok (Config.freeByte s.draws k) := by
  rcases h with h | h <;> simp [contentByte, beyondPage, hout, h]

theorem contentByte_crossing (hout : s.params.pageSize ≤ a.toNat % s.params.pageSize + k)
    (h : mapped s (byteAddr a k) = false) (hfault : Config.freeFault s.draws = true) :
    contentByte s a k = .error (.contentReadCrossing (byteAddr a k)) := by
  simp [contentByte, beyondPage, hout, h, hfault]

end

/-- A WCHK of the idle debug agent faults with its step 3 (R251, U1). -/
theorem exec_wchk_fault {s : State} {th : Thread} {f : Fault} (hissue : debugIssues s)
    (hth : s.threads[s.debugger.tdbg]? = some th) (hpos : s.wlen ≠ 0)
    (h : checkEntries (checkAddress s th) s.wlen s = .error f) : exec .wchk s = .fault f := by
  refine (asDebug_issues hissue).trans ?_
  simp only [startCheck, if_neg hpos, hth, h]

/-- A WCHK faults with the content read of the highest enabled entry (R183, R251). -/
theorem exec_wchk_fault_of_highest {s : State} {th : Thread} {i : Nat} {f : Fault} (hissue : debugIssues s)
    (hth : s.threads[s.debugger.tdbg]? = some th) (hlive : enabledAt s i)
    (habove : ∀ j, i < j → j < s.wlen → (entryAt s j).dis = true)
    (hread : reads (checkAddress s th) s (entryAt s i)) (h : contentWord s (entryAt s i).addr 8 = .error f) :
    exec .wchk s = .fault f := by
  refine exec_wchk_fault hissue hth (Nat.ne_of_gt ((Nat.zero_le i).trans_lt hlive.1)) ?_
  rw [checkEntries_from_highest _ hlive habove, checkEntries_of_error hread h]

/-- A WCHK whose one enabled entry is fresh, and whose content read succeeds, seeds that entry and finds nothing (R183). -/
theorem exec_wchk_seeds {s : State} {th : Thread} {i : Nat} {b c : Nat → Byte} (hissue : debugIssues s)
    (hth : s.threads[s.debugger.tdbg]? = some th) (hlive : enabledAt s i)
    (hothers : ∀ j, j ≠ i → j < s.wlen → (entryAt s j).dis = true)
    (hread : reads (checkAddress s th) s (entryAt s i)) (hfresh : (entryAt s i).init = false)
    (hbytes : ∀ k, k < 8 → contentByte s (entryAt s i).addr k = .ok (c k))
    (hstored : ∀ k, k < 8 → (entryAt s i).addr.toNat % s.params.pageSize + k < s.params.pageSize → c k = b k) :
    ∃ s', exec .wchk s = .next s' ∧ seededUpToPage s s' i b := by
  obtain ⟨v, hv⟩ := exists_byteOf_eq c (le_refl 8)
  have hword : contentWord s (entryAt s i).addr 8 = .ok v := by
    rw [contentWord_eq fun k hk => (hv k hk).symm ▸ hbytes k hk]
    simp
  obtain ⟨d, hd⟩ := afterContentRead_eq (entryAt s i).addr s
  obtain ⟨we, hwe⟩ := noteContent_frame i v { s with draws := d }
  have hquiet : ¬ (noteContent i v { s with draws := d }).2 = true := by
    rw [noteContent_triggers_iff]
    exact fun hchanges => Bool.false_ne_true (hfresh.symm.trans hchanges.1)
  have hself := entryAt_noteContent_self i v { s with draws := d }
  have hkept : ∀ j, j ≠ i → entryAt { s with we := we, draws := d } j = entryAt s j := fun j hj => by
    have hother := entryAt_noteContent_of_ne hj v { s with draws := d }
    rwa [hwe] at hother
  have hcheck : checkEntries (checkAddress s th) s.wlen s = .ok ({ s with we := we, draws := d }, none) := by
    rw [checkEntries_from_highest _ hlive fun j hj => hothers j (by omega), checkEntries_of_reads hread hword, hd,
      if_neg hquiet, hwe]
    refine checkEntries_disabled _ _ _ fun j hj => ?_
    rw [hkept j (by omega)]
    exact hothers j (by omega) (hj.trans hlive.1)
  rw [hwe] at hself
  refine ⟨_, exec_wchk_of_check hissue hth hcheck, ?_⟩
  have hentry : entryAt (endCheck none { s with we := we, draws := d }) i =
      { entryAt s i with prior := v, init := true } := hself
  refine ⟨⟨rfl, rfl, rfl, rfl⟩, by rw [hentry], by rw [hentry]; exact hlive.2, by rw [hentry], fun k hk hin => ?_, hkept, rfl,
    rfl, rfl, rfl, rfl, rfl, rfl, rfl, rfl⟩
  rw [hentry]
  exact (hv k hk).trans (hstored k hk hin)

/-- The bytes of a content read that crosses its page's end and does not fault: those stored, then free ones (R58, U1). -/
def crossingByte (s : State) (a : Word) (b : Nat → Byte) (k : Nat) : Byte :=
  if a.toNat % s.params.pageSize + k < s.params.pageSize then b k else Config.freeByte s.draws k

/-- A byte of a content read that does not fault, on either side of the page's end (R58, U1). -/
theorem contentByte_eq_crossingByte {s : State} {a : Word} {b : Nat → Byte} {k : Nat}
    (h : if a.toNat % s.params.pageSize + k < s.params.pageSize then memRead s.mem (byteAddr a k).toNat = some (b k)
      else mapped s (byteAddr a k) = true ∨ Config.freeFault s.draws = false) :
    contentByte s a k = .ok (crossingByte s a b k) := by
  unfold crossingByte
  split_ifs at h ⊢ with hin
  · exact contentByte_of_value hin h
  · exact contentByte_beyond (Nat.not_lt.1 hin) h

/-- Settles O41: every byte beyond the page's end is mapped, so none faults. -/
theorem crossingReadSeedsStoredBytes : Obligations.CrossingReadSeedsStoredBytes := by
  intro s th i b hissue hth hlive hothers hmiss hfresh hmap _ hbytes
  refine exec_wchk_seeds (c := crossingByte s (entryAt s i).addr b) hissue hth hlive hothers ⟨hlive.2, hmiss, hmap⟩ hfresh
    (fun k hk => contentByte_eq_crossingByte ?_) fun k _ hin => if_pos hin
  have hbyte := hbytes k hk
  split_ifs at hbyte ⊢
  · exact hbyte
  · exact .inl hbyte

/-- Settles O42: by the free choice the read faults at the first unmapped byte, or no byte of it faults. -/
theorem crossingReadOverUnmappedPageFaultsOrSeeds : Obligations.CrossingReadOverUnmappedPageFaultsOrSeeds := by
  intro s th i k b hissue hth hlive hothers hmiss hfresh hmap hk hout hunmapped hbytes
  have hread : reads (checkAddress s th) s (entryAt s i) := ⟨hlive.2, hmiss, hmap⟩
  cases hchoice : Config.freeFault s.draws with
  | true =>
    refine .inl (exec_wchk_fault_of_highest hissue hth hlive (fun j hj => hothers j (by omega)) hread ?_)
    refine contentWord_error (c := crossingByte s (entryAt s i).addr b) (le_refl 8) hk
      (contentByte_crossing hout hunmapped hchoice) fun j hj => contentByte_eq_crossingByte ?_
    have hbyte := hbytes j (by omega)
    split_ifs at hbyte ⊢
    · exact hbyte
    · exact .inl (hbyte hj)
  | false =>
    refine .inr (exec_wchk_seeds (c := crossingByte s (entryAt s i).addr b) hissue hth hlive hothers hread hfresh
      (fun j hj => contentByte_eq_crossingByte ?_) fun j _ hin => if_pos hin)
    have hbyte := hbytes j hj
    split_ifs at hbyte ⊢
    · exact hbyte
    · exact .inr hchoice

/-- Settles O43: the bytes below are within the page as well and have values. -/
theorem wchkReadOfValuelessByteFaults : Obligations.WchkReadOfValuelessByteFaults := by
  intro s th i k hissue hth hlive habove hmiss hmap hk hin hnone hbelow
  refine exec_wchk_fault_of_highest hissue hth hlive habove ⟨hlive.2, hmiss, hmap⟩ ?_
  refine contentWord_error (c := fun j => (memRead s.mem (byteAddr (entryAt s i).addr j).toNat).getD 0) (le_refl 8) hk
    (contentByte_of_valueless hin hnone) fun j hj => ?_
  obtain ⟨b, hb⟩ := Option.ne_none_iff_exists'.1 (hbelow j hj)
  rw [hb]
  exact contentByte_of_value (by omega) hb

/-- Settles O44: a WCHK's end and each of its steps are moves of the debug agent. -/
theorem wchkLeavesMachineStateAsFound : Obligations.WchkLeavesMachineStateAsFound := by
  refine ⟨fun s s' hexec => exec_wchk_frame hexec, fun s s' c pick hc hadv => ?_⟩
  rw [(advanceCheck_move hc hadv).state]
  exact ⟨rfl, rfl, rfl⟩

end Sys2Proof.Machine

/-! O55, O56: a command taken alone in its indivisible steps does what it does run whole (R61 to R64, R111, R180). A command in
flight is a field of its thread that its loads, stores, flags and lock moves neither read nor write, so each state on the way is
`putFlight` over the state that the data alone have reached. -/

namespace Sys2Proof.Machine

/-! ## Indivisible steps of one agent -/

/-- At most `k` indivisible steps of an agent, alone, come to the outcome `r`. -/
def endsAlone (a : Agent) (k : Nat) (s : State) (r : Host.Outcome State Fault Refusal) : Prop :=
  ∃ n, n ≤ k ∧ soloSteps a n s = r

theorem endsAlone.done {a : Agent} (k : Nat) (s : State) : endsAlone a k s (.next s) := ⟨0, Nat.zero_le k, rfl⟩

theorem endsAlone.step {a : Agent} {k : Nat} {s s₁ : State} {r : Host.Outcome State Fault Refusal}
    (h : turn a 0 beginInstr s = .next s₁) (h₁ : endsAlone a k s₁ r) : endsAlone a (k + 1) s r := by
  obtain ⟨n, hn, hrun⟩ := h₁
  exact ⟨n + 1, by omega, by simpa only [soloSteps, h] using hrun⟩

theorem endsAlone.fault {a : Agent} (k : Nat) {s : State} {f : Fault} (h : turn a 0 beginInstr s = .fault f) :
    endsAlone a (k + 1) s (.fault f) := ⟨1, by omega, by simp only [soloSteps, h]⟩

theorem endsAlone.mono {a : Agent} {k k' : Nat} {s : State} {r : Host.Outcome State Fault Refusal}
    (h : endsAlone a k s r) (hk : k ≤ k') : endsAlone a k' s r := by
  obtain ⟨n, hn, hrun⟩ := h
  exact ⟨n, hn.trans hk, hrun⟩

/-- Alone, bytes are accessed in rising order: the pick is 0, and 0 is the first (R56; log 12). -/
theorem nextByte_range' (k j : Nat) : nextByte 0 (List.range' k (j + 1)) = some k := by
  have hnot : 0 ∉ List.range' (k + 1) j := by simp
  simp only [List.range'_succ, nextByte, if_neg hnot]

theorem range'_erase (k j : Nat) : (List.range' k (j + 1)).erase k = List.range' (k + 1) j := by
  simp [List.range'_succ]

/-! ## A flight over the state its data have reached -/

section
variable (t : Nat) (f g : Flight) (x : State)

@[simp] theorem putFlight_params : (putFlight t g x).params = x.params := rfl
@[simp] theorem putFlight_mem : (putFlight t g x).mem = x.mem := rfl

theorem goPhase_putFlight (p : Phase) : goPhase t f p (putFlight t g x) = putFlight t { f with phase := p } x := by
  rw [goPhase, putFlight, putFlight, updThread_updThread]
  rfl

theorem putFlags_putFlight (op : AluOp) (w : Width) (v : Word) :
    putFlags t op w v (putFlight t g x) = putFlight t g (putFlags t op w v x) := by
  simp only [putFlags, putFlight, updThread_updThread]
  rfl

theorem storeOperand_putFlight (w : Width) (o : Oref) (r : Word) :
    storeOperand t w o r (putFlight t g x) = putFlight t g (storeOperand t w o r x) := by
  cases o with
  | reg i boff =>
    simp only [storeOperand, putFlight, updThread_updThread]
    rfl
  | mem a => rfl

theorem finish_putFlight (r : Response) : finish (.thread t) r (putFlight t g x) = finish (.thread t) r x := by
  simp only [finish_thread, putFlight, updThread_updThread]
  rfl

/-- Alone, the turn of a thread is the next step of its command in flight (R61). -/
theorem turn_putFlight {t : Nat} {x : State} {th : Thread} (hx : x.threads[t]? = some th) (f : Flight) :
    turn (.thread t) 0 beginInstr (putFlight t f x) =
      advanceThread t { th with flight := some f } f 0 (putFlight t f x) :=
  turn_inFlight (by simp [putFlight, hx]) rfl 0 beginInstr

/-- What an operand reads as goes by memory and the thread's registers (R111). -/
theorem loadOperand_congr {s s' : State} {th th' : Thread} (hmem : s'.mem = s.mem) (hregs : th'.regs = th.regs) (w : Width)
    (o : Oref) : loadOperand s' th' w o = loadOperand s th w o := by
  cases o <;> simp [loadOperand, readReg, hmem, hregs]

theorem loadOperand_putFlight (th : Thread) (fo : Option Flight) (w : Width) (o : Oref) :
    loadOperand (putFlight t g x) { th with flight := fo } w o = loadOperand x th w o := loadOperand_congr rfl rfl w o

/-- After the last byte of a store only the Release of a LOCKED command is left (R62, R63). -/
theorem stored_putFlight : stored t f (putFlight t g x) =
    if f.path = .locked then putFlight t { f with phase := .release } x
    else finish (.thread t) (okWith .noResult) x := by
  split_ifs with hpath
  · rw [stored_locked hpath, goPhase_putFlight]
  · rw [stored_unlocked hpath, finish_putFlight]

theorem transformed_putFlight (v : Word) : transformed t f v (putFlight t g x) =
    putFlight t { f with phase := .store (allBytes f.width) (aluResult f.op f.width v) } (putFlags t f.op f.width v x) := by
  rw [transformed, putFlags_putFlight, goPhase_putFlight]

end

/-! ## Bytes of a memory operand -/

/-- A load that faults faults the same with more bytes to come (R251). -/
theorem loadWord_error_add {m : Memory} {a : Word} {n : Nat} {e : Fault} (h : loadWord m a n = .error e) (j : Nat) :
    loadWord m a (n + j) = .error e := by
  induction j with
  | zero => exact h
  | succ j ih => rw [← Nat.add_assoc, loadWord, ih]

section
variable {t : Nat} {th : Thread} {f : Flight} {x : State} {a : Word} (hx : x.threads[t]? = some th)
  (hone : oneAccess x.params f.width f.oref = false) (ho : f.oref = .mem a)
include hx hone ho

/-- The load of byte `k`, the `j` bytes after it still to come: the last byte makes up the operand's value (R62). -/
theorem turn_load_byte {k : Nat} {b : Byte} (hb : loadByte x.mem (byteAddr a k) = .ok b) (j : Nat) (acc : Word) :
    turn (.thread t) 0 beginInstr (putFlight t { f with phase := .load (List.range' k (j + 1)) acc } x) =
      .next (if j = 0 then transformed t f (acc ||| placeByte b k) (putFlight t f x)
        else putFlight t { f with phase := .load (List.range' (k + 1) j) (acc ||| placeByte b k) } x) := by
  obtain ⟨op, w, o, path, phase⟩ := f
  obtain rfl : o = .mem a := ho
  have hone : oneAccess x.params w (.mem a) = false := hone
  rw [turn_putFlight hx]
  simp only [advanceThread, loadStep, putFlight_params, putFlight_mem, hone, Bool.false_eq_true, if_false, nextByte_range', hb,
    range'_erase]
  cases j with
  | zero => simp [transformed_putFlight]
  | succ j => simp [List.range'_succ, goPhase_putFlight]

theorem turn_load_byte_error {k : Nat} {e : Fault} (hb : loadByte x.mem (byteAddr a k) = .error e) (j : Nat) (acc : Word) :
    turn (.thread t) 0 beginInstr (putFlight t { f with phase := .load (List.range' k (j + 1)) acc } x) = .fault e := by
  obtain ⟨op, w, o, path, phase⟩ := f
  obtain rfl : o = .mem a := ho
  have hone : oneAccess x.params w (.mem a) = false := hone
  rw [turn_putFlight hx]
  simp only [advanceThread, loadStep, putFlight_params, putFlight_mem, hone, Bool.false_eq_true, if_false, nextByte_range', hb]

/-- The store of byte `k`, the `j` bytes after it still to come (R62). -/
theorem turn_store_byte (k j : Nat) (v : Word) :
    let y : State := { x with mem := memWrite x.mem (byteAddr a k).toNat (byteOf v k) }
    turn (.thread t) 0 beginInstr (putFlight t { f with phase := .store (List.range' k (j + 1)) v } x) =
      .next (if j = 0 then stored t f (putFlight t f y)
        else putFlight t { f with phase := .store (List.range' (k + 1) j) v } y) := by
  obtain ⟨op, w, o, path, phase⟩ := f
  obtain rfl : o = .mem a := ho
  have hone : oneAccess x.params w (.mem a) = false := hone
  intro y
  rw [turn_putFlight hx]
  simp only [advanceThread, storeStep, putFlight_params, hone, Bool.false_eq_true, if_false, nextByte_range', range'_erase]
  cases j with
  | zero => exact congrArg _ ((stored_putFlight t _ _ y).trans (stored_putFlight t _ _ y).symm)
  | succ j => exact congrArg _ (goPhase_putFlight t _ _ y _)

/-- The bytes from `k` on of a memory operand, loaded one by one, put together the load of all of them, or come to its fault
(R56, R62). -/
theorem endsAlone_load_bytes {K : Nat} {r : Host.Outcome State Fault Refusal} (j k : Nat) {acc : Word}
    (hacc : loadWord x.mem a k = .ok acc)
    (hok : ∀ v, loadWord x.mem a (k + (j + 1)) = .ok v → endsAlone (.thread t) K (transformed t f v (putFlight t f x)) r)
    (herr : ∀ e, loadWord x.mem a (k + (j + 1)) = .error e → r = .fault e) :
    endsAlone (.thread t) (K + (j + 1)) (putFlight t { f with phase := .load (List.range' k (j + 1)) acc } x) r := by
  have hall : loadWord x.mem a (k + (j + 1)) = loadWord x.mem a (k + 1 + j) := by rw [Nat.add_assoc, Nat.add_comm 1 j]
  cases hb : loadByte x.mem (byteAddr a k) with
  | error e =>
    have hword : loadWord x.mem a (k + 1) = .error e := by simp only [loadWord, hacc, hb]
    rw [herr e (hall.trans (loadWord_error_add hword j))]
    exact .fault _ (turn_load_byte_error hx hone ho hb j acc)
  | ok b =>
    have hword : loadWord x.mem a (k + 1) = .ok (acc ||| placeByte b k) := by simp only [loadWord, hacc, hb]
    refine .step (turn_load_byte hx hone ho hb j acc) ?_
    cases j with
    | zero => exact hok _ hword
    | succ j =>
      rw [hall] at hok herr
      exact endsAlone_load_bytes j (k + 1) hword hok herr

/-- The bytes from `k` on of a memory operand, stored one by one, are the store of all of them (R56, R62). -/
theorem endsAlone_store_bytes {K : Nat} {r : Host.Outcome State Fault Refusal} {v : Word} (j k : Nat) {m : Memory}
    (hm : x.mem = storeWord m a v k)
    (hend : endsAlone (.thread t) K (stored t f (putFlight t f { x with mem := storeWord m a v (k + (j + 1)) })) r) :
    endsAlone (.thread t) (K + (j + 1)) (putFlight t { f with phase := .store (List.range' k (j + 1)) v } x) r := by
  induction j generalizing x k with
  | zero =>
    refine .step (turn_store_byte hx hone ho k 0 v) ?_
    rw [hm]
    exact hend
  | succ j ih =>
    refine .step (turn_store_byte hx hone ho k (j + 1) v) ?_
    rw [show k + (j + 1 + 1) = k + 1 + (j + 1) by omega] at hend
    exact ih (x := { x with mem := memWrite x.mem (byteAddr a k).toNat (byteOf v k) }) hx hone (k + 1) (by rw [hm]; rfl) hend

end

/-! ## An ALU command -/

/-- The thread after an evaluation of F, in its place. -/
theorem putFlags_getElem? {t : Nat} {x : State} {th : Thread} (hx : x.threads[t]? = some th) (op : AluOp) (w : Width)
    (v : Word) : (putFlags t op w v x).threads[t]? =
      some { th with flags := flagsAfter x.params.flagSem op w v th.flags } := by
  simp [putFlags, hx]

section
variable {t : Nat} {th : Thread} {x : State} {f : Flight} {K : Nat} {r : Host.Outcome State Fault Refusal}
  (hx : x.threads[t]? = some th)
include hx

/-- Where the operand is one access its read and its write are one step each (R56). -/
theorem endsAlone_transform_oneAccess (hone : oneAccess x.params f.width f.oref = true)
    (herr : ∀ e, loadOperand x th f.width f.oref = .error e → r = .fault e)
    (hok : ∀ v, loadOperand x th f.width f.oref = .ok v → endsAlone (.thread t) K (stored t f (putFlight t f
      (storeOperand t f.width f.oref (aluResult f.op f.width v) (putFlags t f.op f.width v x)))) r) :
    endsAlone (.thread t) (K + 2) (putFlight t { f with phase := .load (allBytes f.width) 0 } x) r := by
  have hread := turn_putFlight hx { f with phase := .load (allBytes f.width) 0 }
  simp only [advanceThread, loadStep, putFlight_params, hone, if_true, loadOperand_putFlight] at hread
  cases hload : loadOperand x th f.width f.oref with
  | error e =>
    rw [herr e hload]
    exact .fault _ (by rw [hread, hload])
  | ok v =>
    rw [hload] at hread
    refine .step hread (.step ?_ (hok v hload))
    rw [transformed_putFlight, turn_putFlight (putFlags_getElem? hx ..)]
    simp only [advanceThread, storeStep, putFlight_params, putFlags, updThread_params, hone, if_true]
    rw [storeOperand_putFlight, stored_putFlight, stored_putFlight]

/-- Read, evaluation and write of a command, alone, come to the state in which the last byte is stored, or to the read's fault
(R62). -/
theorem endsAlone_transform (herr : ∀ e, loadOperand x th f.width f.oref = .error e → r = .fault e)
    (hok : ∀ v, loadOperand x th f.width f.oref = .ok v → endsAlone (.thread t) K (stored t f (putFlight t f
      (storeOperand t f.width f.oref (aluResult f.op f.width v) (putFlags t f.op f.width v x)))) r) :
    endsAlone (.thread t) (K + 16) (putFlight t { f with phase := .load (allBytes f.width) 0 } x) r := by
  cases hone : oneAccess x.params f.width f.oref with
  | true => exact (endsAlone_transform_oneAccess hx hone herr hok).mono (by omega)
  | false =>
    obtain ⟨a, ho⟩ : ∃ a, f.oref = .mem a := by
      cases h : f.oref with
      | reg i boff => simp [h, oneAccess] at hone
      | mem a => exact ⟨a, rfl⟩
    obtain ⟨j, hj⟩ : ∃ j, widthBytes f.width = j + 1 := ⟨widthBytes f.width - 1, by have := widthBytes_pos f.width; omega⟩
    have hle := widthBytes_le f.width
    have hbytes : allBytes f.width = List.range' 0 (j + 1) := by rw [allBytes, hj, List.range_eq_range']
    have hall : loadWord x.mem a (0 + (j + 1)) = loadOperand x th f.width f.oref := by
      rw [ho, loadOperand, hj, Nat.zero_add]
    rw [hbytes]
    refine endsAlone.mono (k := K + (j + 1) + (j + 1)) ?_ (by omega)
    refine endsAlone_load_bytes hx hone ho j 0 rfl (fun v hv => ?_) (fun e he => herr e (hall ▸ he))
    rw [transformed_putFlight, hbytes]
    refine endsAlone_store_bytes (x := putFlags t f.op f.width v x) (m := x.mem) (putFlags_getElem? hx ..) hone ho j 0 rfl ?_
    have hend := hok v (hall ▸ hv)
    rwa [ho, storeOperand, hj, ← Nat.zero_add (j + 1)] at hend

end

/-- The CAS path, alone: its first attempt finds the value it loaded (R64, R114). -/
theorem endsAlone_cas {t : Nat} {th : Thread} {s : State} {f : Flight} (hs : s.threads[t]? = some th)
    (hphase : f.phase = .casLoad) :
    endsAlone (.thread t) 2 (putFlight t f s) (transformOperand t th f.op f.width f.oref s) := by
  have hread := turn_putFlight hs f
  simp only [advanceThread, hphase, casLoadStep, loadOperand_putFlight] at hread
  cases hload : loadOperand s th f.width f.oref with
  | error e =>
    rw [hload] at hread
    simp only [transformOperand, hload]
    exact .fault 1 hread
  | ok v =>
    rw [hload] at hread
    rw [transformOperand_of_load hload]
    refine .step hread (.step ?_ (.done 0 _))
    rw [putFlags_putFlight, goPhase_putFlight, turn_putFlight (putFlags_getElem? hs ..)]
    simp only [advanceThread, casTryStep]
    have hagain : loadOperand (putFlight t { f with phase := .casTry v } (putFlags t f.op f.width v s))
        { th with
          flags := flagsAfter s.params.flagSem f.op f.width v th.flags
          flight := some { f with phase := .casTry v } } f.width f.oref = .ok v := (loadOperand_congr rfl rfl ..).trans hload
    rw [hagain, storeOperand_putFlight, finish_putFlight]
    simp only [if_true]

/-- A PLAIN command, alone, does what it does whole (R62, R111). -/
theorem endsAlone_plain {t : Nat} {th : Thread} {s : State} {f : Flight} (hs : s.threads[t]? = some th)
    (hpath : f.path ≠ .locked) :
    endsAlone (.thread t) 16 (putFlight t { f with phase := .load (allBytes f.width) 0 } s)
      (transformOperand t th f.op f.width f.oref s) := by
  refine endsAlone_transform (K := 0) hs (fun e he => by simp only [transformOperand, he]) fun v hv => ?_
  rw [stored_putFlight, if_neg hpath, transformOperand_of_load hv]
  exact .done 0 _

/-- A store leaves every thread in its place (R111). -/
theorem storeOperand_getElem? {t : Nat} {x : State} {th : Thread} (hx : x.threads[t]? = some th) (w : Width) (o : Oref)
    (r : Word) : ∃ th', (storeOperand t w o r x).threads[t]? = some th' := by
  cases o with
  | reg i boff => simp [storeOperand, hx]
  | mem a => exact ⟨th, hx⟩

/-- Release(LK), the last step of a LOCKED command, ends it (R63). -/
theorem turn_release {t : Nat} {x : State} {th : Thread} (hx : x.threads[t]? = some th) (f : Flight) :
    turn (.thread t) 0 beginInstr (putFlight t { f with phase := .release } x) =
      .next (release (finish (.thread t) (okWith .noResult) x)) := by
  rw [turn_putFlight hx]
  exact congrArg Host.Outcome.next (finish_putFlight t _ (release x) _)

/-- The LOCKED path, alone: with LK FREE it goes from Acquire to Release, with LK HELD it waits (R63, R113). -/
theorem endsAlone_locked {t : Nat} {th : Thread} {s : State} {f : Flight} (hs : s.threads[t]? = some th)
    (hpath : f.path = .locked) (hphase : f.phase = .acquire) :
    endsAlone (.thread t) 18 (putFlight t f s) (lockedTransform t th f.op f.width f.oref s) := by
  cases hlk : s.lk with
  | held u =>
    have hf : f = { op := f.op, width := f.width, oref := f.oref, path := .locked, phase := .acquire } := by
      rw [← hpath, ← hphase]
    simp only [lockedTransform, hlk, ← hf]
    exact .done 18 _
  | free =>
    have hacquire : turn (.thread t) 0 beginInstr (putFlight t f s) =
        .next (putFlight t { f with phase := .load (allBytes f.width) 0 } (acquire t s)) := by
      rw [turn_putFlight hs]
      simp only [advanceThread, hphase, acquireStep, show (putFlight t f s).lk = .free from hlk]
      exact congrArg _ (goPhase_putFlight t _ _ (acquire t s) _)
    simp only [lockedTransform, hlk]
    refine .step hacquire (endsAlone_transform (x := acquire t s) (K := 1) hs (fun e he => ?_) fun v hv => ?_)
    · simp only [transformOperand, he]
    · obtain ⟨th', hth'⟩ := storeOperand_getElem? (putFlags_getElem? (x := acquire t s) hs f.op f.width v) f.width f.oref
        (aluResult f.op f.width v)
      rw [stored_putFlight, if_pos hpath, transformOperand_of_load hv]
      exact .step (turn_release hth' f) (.done 0 _)

/-- Settles O55: malformed, and on each of the three paths. -/
theorem aluStepsAloneEqualWholeCommand : Obligations.AluStepsAloneEqualWholeCommand := by
  intro s t th i hissue halu
  suffices h : ∃ s₁, beginInstr i s = .next s₁ ∧ endsAlone (.thread t) 18 s₁ (exec i s) by
    obtain ⟨s₁, hbegin, n, hn, hrun⟩ := h
    exact ⟨fun s' hexec => ⟨s₁, n, hbegin, hn, hrun.trans hexec⟩, fun f hexec => ⟨s₁, n, hbegin, hn, hrun.trans hexec⟩⟩
  obtain ⟨op, w, lock, o, rfl⟩ := (aluInstr_or_watch i).resolve_right halu
  have ⟨hport, hth, hidle⟩ := hissue
  rw [exec_aluInstr, runAlu_issues hissue, beginInstr_aluInstr]
  simp only [beginAlu, asThread, hport, hth, hidle, executeUnaryAlu]
  cases hok : orefOk s w o with
  | false => exact ⟨_, rfl, .done 18 _⟩
  | true =>
    refine ⟨_, rfl, ?_⟩
    cases hpath : pathOf s.params w lock o with
    | plain => exact (endsAlone_plain (f := ⟨op, w, o, .plain, .casLoad⟩) hth (by simp)).mono (by omega)
    | cas => exact (endsAlone_cas hth rfl).mono (by omega)
    | locked => exact endsAlone_locked hth rfl rfl

end Sys2Proof.Machine

/-! O56: a WCHK taken byte by byte alone does what it does run whole (R58, R170, R180). As with an ALU command, each state on the
way is `putCheck` over the state that the entries noted so far have reached. -/

namespace Sys2Proof.Machine

/-- What WCHK answers once its step 3 has run or faulted (R180, R251). -/
def checkOutcome : Except Fault (State × Option Nat) → Host.Outcome State Fault Refusal
  | .error f => .fault f
  | .ok (s, r) => .next (endCheck r s)

/-- Alone, the turn of the debug agent is the next step of its WCHK in flight (R170). -/
theorem turn_putCheck (c : CheckFlight) (x : State) :
    turn .debug 0 beginInstr (putCheck c x) = advanceCheck c 0 (putCheck c x) := rfl

/-- A content read that faults faults the same with more bytes to come (R183, R251). -/
theorem contentWord_error_add {s : State} {a : Word} {n : Nat} {e : Fault} (h : contentWord s a n = .error e) (j : Nat) :
    contentWord s a (n + j) = .error e := by
  induction j with
  | zero => exact h
  | succ j ih => rw [← Nat.add_assoc, contentWord, ih]

section
variable (c : CheckFlight) (x : State)

@[simp] theorem entryAt_putCheck (i : Nat) : entryAt (putCheck c x) i = entryAt x i := rfl
@[simp] theorem mapped_putCheck (a : Word) : mapped (putCheck c x) a = mapped x a := rfl
@[simp] theorem contentByte_putCheck (a : Word) (k : Nat) : contentByte (putCheck c x) a k = contentByte x a k := rfl
@[simp] theorem putEntry_putCheck (i : Nat) (e : WatchEntry) : putEntry i e (putCheck c x) = putCheck c (putEntry i e x) := rfl

theorem afterContentRead_putCheck (a : Word) : afterContentRead a (putCheck c x) = putCheck c (afterContentRead a x) := by
  rw [afterContentRead, afterContentRead, apply_ite (putCheck c)]
  rfl

theorem noteContent_putCheck (i : Nat) (v : Word) :
    noteContent i v (putCheck c x) = (putCheck c (noteContent i v x).1, (noteContent i v x).2) := by
  by_cases hinit : (entryAt x i).init = true
  · by_cases hsame : v = (entryAt x i).prior <;> simp [noteContent, hinit, hsame]
  · simp [noteContent, hinit]

/-- An entry's content is noted, and the WCHK ends or goes on, whatever stood in flight (R183, R184). -/
theorem checked_putCheck (i : Nat) (c' : CheckFlight) (v : Word) : checked i c v (putCheck c' x) = checked i c v x := by
  rw [checked, checked, entryAt_putCheck, afterContentRead_putCheck, noteContent_putCheck]
  obtain ⟨y, _ | _⟩ := noteContent i v (afterContentRead (entryAt x i).addr x) <;> rfl

end

/-- The WCHK `c` as it reads the content of entry `i`: the `j` bytes from `k` on are still to come (R58). -/
def readingEntry (i k j : Nat) (acc : Word) (c : CheckFlight) : CheckFlight :=
  { c with left := i + 1, todo := List.range' k j, acc := acc }

section
variable {i : Nat} {x : State} {c : CheckFlight} (hread : reads c.ea x (entryAt x i))
include hread

/-- Where the content of entry `i` is to be read, a turn reads its next byte (R58, R180). -/
theorem turn_readingEntry (k j : Nat) (acc : Word) :
    turn .debug 0 beginInstr (putCheck (readingEntry i k j acc c) x) =
      contentStep i (readingEntry i k j acc c) 0 (putCheck (readingEntry i k j acc c) x) := by
  obtain ⟨hdis, hea, hmap⟩ := hread
  rw [turn_putCheck, advanceCheck]
  simp [readingEntry, hdis, hea, hmap]

theorem turn_content_byte {k : Nat} {b : Byte} (hb : contentByte x (entryAt x i).addr k = .ok b) (j : Nat) (acc : Word) :
    turn .debug 0 beginInstr (putCheck (readingEntry i k (j + 1) acc c) x) =
      .next (if j = 0 then checked i c (acc ||| placeByte b k) x
        else putCheck (readingEntry i (k + 1) j (acc ||| placeByte b k) c) x) := by
  rw [turn_readingEntry hread, readingEntry]
  simp only [contentStep, nextByte_range', entryAt_putCheck, contentByte_putCheck, hb, range'_erase]
  cases j with
  | zero => exact congrArg Host.Outcome.next (checked_putCheck _ x i _ _)
  | succ j => rfl

theorem turn_content_byte_error {k : Nat} {e : Fault} (hb : contentByte x (entryAt x i).addr k = .error e) (j : Nat)
    (acc : Word) : turn .debug 0 beginInstr (putCheck (readingEntry i k (j + 1) acc c) x) = .fault e := by
  rw [turn_readingEntry hread, readingEntry]
  simp only [contentStep, nextByte_range', entryAt_putCheck, contentByte_putCheck, hb]

/-- The content of an entry from byte `k` on, read byte by byte, is the word it makes up, or comes to its fault (R58, R183). -/
theorem endsAlone_content_bytes {K : Nat} {r : Host.Outcome State Fault Refusal} (j k : Nat) {acc : Word}
    (hacc : contentWord x (entryAt x i).addr k = .ok acc)
    (hok : ∀ v, contentWord x (entryAt x i).addr (k + (j + 1)) = .ok v → endsAlone .debug K (checked i c v x) r)
    (herr : ∀ e, contentWord x (entryAt x i).addr (k + (j + 1)) = .error e → r = .fault e) :
    endsAlone .debug (K + (j + 1)) (putCheck (readingEntry i k (j + 1) acc c) x) r := by
  have hall : k + (j + 1) = k + 1 + j := by omega
  rw [hall] at hok herr
  cases hb : contentByte x (entryAt x i).addr k with
  | error e =>
    have hword : contentWord x (entryAt x i).addr (k + 1) = .error e := by simp only [contentWord, hacc, hb]
    rw [herr e (contentWord_error_add hword j)]
    exact .fault _ (turn_content_byte_error hread hb j acc)
  | ok b =>
    have hword : contentWord x (entryAt x i).addr (k + 1) = .ok (acc ||| placeByte b k) := by
      simp only [contentWord, hacc, hb]
    refine .step (turn_content_byte hread hb j acc) ?_
    cases j with
    | zero => exact hok _ hword
    | succ j => exact endsAlone_content_bytes j (k + 1) hword hok herr

end

/-- A disabled or unmapped entry is passed over in one step (R180, R223). -/
theorem turn_passes {i : Nat} {x : State} {c : CheckFlight} (h : passes c.ea x (entryAt x i)) :
    turn .debug 0 beginInstr (putCheck (belowEntry (i + 1) c) x) = .next (putCheck (belowEntry i c) x) := by
  rw [turn_putCheck, advanceCheck]
  rcases h with hdis | ⟨hea, hmap⟩
  · simp [belowEntry, contentBytes, hdis]
    rfl
  · simp [belowEntry, contentBytes, hea, hmap]
    rfl

/-- An address hit ends the WCHK in one step (R184). -/
theorem turn_hits {i : Nat} {x : State} {c : CheckFlight} (h : hits c.ea (entryAt x i)) :
    turn .debug 0 beginInstr (putCheck (belowEntry (i + 1) c) x) = .next (endCheck (some i) x) := by
  obtain ⟨hdis, hea⟩ := h
  rw [turn_putCheck, advanceCheck]
  simp [belowEntry, contentBytes, hdis, hea]
  rfl

/-- The entries below `n`, visited step by step, come to the outcome of step 3 over them: at most eight bytes for each, then the
end (R180). -/
theorem endsAlone_check (c : CheckFlight) (n : Nat) (x : State) :
    endsAlone .debug (8 * n + 1) (putCheck (belowEntry n c) x) (checkOutcome (checkEntries c.ea n x)) := by
  induction n generalizing x with
  | zero => exact .step rfl (.done 0 _)
  | succ i ih =>
    rcases passes_or_hits_or_reads c.ea x (entryAt x i) with hpass | hhit | hread
    · rw [checkEntries_of_passes hpass]
      exact (endsAlone.step (turn_passes hpass) (ih x)).mono (by omega)
    · rw [checkEntries_of_hits hhit]
      exact .step (turn_hits hhit) (.done _ _)
    · refine endsAlone_content_bytes (K := 8 * i + 1) hread 7 0 rfl (fun v hv => ?_) fun e he => ?_
      · rw [checkEntries_of_reads hread hv, checked]
        obtain ⟨y, _ | _⟩ := noteContent i v (afterContentRead (entryAt x i).addr x)
        · exact ih y
        · exact .done _ _
      · rw [checkEntries_of_error hread he, checkOutcome]

/-- Settles O56: with WLEN = 0 a WCHK ends as it begins, else it begins above every live entry. -/
theorem wchkStepsAloneEqualWholeCommand : Obligations.WchkStepsAloneEqualWholeCommand := by
  intro s hissue
  have hexec : exec .wchk s = startCheck s fun ea => checkOutcome (checkEntries ea s.wlen s) := asDebug_issues hissue
  rw [hexec, beginInstr_wchk, asDebug_issues hissue]
  by_cases hzero : s.wlen = 0
  · simp only [startCheck, if_pos hzero]
    exact ⟨fun s' hend => ⟨_, 0, rfl, hend⟩, by simp⟩
  · simp only [startCheck, if_neg hzero]
    cases s.threads[s.debugger.tdbg]? with
    | none => simp
    | some th =>
      obtain ⟨n, -, hrun⟩ := endsAlone_check
        { thread := s.debugger.tdbg, left := s.wlen, ea := checkAddress s th, todo := contentBytes, acc := 0 } s.wlen s
      exact ⟨fun s' hend => ⟨_, n, rfl, hrun.trans hend⟩, fun f hend => ⟨_, n, rfl, hrun.trans hend⟩⟩

end Sys2Proof.Machine
